-- ==== Sys2Proof/Word.lean ====
section
/-! DEFINITION. The word types of the ProCalc CORE block: bytes, comments and the five word widths. -/

namespace Sys2Proof

/-- A character: 8 bits (46_parse.md, its opening paragraph; 10_state.md R38). -/
abbrev Byte := BitVec 8

/-- A byte string: TEXT, or the content of a comment (10_state.md R38, R43). -/
abbrev Bytes := List Byte

/-- A comment field: `none`, or a byte string; the empty string differs from `none` (10_state.md R38). -/
abbrev Comment := Option Bytes

/-- The five word widths WIDTH can hold (10_state.md R31). The codes 5, 6 and 7 are never held, so they are no value here. -/
inductive Width where
  | w8
  | w16
  | w32
  | w64
  | w128
  deriving DecidableEq, Repr

end Sys2Proof
end

