-- ==== Sys2Proof/Config.lean ====
section
/-! DEFINITION. The configuration parameters of the block (00_scope.md R8) and the one free value. -/

namespace Sys2Proof

/-- The parameter `SDIV_OVERFLOW`: the outcome of the signed division overflow case (00_scope.md R8, 42_binary.md R177). -/
inductive SdivOverflow where
  | wrap
  | fault
  deriving DecidableEq, Repr

/-- The parameters that are fixed for a run, besides CAP (00_scope.md R8). They stand in the state as plain data, so a
statement about every state covers every value of them; no command writes them. -/
structure Params where
  /-- `RESET_WIDTH`, the width after reset (OPEN in the spec). -/
  resetWidth : Width
  /-- `SDIV_OVERFLOW` (OPEN in the spec). -/
  sdivOverflow : SdivOverflow
  /-- `TEXT_MAX`, the host's bound on TEXT; `none` is unbounded (OPEN in the spec). -/
  textMax : Option Nat
  /-- `COMMENT_MAX`, the host's bound on a comment; `none` is unbounded (OPEN in the spec). -/
  commentMax : Option Nat
  deriving DecidableEq, Repr

/-- The default capacity of the ring buffer (00_scope.md R8, 10_state.md R32). -/
def Config.defaultCap : Nat := 256

/-- `NATIVE_BITS`, the width of an index or a maximum (00_scope.md R8). -/
abbrev Config.nativeBits : Nat := 32

/-- The parameters of `State.reset`. DESIGN CHOICE (logs 1, 2, 4; unsafe): the spec leaves all four open. -/
def Config.defaultParams : Params :=
  { resetWidth := .w8, sdivOverflow := .wrap, textMax := none, commentMax := none }

/-- Free value (log 12): RCOUNT is a 32-bit field and the spec states no result for a count of 2^32 or more
(92_eei_decisions.md D55). It has no body, so nothing can be proved of its values. -/
opaque Config.wideCount : Nat → BitVec 32

end Sys2Proof
end

