-- ==== Sys2Proof/Syntax.lean ====
section
/-! DEFINITION. The 42 commands, one constructor per row of spec/opcode_table.json, with the fields of the command word
that their format uses (30_encoding.md R81, R89 to R93). DATA, CMT0, CMT1 and TEXT are side fields of the command port,
not of the word, and the meanings read them there (10_state.md R43). -/

namespace Sys2Proof

/-- FMT, PARSE's default format (30_encoding.md R86). -/
inductive Radix where
  | hexadecimal
  | decimal
  | octal
  | binary
  deriving DecidableEq, Repr

/-- The five command formats (30_encoding.md R89). -/
inductive Format where
  | n
  | w
  | f
  | b
  | s
  deriving DecidableEq, Repr

/-- A decoded command. `wc` is the 3-bit width code as encoded (codes 5 to 7 decode legally, 30_encoding.md R84), `sx` the
sign flag (R85), `fmt` PARSE's default format (R86), `cin`, `pfc` and `pfv` the flag inputs (R82), `xi` the index source (R83). -/
inductive Instr where
  | push (wc : BitVec 3) (sx : Bool)
  | peek
  | clear
  | count
  | wbytes
  | getitems
  | convert (wc : BitVec 3) (sx : Bool)
  | parse (fmt : Radix)
  | add (cin pfc pfv : Bool)
  | adc (cin pfc pfv : Bool)
  | sub (cin pfc pfv : Bool)
  | sbb (cin pfc pfv : Bool)
  | mul (cin pfc pfv : Bool)
  | divu (cin pfc pfv : Bool)
  | divs (cin pfc pfv : Bool)
  | rem (cin pfc pfv : Bool)
  | and (cin pfc pfv : Bool)
  | or (cin pfc pfv : Bool)
  | xor (cin pfc pfv : Bool)
  | shl (cin pfc pfv : Bool)
  | shr (cin pfc pfv : Bool)
  | sar (cin pfc pfv : Bool)
  | rol (cin pfc pfv : Bool)
  | ror (cin pfc pfv : Bool)
  | rcl (cin pfc pfv : Bool)
  | rcr (cin pfc pfv : Bool)
  | alignup (cin pfc pfv : Bool)
  | aligndn (cin pfc pfv : Bool)
  | not
  | maskl
  | maskr
  | popcnt
  | clz
  | ctz
  | pow2
  | drop (xi : Bool)
  | roll (xi : Bool)
  | extract (xi : Bool)
  | swap (xi : Bool)
  | pick (xi : Bool)
  | setcmt (xi : Bool)
  | swapcmt (xi : Bool)
  deriving DecidableEq, Repr

/-- What the host puts on the command port: the command word and the side fields (10_state.md R43). -/
structure Command where
  /-- CMD, the 32-bit command word. -/
  cmd : BitVec 32
  /-- DATA, the 128-bit value operand. -/
  data : BitVec 128
  /-- CMT0, PUSH's primary comment. -/
  cmt0 : Comment
  /-- CMT1, PUSH's alternate comment. -/
  cmt1 : Comment
  /-- TEXT, PARSE's input. -/
  text : Bytes
  deriving DecidableEq, Repr

/-- A command port with nothing on it. -/
def Command.blank : Command :=
  { cmd := 0#32, data := 0#128, cmt0 := none, cmt1 := none, text := [] }

/-- What the host can do to the block between two commands: present a command, or assert reset (70_reset_and_hazards.md
R345, R347; 93_implementation_defined.md U14). -/
inductive HostMove where
  | command (c : Command)
  | reset
  deriving DecidableEq, Repr

end Sys2Proof
end

