-- ==== Sys2Proof/WellFormed.lean ====
section
/-! DEFINITION. Which commands, capacities and side fields are well formed. -/

namespace Sys2Proof

/-- A decoded command is well formed when each field is in its range. Every field's type is exactly the range its encoding
admits (30_encoding.md R81: WC has all eight codes, R84; CIN, PFC, PFV, XI and SX are bits; FMT has all four values, R86),
so no value of `Instr` is ill formed. -/
def Instr.wf (_ : Instr) : Bool := true

/-- A ring buffer has at least two slots (00_scope.md R8, 10_state.md R32). -/
def capWf (cap : Nat) : Bool := 2 ≤ cap

/-- A length is within a host bound; an absent bound is unbounded (00_scope.md R8). -/
def withinBound (bound : Option Nat) (len : Nat) : Bool :=
  match bound with
  | none => true
  | some m => len ≤ m

/-- TEXT keeps TEXT_MAX (10_state.md R43). -/
def Command.textFits (p : Params) (c : Command) : Bool :=
  withinBound p.textMax c.text.length

/-- A comment keeps COMMENT_MAX; `none` has no length. -/
def commentFits (p : Params) (c : Comment) : Bool :=
  match c with
  | none => true
  | some x => withinBound p.commentMax x.length

/-- Both comments of the command port keep COMMENT_MAX. -/
def Command.commentsFit (p : Params) (c : Command) : Bool :=
  commentFits p c.cmt0 && commentFits p c.cmt1

/-- The side fields keep the host bounds TEXT_MAX and COMMENT_MAX (93_implementation_defined.md U4). -/
def Command.wf (p : Params) (c : Command) : Bool :=
  c.textFits p && c.commentsFit p

end Sys2Proof
end

