-- ==== Sys2Proof/Decode.lean ====
section
/-! DEFINITION. The decoder of the command word, total on all 2^32 words and refusing by name, and after it the encoder
(30_encoding.md R80 to R98). -/

namespace Sys2Proof

/-- Why a word is an illegal command: a reserved opcode (30_encoding.md R94), or a nonzero bit outside the opcode and its
format's fields (R87). Both raise IllegalCommand. -/
inductive DecodeError where
  | reservedOpcode
  | reservedBits
  deriving DecidableEq, Repr

/-- The format of each command (30_encoding.md R89, R90 to R93). -/
def Instr.format : Instr → Format
  | .push _ _ | .convert _ _ => .w
  | .peek | .clear | .count | .wbytes | .getitems => .n
  | .parse _ => .f
  | .add _ _ _ | .adc _ _ _ | .sub _ _ _ | .sbb _ _ _ | .mul _ _ _ | .divu _ _ _ | .divs _ _ _ | .rem _ _ _ => .b
  | .and _ _ _ | .or _ _ _ | .xor _ _ _ | .shl _ _ _ | .shr _ _ _ | .sar _ _ _ | .rol _ _ _ | .ror _ _ _ => .b
  | .rcl _ _ _ | .rcr _ _ _ | .alignup _ _ _ | .aligndn _ _ _ => .b
  | .not | .maskl | .maskr | .popcnt | .clz | .ctz | .pow2 => .n
  | .drop _ | .roll _ | .extract _ | .swap _ | .pick _ | .setcmt _ | .swapcmt _ => .s

/-- The `allowed` mask of a format: the bits of its fields (30_encoding.md R89). -/
def Format.allowed : Format → BitVec 32
  | .n => 0x00000000#32
  | .w => 0x0000F000#32
  | .f => 0x00030000#32
  | .b => 0x00000700#32
  | .s => 0x00000800#32

/-- FMT's value (30_encoding.md R86). -/
def Radix.code : Radix → BitVec 2
  | .hexadecimal => 0#2
  | .decimal => 1#2
  | .octal => 2#2
  | .binary => 3#2

/-- FMT read back: all four values are legal (30_encoding.md R86). -/
def Radix.ofCode (c : BitVec 2) : Radix :=
  match c.toNat with
  | 0 => .hexadecimal
  | 1 => .decimal
  | 2 => .octal
  | _ => .binary

/-- OPC, the low byte (30_encoding.md R81). -/
def opcOf (cmd : BitVec 32) : BitVec 8 := cmd.extractLsb' 0 8

/-- CIN, bit 8 (30_encoding.md R81). -/
def cinOf (cmd : BitVec 32) : Bool := cmd.getLsbD 8

/-- PFC, bit 9 (30_encoding.md R81). -/
def pfcOf (cmd : BitVec 32) : Bool := cmd.getLsbD 9

/-- PFV, bit 10 (30_encoding.md R81). -/
def pfvOf (cmd : BitVec 32) : Bool := cmd.getLsbD 10

/-- XI, bit 11 (30_encoding.md R81). -/
def xiOf (cmd : BitVec 32) : Bool := cmd.getLsbD 11

/-- WC, bits 14 to 12 (30_encoding.md R81). -/
def wcOf (cmd : BitVec 32) : BitVec 3 := cmd.extractLsb' 12 3

/-- SX, bit 15 (30_encoding.md R81). -/
def sxOf (cmd : BitVec 32) : Bool := cmd.getLsbD 15

/-- FMT, bits 17 to 16 (30_encoding.md R81). -/
def fmtOf (cmd : BitVec 32) : Radix := Radix.ofCode (cmd.extractLsb' 16 2)

/-- The opcode map (30_encoding.md R90 to R93) with the fields of the word; `none` for a reserved opcode (R94). -/
def instrOf (cmd : BitVec 32) : Option Instr :=
  match (opcOf cmd).toNat with
  | 0x01 => some (.push (wcOf cmd) (sxOf cmd))
  | 0x02 => some .peek
  | 0x03 => some .clear
  | 0x04 => some .count
  | 0x05 => some .wbytes
  | 0x06 => some .getitems
  | 0x07 => some (.convert (wcOf cmd) (sxOf cmd))
  | 0x08 => some (.parse (fmtOf cmd))
  | 0x20 => some (.add (cinOf cmd) (pfcOf cmd) (pfvOf cmd))
  | 0x21 => some (.adc (cinOf cmd) (pfcOf cmd) (pfvOf cmd))
  | 0x22 => some (.sub (cinOf cmd) (pfcOf cmd) (pfvOf cmd))
  | 0x23 => some (.sbb (cinOf cmd) (pfcOf cmd) (pfvOf cmd))
  | 0x24 => some (.mul (cinOf cmd) (pfcOf cmd) (pfvOf cmd))
  | 0x25 => some (.divu (cinOf cmd) (pfcOf cmd) (pfvOf cmd))
  | 0x26 => some (.divs (cinOf cmd) (pfcOf cmd) (pfvOf cmd))
  | 0x27 => some (.rem (cinOf cmd) (pfcOf cmd) (pfvOf cmd))
  | 0x28 => some (.and (cinOf cmd) (pfcOf cmd) (pfvOf cmd))
  | 0x29 => some (.or (cinOf cmd) (pfcOf cmd) (pfvOf cmd))
  | 0x2A => some (.xor (cinOf cmd) (pfcOf cmd) (pfvOf cmd))
  | 0x2B => some (.shl (cinOf cmd) (pfcOf cmd) (pfvOf cmd))
  | 0x2C => some (.shr (cinOf cmd) (pfcOf cmd) (pfvOf cmd))
  | 0x2D => some (.sar (cinOf cmd) (pfcOf cmd) (pfvOf cmd))
  | 0x2E => some (.rol (cinOf cmd) (pfcOf cmd) (pfvOf cmd))
  | 0x2F => some (.ror (cinOf cmd) (pfcOf cmd) (pfvOf cmd))
  | 0x30 => some (.rcl (cinOf cmd) (pfcOf cmd) (pfvOf cmd))
  | 0x31 => some (.rcr (cinOf cmd) (pfcOf cmd) (pfvOf cmd))
  | 0x32 => some (.alignup (cinOf cmd) (pfcOf cmd) (pfvOf cmd))
  | 0x33 => some (.aligndn (cinOf cmd) (pfcOf cmd) (pfvOf cmd))
  | 0x40 => some .not
  | 0x41 => some .maskl
  | 0x42 => some .maskr
  | 0x43 => some .popcnt
  | 0x44 => some .clz
  | 0x45 => some .ctz
  | 0x46 => some .pow2
  | 0x60 => some (.drop (xiOf cmd))
  | 0x61 => some (.roll (xiOf cmd))
  | 0x62 => some (.extract (xiOf cmd))
  | 0x63 => some (.swap (xiOf cmd))
  | 0x64 => some (.pick (xiOf cmd))
  | 0x65 => some (.setcmt (xiOf cmd))
  | 0x66 => some (.swapcmt (xiOf cmd))
  | _ => none

/-- `decode(CMD)` of 30_encoding.md R95: the opcode first, then the bits outside the format's fields. -/
def decode (cmd : BitVec 32) : Except DecodeError Instr :=
  match instrOf cmd with
  | none => .error .reservedOpcode
  | some i =>
    if cmd &&& 0xFFFFFF00#32 &&& ~~~i.format.allowed = 0#32 then .ok i else .error .reservedBits

/-- The decoder over a row of spec/opcode_table.json: the word's low `nbits` bits, every higher bit zero. The block has one
32-bit command word and no byte order (30_encoding.md R80, 20_memory.md R61; log 16), so the word is read as it
stands. -/
def decodeTableWord (nbits w : Nat) : Option Instr :=
  (decode (BitVec.ofNat 32 (w % 2 ^ nbits))).toOption

/-- OPC of each command (30_encoding.md R90 to R93). -/
def Instr.opcode : Instr → BitVec 8
  | .push _ _ => 0x01#8
  | .peek => 0x02#8
  | .clear => 0x03#8
  | .count => 0x04#8
  | .wbytes => 0x05#8
  | .getitems => 0x06#8
  | .convert _ _ => 0x07#8
  | .parse _ => 0x08#8
  | .add _ _ _ => 0x20#8
  | .adc _ _ _ => 0x21#8
  | .sub _ _ _ => 0x22#8
  | .sbb _ _ _ => 0x23#8
  | .mul _ _ _ => 0x24#8
  | .divu _ _ _ => 0x25#8
  | .divs _ _ _ => 0x26#8
  | .rem _ _ _ => 0x27#8
  | .and _ _ _ => 0x28#8
  | .or _ _ _ => 0x29#8
  | .xor _ _ _ => 0x2A#8
  | .shl _ _ _ => 0x2B#8
  | .shr _ _ _ => 0x2C#8
  | .sar _ _ _ => 0x2D#8
  | .rol _ _ _ => 0x2E#8
  | .ror _ _ _ => 0x2F#8
  | .rcl _ _ _ => 0x30#8
  | .rcr _ _ _ => 0x31#8
  | .alignup _ _ _ => 0x32#8
  | .aligndn _ _ _ => 0x33#8
  | .not => 0x40#8
  | .maskl => 0x41#8
  | .maskr => 0x42#8
  | .popcnt => 0x43#8
  | .clz => 0x44#8
  | .ctz => 0x45#8
  | .pow2 => 0x46#8
  | .drop _ => 0x60#8
  | .roll _ => 0x61#8
  | .extract _ => 0x62#8
  | .swap _ => 0x63#8
  | .pick _ => 0x64#8
  | .setcmt _ => 0x65#8
  | .swapcmt _ => 0x66#8

/-- A 32-bit word with one field's value placed with its lowest bit at `pos` (30_encoding.md R81). -/
def place {n : Nat} (v : BitVec n) (pos : Nat) : BitVec 32 := v.setWidth 32 <<< pos

/-- A flag bit placed at `pos`. -/
def placeBit (b : Bool) (pos : Nat) : BitVec 32 := place (BitVec.ofBool b) pos

/-- The bits of the fields of a command, each at its place (30_encoding.md R81, R89). -/
def Instr.fieldBits : Instr → BitVec 32
  | .push wc sx | .convert wc sx => place wc 12 ||| placeBit sx 15
  | .parse fmt => place fmt.code 16
  | .add c p v | .adc c p v | .sub c p v | .sbb c p v | .mul c p v | .divu c p v | .divs c p v | .rem c p v
  | .and c p v | .or c p v | .xor c p v | .shl c p v | .shr c p v | .sar c p v | .rol c p v | .ror c p v
  | .rcl c p v | .rcr c p v | .alignup c p v | .aligndn c p v => placeBit c 8 ||| placeBit p 9 ||| placeBit v 10
  | .drop xi | .roll xi | .extract xi | .swap xi | .pick xi | .setcmt xi | .swapcmt xi => placeBit xi 11
  | .peek | .clear | .count | .wbytes | .getitems => 0#32
  | .not | .maskl | .maskr | .popcnt | .clz | .ctz | .pow2 => 0#32

/-- The command word of a command (30_encoding.md R81, R89: the match of a command is its opcode, zero-extended). -/
def encode (i : Instr) : BitVec 32 := place i.opcode 0 ||| i.fieldBits

end Sys2Proof
end

