-- ==== Sys2Proof/Machine/State.lean ====
section
/-! DEFINITION. The state of the ProCalc CORE block as plain data: WIDTH, the ring buffer with its cursors, the two ports,
the configuration parameters and the host's moves still to come; the reasons a step can stop; the state after reset. -/

namespace Sys2Proof.Machine

/-- A stack entry `<val, cmt, alt>` (10_state.md R38). -/
structure Entry where
  /-- The value in a 128-bit field, zero-extended from the word width. -/
  val : BitVec 128
  /-- The primary comment. -/
  cmt : Comment
  /-- The alternate comment. -/
  alt : Comment
  deriving DecidableEq, Repr

/-- The entry of value 0 without comments. -/
def Entry.blank : Entry := { val := 0#128, cmt := none, alt := none }

/-- The errors a deque primitive or a command raises (60_exceptions.md R310). `stackEmpty` is raised by deque primitives
only and never reaches the port (R311). -/
inductive Err where
  | insufficientOperands
  | stackFull
  | stackEmpty
  | indexOutOfRange
  | divideByZero
  | invalidShiftAmount
  | invalidFormat
  | emptyInput
  | invalidOperation
  | unsupportedConversionType
  | arithmeticOverflow
  | illegalCommand
  deriving DecidableEq, Repr

/-- ResultFlags {Carry, Overflow} (10_state.md R41): a value in flight, the block keeps no flags register. -/
structure Flags where
  /-- Carry, which is also the borrow. -/
  c : Bool
  /-- Overflow. -/
  v : Bool
  deriving DecidableEq, Repr

/-- The response latches (10_state.md R44, R48). -/
structure Response where
  /-- STATUS: 0 for success, or an error code (60_exceptions.md R310). -/
  status : BitVec 4
  /-- FLAGS: bit 0 is C, bit 1 is V (10_state.md R41). -/
  flags : BitVec 2
  /-- RVAL. -/
  rval : BitVec 128
  /-- RCMT0. -/
  rcmt0 : Comment
  /-- RCMT1. -/
  rcmt1 : Comment
  /-- RCOUNT. -/
  rcount : BitVec 32
  /-- ITEMS, top first. -/
  items : List Entry
  /-- RPRESENT. -/
  rpresent : Bool
  /-- MARKER. -/
  marker : BitVec 8
  deriving DecidableEq, Repr

/-- Every response field zero, `none` or the empty list: the latches after reset (10_state.md R48) and the fields a command
does not set (10_state.md R50). -/
def Response.blank : Response :=
  { status := 0#4, flags := 0#2, rval := 0#128, rcmt0 := none, rcmt1 := none, rcount := 0#32, items := [],
    rpresent := false, marker := 0#8 }

/-- The deque's storage: CAP, RB, HEAD and TAIL (10_state.md R32 to R34). -/
structure Deque where
  /-- CAP, the number of slots. -/
  cap : Nat
  /-- RB, the slots `RB[0]` to `RB[CAP-1]`. -/
  rb : List Entry
  /-- HEAD, the slot the next `push_front` writes. -/
  head : Nat
  /-- TAIL, the slot of the bottom entry. -/
  tail : Nat
  deriving DecidableEq, Repr

/-- The form every deque operation keeps: at least two slots, exactly CAP slots, both cursors in `[0, CAP)`
(10_state.md R32 to R34). -/
abbrev Deque.wf (d : Deque) : Prop :=
  2 ≤ d.cap ∧ d.rb.length = d.cap ∧ d.head < d.cap ∧ d.tail < d.cap

/-- An empty deque of `cap` slots, cursors at 0 (10_state.md R34). The spec leaves the slots' contents unspecified (R33);
DESIGN CHOICE (log 5): each holds the blank entry, which no command reads. -/
def Deque.new (cap : Nat) : Deque :=
  { cap := cap, rb := List.replicate cap Entry.blank, head := 0, tail := 0 }

/-- The whole machine. -/
structure State where
  /-- The parameters fixed for a run (00_scope.md R8), besides CAP, which is `dq.cap`. -/
  cfg : Params
  /-- WIDTH (10_state.md R31). -/
  width : Width
  /-- CAP, RB, HEAD and TAIL (10_state.md R32 to R34). -/
  dq : Deque
  /-- The MODEL's own field (log 9): the host's moves still to come, the next one first. -/
  inputs : List HostMove
  /-- The command port: the command accepted last (10_state.md R43). -/
  port : Command
  /-- The response latches (10_state.md R44, R48). -/
  resp : Response
  deriving DecidableEq, Repr

/-- The spec names no condition that stops the block: every failure is an error response, after which the block accepts the
next command (60_exceptions.md R314, R317). So no fault exists, and a step that faults cannot be written. Safe. -/
inductive Fault where
  deriving DecidableEq, Repr

/-- The moves the model does not run. -/
inductive Refusal where
  /-- An instruction without a meaning, raised by an arm of `exec`; no arm raises it. Safe: it stops. -/
  | notModelled (mnemonic : String)
  /-- The host presents a TEXT longer than TEXT_MAX, raised by `step` before decoding. The spec refuses this host
  (93_implementation_defined.md U4). Safe: it stops, and no claim covers it. -/
  | textTooLong
  /-- The host presents a comment longer than COMMENT_MAX, raised by `step` before decoding. The spec refuses this host
  (93_implementation_defined.md U4). Safe: it stops, and no claim covers it. -/
  | commentTooLong
  deriving DecidableEq, Repr

/-- The state after reset of a block with these parameters (70_reset_and_hazards.md R340). The command port holds the blank
command and no host move is pending: DESIGN CHOICE (logs 9, 10). -/
def State.resetWith (cap : Nat) (cfg : Params) : State :=
  { cfg := cfg, width := cfg.resetWidth, dq := Deque.new cap, inputs := [], port := Command.blank, resp := Response.blank }

/-- The machine right after reset, with CAP at the spec's default and the open parameters at the values the log names
(70_reset_and_hazards.md R340; logs 1 to 4). -/
def State.reset : State := State.resetWith Config.defaultCap Config.defaultParams

end Sys2Proof.Machine
end

