-- ==== Sys2Proof/Machine/Flags.lean ====
section
/-! DEFINITION. Every flag computation of the binary commands (42_binary.md R165). -/

namespace Sys2Proof.Machine

/-- FLAGS as the response carries it: bit 0 is C, bit 1 is V (10_state.md R41). -/
def flagBits (f : Flags) : BitVec 2 := BitVec.ofBool f.v ++ BitVec.ofBool f.c

/-- Both flags clear. -/
def flagsClear : Flags := { c := false, v := false }

/-- Carry and Overflow set together to one bit (42_binary.md R186, R192). -/
def flagsBoth (f : Bool) : Flags := { c := f, v := f }

/-- Carry of an addition with effective carry `c` and result `r` (42_binary.md R166, R167). -/
def addCarryFlag {n : Nat} (c : Bool) (a r : BitVec n) : Bool :=
  decide (r.toNat < a.toNat) || (c && r == a)

/-- Overflow of an addition (42_binary.md R166, R167). -/
def addOverflowFlag {n : Nat} (a b r : BitVec n) : Bool :=
  a.msb == b.msb && r.msb != a.msb

/-- Borrow of a subtraction with effective borrow `c` and result `r` (42_binary.md R168, R169). -/
def subBorrowFlag {n : Nat} (c : Bool) (a r : BitVec n) : Bool :=
  decide (a.toNat < r.toNat) || (c && r == a)

/-- Overflow of a subtraction (42_binary.md R168, R169). -/
def subOverflowFlag {n : Nat} (a b r : BitVec n) : Bool :=
  a.msb != b.msb && r.msb != a.msb

/-- MUL's Carry: the exact unsigned product is above MAXU (42_binary.md R172, R174). -/
def mulCarryFlag {n : Nat} (a b : BitVec n) : Bool :=
  decide (2 ^ n - 1 < a.toNat * b.toNat)

/-- MUL's Overflow: the exact signed product is outside `[MINS, MAXS]` (42_binary.md R172, R174). -/
def mulOverflowFlag {n : Nat} (a b : BitVec n) : Bool :=
  decide (a.toInt * b.toInt < -(2 ^ (n - 1) : Int)) || decide ((2 ^ (n - 1) : Int) - 1 < a.toInt * b.toInt)

/-- The last bit a left shift by `k` moves out, `1 <= k <= n` (42_binary.md R186). -/
def lastOutLeft {n : Nat} (a : BitVec n) (k : Nat) : Bool := a.getLsbD (n - k)

/-- The last bit a right shift by `k` moves out, `1 <= k <= n` (42_binary.md R186). -/
def lastOutRight {n : Nat} (a : BitVec n) (k : Nat) : Bool := a.getLsbD (k - 1)

end Sys2Proof.Machine
end

