-- ==== Sys2Proof/Machine/Operands.lean ====
section
/-! DEFINITION. Widths, casts, and how each command's operands are read: words of a slot, native indices, amounts and PUSH's
source value (00_scope.md R12, R16; 30_encoding.md R96; 44_stack.md R241). -/

namespace Sys2Proof.Machine

/-- `bits` of a width (10_state.md R31). -/
def widthBits : Width → Nat
  | .w8 => 8
  | .w16 => 16
  | .w32 => 32
  | .w64 => 64
  | .w128 => 128

/-- `word_bytes = bits / 8` (00_scope.md R9, 10_state.md R31). -/
def widthBytes (w : Width) : Nat := widthBits w / 8

/-- The 3-bit WIDTH code (10_state.md R31). -/
def widthCode : Width → BitVec 3
  | .w8 => 0#3
  | .w16 => 1#3
  | .w32 => 2#3
  | .w64 => 3#3
  | .w128 => 4#3

/-- The width a code names; the codes 5, 6 and 7 name none (10_state.md R31, 30_encoding.md R84). -/
def widthOfCode (c : BitVec 3) : Option Width :=
  match c.toNat with
  | 0 => some .w8
  | 1 => some .w16
  | 2 => some .w32
  | 3 => some .w64
  | 4 => some .w128
  | _ => none

/-- `Conv(v, srcbits, signed, dstbits)`: the truncating cast between widths (00_scope.md R16). -/
def conv {m : Nat} (v : BitVec m) (signed : Bool) (n : Nat) : BitVec n :=
  if n ≤ m then v.setWidth n else if signed then v.signExtend n else v.setWidth n

/-- The word of an entry: its low `n` bits; bits at and above `n` are not read (10_state.md R38). -/
def wordOf (n : Nat) (e : Entry) : BitVec n := e.val.setWidth n

/-- How a slot, RVAL or ITEMS holds a word: `zext_128` (10_state.md R38, R44). -/
def slotValue {n : Nat} (v : BitVec n) : BitVec 128 := v.setWidth 128

/-- `NativeIndex(v) = s(trunc_32(sext_128(v)))` (44_stack.md R241). -/
def nativeIndex {n : Nat} (v : BitVec n) : Int :=
  ((v.signExtend 128).setWidth Config.nativeBits).toInt

/-- An explicit index, or GETITEMS's maximum: `s(trunc_32(DATA))` (30_encoding.md R83, R96; 41_data.md R149). -/
def dataIndex (data : BitVec 128) : Int := (data.setWidth Config.nativeBits).toInt

/-- PUSH's source cast: `Conv(DATA[srcbits-1:0], srcbits, SX == 1, bits)` (41_data.md R140, R143). -/
def pushValue (src : Width) (sx : Bool) (data : BitVec 128) (n : Nat) : BitVec n :=
  conv (data.setWidth (widthBits src)) sx n

/-- CONVERT's map on one entry: the value cast, both comments kept (45_convert.md R270, R271). -/
def convertEntry (old : Width) (sx : Bool) (new : Width) (e : Entry) : Entry :=
  { e with val := slotValue (conv (wordOf (widthBits old) e) sx (widthBits new)) }

/-- An entry as ITEMS carries it: its value `zext_128` of the word (41_data.md R148, 10_state.md R44). -/
def itemOf (w : Width) (e : Entry) : Entry := { e with val := slotValue (wordOf (widthBits w) e) }

/-- The bits of `x` that are 1, lowest first. -/
def setBits {n : Nat} (x : BitVec n) : List Nat := (List.range n).filter fun i => x.getLsbD i

end Sys2Proof.Machine
end

