-- ==== Sys2Proof/Machine/Ops.lean ====
section
/-! DEFINITION. The named operations over the state: record updates, the deque primitives (40_deque.md), taking an error
(60_exceptions.md R314), and taking the host's next move (10_state.md R45). -/

namespace Sys2Proof.Machine

/-- The state with these response latches. -/
def State.respond (s : State) (r : Response) : State := { s with resp := r }

/-- The state with this deque. -/
def State.withDeque (s : State) (d : Deque) : State := { s with dq := d }

/-- The state with this WIDTH. -/
def State.withWidth (s : State) (w : Width) : State := { s with width := w }

/-- The state with this command on the command port. -/
def State.withPort (s : State) (c : Command) : State := { s with port := c }

/-- The state with these host moves still to come. -/
def State.withInputs (s : State) (ms : List HostMove) : State := { s with inputs := ms }

/-! ## The deque unit -/

/-- `count = (HEAD - TAIL) mod CAP` (10_state.md R35). -/
def Deque.count (d : Deque) : Nat := (d.head + d.cap - d.tail) % d.cap

/-- `free = CAP - 1 - count` (10_state.md R35). -/
def Deque.free (d : Deque) : Nat := d.cap - 1 - d.count

/-- A read of slot `i`, `i` below CAP (00_scope.md R16). DESIGN CHOICE (log 17): where RB holds no such slot, which no
well-formed deque allows, the blank entry. -/
def Deque.slot (d : Deque) (i : Nat) : Entry := d.rb.getD i Entry.blank

/-- The logical stack `S`, bottom first (10_state.md R37). -/
def Deque.stack (d : Deque) : List Entry :=
  (List.range d.count).map fun i => d.slot ((d.tail + i) % d.cap)

/-- `push_front(e)` (40_deque.md R112). -/
def Deque.pushFront (d : Deque) (e : Entry) : Except Err Deque :=
  if d.free < 1 then .error .stackFull
  else .ok { d with rb := d.rb.set d.head e, head := (d.head + 1) % d.cap }

/-- `push_back(e)` (40_deque.md R113). -/
def Deque.pushBack (d : Deque) (e : Entry) : Except Err Deque :=
  if d.free < 1 then .error .stackFull
  else .ok { d with rb := d.rb.set ((d.tail + d.cap - 1) % d.cap) e, tail := (d.tail + d.cap - 1) % d.cap }

/-- `pop_front()`: the entry and the deque left (40_deque.md R114). -/
def Deque.popFront (d : Deque) : Except Err (Entry × Deque) :=
  if d.count < 1 then .error .stackEmpty
  else .ok (d.slot ((d.head + d.cap - 1) % d.cap), { d with head := (d.head + d.cap - 1) % d.cap })

/-- `pop_back()`: the entry and the deque left (40_deque.md R115). -/
def Deque.popBack (d : Deque) : Except Err (Entry × Deque) :=
  if d.count < 1 then .error .stackEmpty
  else .ok (d.slot d.tail, { d with tail := (d.tail + 1) % d.cap })

/-- `peek_front()` (40_deque.md R116). -/
def Deque.peekFront (d : Deque) : Except Err Entry :=
  if d.count < 1 then .error .stackEmpty else .ok (d.slot ((d.head + d.cap - 1) % d.cap))

/-- `peek_back()` (40_deque.md R117). -/
def Deque.peekBack (d : Deque) : Except Err Entry :=
  if d.count < 1 then .error .stackEmpty else .ok (d.slot d.tail)

/-- `clear()` (40_deque.md R118). -/
def Deque.clear (d : Deque) : Deque := { d with head := 0, tail := 0 }

/-- The slot a logical index names, or IndexOutOfRange (40_deque.md R119). -/
def Deque.indexSlot (d : Deque) (i : Int) : Except Err Nat :=
  if 0 ≤ i then
    if (d.count : Int) ≤ i then .error .indexOutOfRange else .ok ((d.tail + i.toNat) % d.cap)
  else
    if (d.count : Int) < -i then .error .indexOutOfRange else .ok ((d.head + d.cap - (-i).toNat) % d.cap)

/-- Index get (40_deque.md R119). -/
def Deque.get (d : Deque) (i : Int) : Except Err Entry :=
  match d.indexSlot i with
  | .error x => .error x
  | .ok j => .ok (d.slot j)

/-- Index set (40_deque.md R120). -/
def Deque.set (d : Deque) (i : Int) (e : Entry) : Except Err Deque :=
  match d.indexSlot i with
  | .error x => .error x
  | .ok j => .ok { d with rb := d.rb.set j e }

/-- `D(k) = get(-k)`, the entry at depth `k` (40_deque.md R125). -/
def Deque.depth (d : Deque) (k : Int) : Except Err Entry := d.get (-k)

/-- `enumerate_fifo(n)` (40_deque.md R121). -/
def Deque.enumerateFifo (d : Deque) (n : Int) : List Entry :=
  (List.range (min n.toNat d.count)).map fun i => d.slot ((d.tail + i) % d.cap)

/-- `enumerate_lifo(n)` (40_deque.md R122). -/
def Deque.enumerateLifo (d : Deque) (n : Int) : List Entry :=
  (List.range (min n.toNat d.count)).map fun i => d.slot ((d.head + d.cap - 1 - i) % d.cap)

/-- `RB[(t + i) mod CAP] <- es[i]` for each `i` from `i0` up. -/
def Deque.writeFrom (cap t : Nat) : Nat → List Entry → List Entry → List Entry
  | _, [], rb => rb
  | i, e :: es, rb => Deque.writeFrom cap t (i + 1) es (rb.set ((t + i) % cap) e)

/-- `S <- es`, laid out from the slot `t`: TAIL at `t`, HEAD one past the last entry. CONVERT uses it with `t = 0`
(45_convert.md R270), EXTRACT with TAIL in place (44_stack.md R247; log 8). -/
def Deque.load (d : Deque) (t : Nat) (es : List Entry) : Deque :=
  { d with rb := Deque.writeFrom d.cap t 0 es d.rb, tail := t, head := (t + es.length) % d.cap }

/-- `push_front` of each entry in turn: how popped entries are restored (42_binary.md R160). -/
def Deque.pushAll (d : Deque) : List Entry → Except Err Deque
  | [] => .ok d
  | e :: es =>
    match d.pushFront e with
    | .error x => .error x
    | .ok d' => d'.pushAll es

/-- `pop_front` repeated `n` times, the entries dropped (44_stack.md R245). -/
def Deque.popTimes : Nat → Deque → Except Err Deque
  | 0, d => .ok d
  | n + 1, d =>
    match d.popFront with
    | .error x => .error x
    | .ok (_, d') => Deque.popTimes n d'

/-- `push_back(pop_front())` repeated `n` times: top to bottom (44_stack.md R246). -/
def Deque.topToBottom : Nat → Deque → Except Err Deque
  | 0, d => .ok d
  | n + 1, d =>
    match d.popFront with
    | .error x => .error x
    | .ok (e, d') =>
      match d'.pushBack e with
      | .error x => .error x
      | .ok d'' => Deque.topToBottom n d''

/-- `push_front(pop_back())` repeated `n` times: bottom to top (44_stack.md R246). -/
def Deque.bottomToTop : Nat → Deque → Except Err Deque
  | 0, d => .ok d
  | n + 1, d =>
    match d.popBack with
    | .error x => .error x
    | .ok (e, d') =>
      match d'.pushFront e with
      | .error x => .error x
      | .ok d'' => Deque.bottomToTop n d''

/-! ## Taking an error -/

/-- The STATUS codes (60_exceptions.md R310). -/
def errCode : Err → BitVec 4
  | .insufficientOperands => 1#4
  | .stackFull => 2#4
  | .stackEmpty => 3#4
  | .indexOutOfRange => 4#4
  | .divideByZero => 5#4
  | .invalidShiftAmount => 6#4
  | .invalidFormat => 7#4
  | .emptyInput => 8#4
  | .invalidOperation => 9#4
  | .unsupportedConversionType => 10#4
  | .arithmeticOverflow => 11#4
  | .illegalCommand => 12#4

/-- An error response: STATUS only (60_exceptions.md R314, 10_state.md R50). -/
def errorResponse (e : Err) : Response := { Response.blank with status := errCode e }

/-- `raise <Error>` in a state whose `(WIDTH, S)` are as before the command: the response is the error's, and nothing else
changes. There is no trap entry, nothing is saved and control goes nowhere (60_exceptions.md R312, R314, R316). There is no
return either: the block accepts the next command at once (R317). -/
def State.raise (s : State) (e : Err) : State := s.respond (errorResponse e)

/-- `raise <Error>` of a command that has popped entries: `d` is the deque left, and `es` go back on top in this order
before the error is reported (60_exceptions.md R314; 42_binary.md R160, 43_unary.md R220, 44_stack.md R240). The pushes
cannot fail, for their slots were just freed; if one did, the state before the command would stand. -/
def State.raiseRestoring (s : State) (d : Deque) (es : List Entry) (e : Err) : State :=
  match d.pushAll es with
  | .error _ => s.raise e
  | .ok d' => (s.withDeque d').raise e

/-! ## The host's moves -/

/-- The block accepts a command: it leaves the queue and stands on the command port (10_state.md R43, R45). -/
def State.accept (s : State) (c : Command) (rest : List HostMove) : State := (s.withInputs rest).withPort c

/-- The host asserts reset: the state of 70_reset_and_hazards.md R340, with the parameters and CAP as they are; the host's
later moves stay. -/
def State.afterReset (s : State) (rest : List HostMove) : State :=
  (State.resetWith s.dq.cap s.cfg).withInputs rest

/-- The bound of the host's that a command breaks, if any (93_implementation_defined.md U4). -/
def hostBreach (p : Params) (c : Command) : Option Refusal :=
  if c.textFits p then if c.commentsFit p then none else some .commentTooLong else some .textTooLong

end Sys2Proof.Machine
end

