-- ==== Sys2Proof/Machine/Binary.lean ====
section
/-! DEFINITION. The binary ALU commands (42_binary.md). Each ALU operation works on two words of the same width `n`; the
common sequence pops the operands, rolls back on an error and pushes the result. -/

namespace Sys2Proof.Machine

/-- What an ALU operation gives: a result word and ResultFlags, or an error (42_binary.md R160). -/
abbrev AluResult (n : Nat) := Except Err (BitVec n × Flags)

/-- `exec_binary(op)` (42_binary.md R160): `b` is the top entry and `a` the second. -/
def execBinary (op : (n : Nat) → BitVec n → BitVec n → AluResult n) (s : State) : Host.Outcome State Fault Refusal :=
  if s.dq.count < 2 then .next (s.raise .insufficientOperands)
  else
    match s.dq.popFront with
    | .error e => .next (s.raise e)
    | .ok (b, d1) =>
      match d1.popFront with
      | .error e => .next (s.raiseRestoring d1 [b] e)
      | .ok (a, d2) =>
        match op (widthBits s.width) (wordOf (widthBits s.width) a) (wordOf (widthBits s.width) b) with
        | .error e => .next (s.raiseRestoring d2 [a, b] e)
        | .ok (r, f) =>
          match d2.pushFront { val := slotValue r, cmt := a.cmt, alt := b.cmt } with
          | .error e => .next (s.raiseRestoring d2 [a, b] e)
          | .ok d3 => .next ((s.withDeque d3).respond { Response.blank with flags := flagBits f })

/-! ## Addition and subtraction -/

/-- `r <- wrap_bits(u(a) + u(b) + c)` with its flags (42_binary.md R166, R167). -/
def aluAdd (c : Bool) {n : Nat} (a b : BitVec n) : AluResult n :=
  let r := BitVec.ofNat n (a.toNat + b.toNat + c.toNat)
  .ok (r, { c := addCarryFlag c a r, v := addOverflowFlag a b r })

/-- `r <- wrap_bits(u(a) - u(b) - c)` with its flags (42_binary.md R168, R169). -/
def aluSub (c : Bool) {n : Nat} (a b : BitVec n) : AluResult n :=
  let r := BitVec.ofInt n ((a.toNat : Int) - b.toNat - c.toNat)
  .ok (r, { c := subBorrowFlag c a r, v := subOverflowFlag a b r })

/-- ADD: the effective carry is 0, whatever CIN holds (42_binary.md R161, R166). -/
def execAdd (_cin _pfc _pfv : Bool) (s : State) : Host.Outcome State Fault Refusal :=
  execBinary (fun _ a b => aluAdd false a b) s

/-- ADC (42_binary.md R167). -/
def execAdc (cin _pfc _pfv : Bool) (s : State) : Host.Outcome State Fault Refusal :=
  execBinary (fun _ a b => aluAdd cin a b) s

/-- SUB: the effective borrow is 0, whatever CIN holds (42_binary.md R161, R168). -/
def execSub (_cin _pfc _pfv : Bool) (s : State) : Host.Outcome State Fault Refusal :=
  execBinary (fun _ a b => aluSub false a b) s

/-- SBB (42_binary.md R169). -/
def execSbb (cin _pfc _pfv : Bool) (s : State) : Host.Outcome State Fault Refusal :=
  execBinary (fun _ a b => aluSub cin a b) s

/-! ## Multiplication -/

/-- MUL's operation (42_binary.md R172 to R174). -/
def aluMul {n : Nat} (a b : BitVec n) : AluResult n :=
  .ok (BitVec.ofInt n (a.toInt * b.toInt), { c := mulCarryFlag a b, v := mulOverflowFlag a b })

/-- MUL (42_binary.md R172). -/
def execMul (_cin _pfc _pfv : Bool) (s : State) : Host.Outcome State Fault Refusal :=
  execBinary (fun _ a b => aluMul a b) s

/-! ## Division and remainder -/

/-- DIVU's operation (42_binary.md R175, R176). -/
def aluDivu {n : Nat} (a b : BitVec n) : AluResult n :=
  if b.toNat = 0 then .error .divideByZero else .ok (BitVec.ofNat n (a.toNat / b.toNat), flagsClear)

/-- The signed division overflow case: MINS by -1 (42_binary.md R177). -/
def sdivOverflows {n : Nat} (a b : BitVec n) : Bool :=
  a.toInt == -(2 ^ (n - 1) : Int) && b.toInt == -1

/-- DIVS's operation: the quotient truncated toward zero (42_binary.md R175, R177 to R179). -/
def aluDivs (p : SdivOverflow) {n : Nat} (a b : BitVec n) : AluResult n :=
  if b.toNat = 0 then .error .divideByZero
  else if sdivOverflows a b then
    match p with
    | .fault => .error .arithmeticOverflow
    | .wrap => .ok (a, flagsClear)
  else .ok (BitVec.ofInt n (a.toInt.tdiv b.toInt), flagsClear)

/-- REM's operation: the remainder takes the dividend's sign (42_binary.md R175, R177, R178, R180). -/
def aluRem (p : SdivOverflow) {n : Nat} (a b : BitVec n) : AluResult n :=
  if b.toNat = 0 then .error .divideByZero
  else if sdivOverflows a b then
    match p with
    | .fault => .error .arithmeticOverflow
    | .wrap => .ok (0#n, flagsClear)
  else .ok (BitVec.ofInt n (a.toInt.tmod b.toInt), flagsClear)

/-- DIVU (42_binary.md R176). -/
def execDivu (_cin _pfc _pfv : Bool) (s : State) : Host.Outcome State Fault Refusal :=
  execBinary (fun _ a b => aluDivu a b) s

/-- DIVS (42_binary.md R179). -/
def execDivs (_cin _pfc _pfv : Bool) (s : State) : Host.Outcome State Fault Refusal :=
  execBinary (fun _ a b => aluDivs s.cfg.sdivOverflow a b) s

/-- REM (42_binary.md R180). -/
def execRem (_cin _pfc _pfv : Bool) (s : State) : Host.Outcome State Fault Refusal :=
  execBinary (fun _ a b => aluRem s.cfg.sdivOverflow a b) s

/-! ## Bitwise operations -/

/-- AND: the flags are the host's (42_binary.md R182, R183). -/
def execAnd (_cin pfc pfv : Bool) (s : State) : Host.Outcome State Fault Refusal :=
  execBinary (fun _ a b => .ok (a &&& b, { c := pfc, v := pfv })) s

/-- OR: the flags are the host's (42_binary.md R182, R184). -/
def execOr (_cin pfc pfv : Bool) (s : State) : Host.Outcome State Fault Refusal :=
  execBinary (fun _ a b => .ok (a ||| b, { c := pfc, v := pfv })) s

/-- XOR: the flags are the host's (42_binary.md R182, R185). -/
def execXor (_cin pfc pfv : Bool) (s : State) : Host.Outcome State Fault Refusal :=
  execBinary (fun _ a b => .ok (a ^^^ b, { c := pfc, v := pfv })) s

/-! ## Shifts -/

/-- What SHL, SHR and SAR share: the amount `s(b)` at full width, and the four cases of 42_binary.md R162 and R186. `move`
and `out` give the result and the last bit out for `1 <= amt <= n`. -/
def aluShift (prev : Flags) {n : Nat} (move : Nat → BitVec n) (out : Nat → Bool) (a b : BitVec n) : AluResult n :=
  if b.toInt < 0 then .error .invalidShiftAmount
  else if b.toInt = 0 then .ok (a, prev)
  else if (n : Int) < b.toInt then .ok (0#n, flagsClear)
  else .ok (move b.toInt.toNat, flagsBoth (out b.toInt.toNat))

/-- SHL's operation (42_binary.md R189). -/
def aluShl (prev : Flags) {n : Nat} (a b : BitVec n) : AluResult n :=
  aluShift prev (fun k => BitVec.ofNat n (a.toNat * 2 ^ k)) (lastOutLeft a) a b

/-- SHR's operation (42_binary.md R190). -/
def aluShr (prev : Flags) {n : Nat} (a b : BitVec n) : AluResult n :=
  aluShift prev (fun k => BitVec.ofNat n (a.toNat / 2 ^ k)) (lastOutRight a) a b

/-- SAR's operation, rounding toward minus infinity; above `n` the result is 0 as for the others (42_binary.md R188, R191). -/
def aluSar (prev : Flags) {n : Nat} (a b : BitVec n) : AluResult n :=
  aluShift prev (fun k => BitVec.ofInt n (a.toInt.fdiv (2 ^ k))) (lastOutRight a) a b

/-- SHL (42_binary.md R189). -/
def execShl (_cin pfc pfv : Bool) (s : State) : Host.Outcome State Fault Refusal :=
  execBinary (fun _ a b => aluShl { c := pfc, v := pfv } a b) s

/-- SHR (42_binary.md R190). -/
def execShr (_cin pfc pfv : Bool) (s : State) : Host.Outcome State Fault Refusal :=
  execBinary (fun _ a b => aluShr { c := pfc, v := pfv } a b) s

/-- SAR (42_binary.md R191). -/
def execSar (_cin pfc pfv : Bool) (s : State) : Host.Outcome State Fault Refusal :=
  execBinary (fun _ a b => aluSar { c := pfc, v := pfv } a b) s

/-! ## Rotates -/

/-- `x` rotated left by `k <= m` places in `m` bits (42_binary.md R194, R197). -/
def rotateUp {m : Nat} (x : BitVec m) (k : Nat) : BitVec m :=
  BitVec.ofNat m (x.toNat * 2 ^ k) ||| BitVec.ofNat m (x.toNat / 2 ^ (m - k))

/-- `x` rotated right by `k <= m` places in `m` bits (42_binary.md R195, R198). -/
def rotateDown {m : Nat} (x : BitVec m) (k : Nat) : BitVec m :=
  BitVec.ofNat m (x.toNat / 2 ^ k) ||| BitVec.ofNat m (x.toNat * 2 ^ (m - k))

/-- What the four rotates share: the amount `s(b)`, refused when negative, and `prev` for an amount of 0
(42_binary.md R162, R192). `turn` gives result and flag for a positive amount. -/
def aluRotate (prev : Flags) {n : Nat} (turn : Nat → BitVec n × Bool) (a b : BitVec n) : AluResult n :=
  if b.toInt < 0 then .error .invalidShiftAmount
  else if b.toInt = 0 then .ok (a, prev)
  else .ok ((turn b.toInt.toNat).1, flagsBoth (turn b.toInt.toNat).2)

/-- ROL's operation (42_binary.md R193, R194). -/
def aluRol (prev : Flags) {n : Nat} (a b : BitVec n) : AluResult n :=
  aluRotate prev (fun k => (rotateUp a (k % n), (rotateUp a (k % n)).getLsbD 0)) a b

/-- ROR's operation (42_binary.md R193, R195). -/
def aluRor (prev : Flags) {n : Nat} (a b : BitVec n) : AluResult n :=
  aluRotate prev (fun k => (rotateDown a (k % n), (rotateDown a (k % n)).getLsbD (n - 1))) a b

/-- The `(n+1)`-bit quantity `{c, a}` (42_binary.md R196). -/
def withCarry (c : Bool) {n : Nat} (a : BitVec n) : BitVec (n + 1) := BitVec.ofNat (n + 1) (c.toNat * 2 ^ n + a.toNat)

/-- The word and the carry of an `(n+1)`-bit quantity (42_binary.md R196). -/
def splitCarry {n : Nat} (x : BitVec (n + 1)) : BitVec n × Bool := (x.setWidth n, x.getLsbD n)

/-- RCL's operation (42_binary.md R193, R196, R197). -/
def aluRcl (c : Bool) (prev : Flags) {n : Nat} (a b : BitVec n) : AluResult n :=
  aluRotate prev (fun k => splitCarry (rotateUp (withCarry c a) (k % (n + 1)))) a b

/-- RCR's operation (42_binary.md R193, R196, R198). -/
def aluRcr (c : Bool) (prev : Flags) {n : Nat} (a b : BitVec n) : AluResult n :=
  aluRotate prev (fun k => splitCarry (rotateDown (withCarry c a) (k % (n + 1)))) a b

/-- ROL (42_binary.md R194). -/
def execRol (_cin pfc pfv : Bool) (s : State) : Host.Outcome State Fault Refusal :=
  execBinary (fun _ a b => aluRol { c := pfc, v := pfv } a b) s

/-- ROR (42_binary.md R195). -/
def execRor (_cin pfc pfv : Bool) (s : State) : Host.Outcome State Fault Refusal :=
  execBinary (fun _ a b => aluRor { c := pfc, v := pfv } a b) s

/-- RCL (42_binary.md R197). -/
def execRcl (cin pfc pfv : Bool) (s : State) : Host.Outcome State Fault Refusal :=
  execBinary (fun _ a b => aluRcl cin { c := pfc, v := pfv } a b) s

/-- RCR (42_binary.md R198). -/
def execRcr (cin pfc pfv : Bool) (s : State) : Host.Outcome State Fault Refusal :=
  execBinary (fun _ a b => aluRcr cin { c := pfc, v := pfv } a b) s

/-! ## Alignment -/

/-- `mask = wrap_bits(2^amt - 1)`, which is MAXU from `amt = n` on (42_binary.md R199). -/
def alignMask (n : Nat) (amt : Int) : BitVec n :=
  if (n : Int) ≤ amt then BitVec.allOnes n else BitVec.ofNat n (2 ^ amt.toNat - 1)

/-- ALIGNUP's operation (42_binary.md R162, R199 to R201). -/
def aluAlignup (prev : Flags) {n : Nat} (a b : BitVec n) : AluResult n :=
  if b.toInt < 0 then .error .invalidShiftAmount
  else .ok (BitVec.ofNat n (a.toNat + (alignMask n b.toInt).toNat) &&& ~~~alignMask n b.toInt, prev)

/-- ALIGNDN's operation (42_binary.md R162, R199, R200, R202). -/
def aluAligndn (prev : Flags) {n : Nat} (a b : BitVec n) : AluResult n :=
  if b.toInt < 0 then .error .invalidShiftAmount
  else .ok (a &&& ~~~alignMask n b.toInt, prev)

/-- ALIGNUP (42_binary.md R201). -/
def execAlignup (_cin pfc pfv : Bool) (s : State) : Host.Outcome State Fault Refusal :=
  execBinary (fun _ a b => aluAlignup { c := pfc, v := pfv } a b) s

/-- ALIGNDN (42_binary.md R202). -/
def execAligndn (_cin pfc pfv : Bool) (s : State) : Host.Outcome State Fault Refusal :=
  execBinary (fun _ a b => aluAligndn { c := pfc, v := pfv } a b) s

end Sys2Proof.Machine
end

