-- ==== Sys2Proof/Machine/Convert.lean ====
section
/-! DEFINITION. Width conversion: CONVERT (45_convert.md). -/

namespace Sys2Proof.Machine

/-- CONVERT: WIDTH and every live entry change together, the deque laid out again from slot 0 (45_convert.md R270 to R272,
20_memory.md R72). -/
def execConvert (wc : BitVec 3) (sx : Bool) (s : State) : Host.Outcome State Fault Refusal :=
  match widthOfCode wc with
  | none => .next (s.raise .unsupportedConversionType)
  | some w =>
    .next (((s.withDeque (s.dq.load 0 (s.dq.stack.map (convertEntry s.width sx w)))).withWidth w).respond Response.blank)

end Sys2Proof.Machine
end

