-- ==== Sys2Proof/Machine/Data.lean ====
section
/-! DEFINITION. The data and query commands: PUSH, PEEK, CLEAR, COUNT, WBYTES, GETITEMS (41_data.md). -/

namespace Sys2Proof.Machine

/-- PUSH (41_data.md R140, R143, R144). -/
def execPush (wc : BitVec 3) (sx : Bool) (s : State) : Host.Outcome State Fault Refusal :=
  match widthOfCode wc with
  | none => .next (s.raise .unsupportedConversionType)
  | some src =>
    match s.dq.pushFront
        { val := slotValue (pushValue src sx s.port.data (widthBits s.width)), cmt := s.port.cmt0, alt := s.port.cmt1 } with
    | .error e => .next (s.raise e)
    | .ok d => .next ((s.withDeque d).respond Response.blank)

/-- PEEK (41_data.md R141). -/
def execPeek (s : State) : Host.Outcome State Fault Refusal :=
  if s.dq.count < 1 then .next (s.raise .insufficientOperands)
  else
    match s.dq.depth 1 with
    | .error e => .next (s.raise e)
    | .ok t =>
      .next (s.respond
        { Response.blank with rval := slotValue (wordOf (widthBits s.width) t), rcmt0 := t.cmt, rcmt1 := t.alt })

/-- CLEAR (41_data.md R142). -/
def execClear (s : State) : Host.Outcome State Fault Refusal :=
  .next ((s.withDeque s.dq.clear).respond Response.blank)

/-- A count as RCOUNT carries it: 32 bits (10_state.md R44). Above its range the spec states no result, and the value is
free (log 12). -/
def countField (n : Nat) : BitVec 32 := if n < 2 ^ 32 then BitVec.ofNat 32 n else Config.wideCount n

/-- COUNT (41_data.md R146). -/
def execCount (s : State) : Host.Outcome State Fault Refusal :=
  .next (s.respond { Response.blank with rcount := countField s.dq.count })

/-- WBYTES (41_data.md R147). -/
def execWbytes (s : State) : Host.Outcome State Fault Refusal :=
  .next (s.respond { Response.blank with rcount := BitVec.ofNat 32 (widthBytes s.width) })

/-- GETITEMS (41_data.md R148, R149). -/
def execGetitems (s : State) : Host.Outcome State Fault Refusal :=
  .next (s.respond
    { Response.blank with items := (s.dq.enumerateLifo (dataIndex s.port.data)).map (itemOf s.width) })

end Sys2Proof.Machine
end

