-- ==== Sys2Proof/Machine/Parse.lean ====
section
/-! DEFINITION. The literal parser: PARSE (46_parse.md). The numbers in the docstrings are the steps of 46_parse.md R282. -/

namespace Sys2Proof.Machine

/-- The byte of an ASCII character (46_parse.md, its opening paragraph). -/
def ascii (c : Char) : Byte := BitVec.ofNat 8 c.toNat

/-- The whitespace bytes of trimming: `0x09` to `0x0D` and `0x20` (46_parse.md R281). -/
def isWhitespace (ch : Byte) : Bool :=
  (decide (0x09 ≤ ch.toNat) && decide (ch.toNat ≤ 0x0D)) || ch == 0x20#8

/-- `trim(x)` (46_parse.md R281). -/
def trim (x : Bytes) : Bytes := ((x.dropWhile isWhitespace).reverse.dropWhile isWhitespace).reverse

/-- `lower(ch)` (46_parse.md R281). -/
def lower (ch : Byte) : Byte :=
  if 0x41 ≤ ch.toNat ∧ ch.toNat ≤ 0x5A then BitVec.ofNat 8 (ch.toNat + 0x20) else ch

/-- The separators `;` and `:` (46_parse.md R282). -/
def isSeparator (ch : Byte) : Bool := ch == ascii ';' || ch == ascii ':'

/-- Step 2: the token, the comment and the marker (46_parse.md R282, R284). -/
def splitEntry (t : Bytes) : Bytes × Comment × Byte :=
  match t.findIdx? isSeparator with
  | none => (t, none, 0x00#8)
  | some p => (t.take p, some (trim (t.drop (p + 1))), t.getD p 0x00#8)

/-- Step 3: every `0x20` deleted (46_parse.md R285). -/
def dropSpaces (tok : Bytes) : Bytes := tok.filter fun ch => !(ch == 0x20#8)

/-- Step 5: one leading `-` taken off (46_parse.md R287). -/
def takeSign (tok : Bytes) : Bool × Bytes :=
  match tok with
  | [] => (false, [])
  | ch :: rest => if ch == ascii '-' then (true, rest) else (false, ch :: rest)

/-- The radix a two-character prefix names, both characters in lower case (46_parse.md R282, R288). -/
def radixOfPair (fmt : Radix) (c0 c1 : Byte) : Option Nat :=
  if c0 == ascii '0' then
    if c1 == ascii 'x' || c1 == ascii 'h' then some 16
    else if c1 == ascii 'n' then some 10
    else if c1 == ascii 'o' || c1 == ascii 't' then some 8
    else if c1 == ascii 'y' then some 2
    else if c1 == ascii 'b' && !(fmt == .hexadecimal) then some 2
    else none
  else none

/-- Step 6: a prefix, tried on tokens longer than 2 (46_parse.md R288). -/
def leadingRadix (fmt : Radix) (tok : Bytes) : Option (Nat × Bytes) :=
  if 2 < tok.length then
    match radixOfPair fmt (lower (tok.getD 0 0#8)) (lower (tok.getD 1 0#8)) with
    | some r => some (r, tok.drop 2)
    | none => none
  else none

/-- The radix a suffix letter names, in lower case (46_parse.md R282, R289). -/
def radixOfLetter (c : Byte) : Option Nat :=
  if c == ascii 'x' || c == ascii 'h' then some 16
  else if c == ascii 'n' then some 10
  else if c == ascii 'o' || c == ascii 't' then some 8
  else if c == ascii 'y' then some 2
  else none

/-- Step 7: a suffix letter (46_parse.md R289). -/
def trailingRadix (tok : Bytes) : Option (Nat × Bytes) :=
  match tok.getLast? with
  | none => none
  | some ch =>
    match radixOfLetter (lower ch) with
    | some r => some (r, tok.take (tok.length - 1))
    | none => none

/-- The radix of a default format (46_parse.md R282). -/
def radixValue : Radix → Nat
  | .hexadecimal => 16
  | .decimal => 10
  | .octal => 8
  | .binary => 2

/-- Steps 6 to 8: the radix and the digits, a prefix before a suffix before the default (46_parse.md R282, R289). -/
def chooseRadix (fmt : Radix) (tok : Bytes) : Nat × Bytes :=
  match leadingRadix fmt tok with
  | some r => r
  | none =>
    match trailingRadix tok with
    | some r => r
    | none => (radixValue fmt, tok)

/-- The value of a digit character of any radix up to 16 (46_parse.md R290). -/
def digitOf (ch : Byte) : Option Nat :=
  if 0x30 ≤ ch.toNat ∧ ch.toNat ≤ 0x39 then some (ch.toNat - 0x30)
  else if 0x61 ≤ ch.toNat ∧ ch.toNat ≤ 0x66 then some (ch.toNat - 0x61 + 10)
  else if 0x41 ≤ ch.toNat ∧ ch.toNat ≤ 0x46 then some (ch.toNat - 0x41 + 10)
  else none

/-- The digits of a token, or `none` when a byte is no digit of the radix (46_parse.md R290). -/
def digitsOf (radix : Nat) : Bytes → Option (List Nat)
  | [] => some []
  | ch :: rest =>
    match digitOf ch with
    | none => none
    | some d =>
      if d < radix then
        match digitsOf radix rest with
        | none => none
        | some ds => some (d :: ds)
      else none

/-- The exact value of a digit list, most significant digit first (46_parse.md R290). -/
def exactValue (radix : Nat) (ds : List Nat) : Nat := ds.foldl (fun m d => m * radix + d) 0

/-- The octal recurrence in 128 bits (46_parse.md R290, R291). -/
def octalValue (ds : List Nat) : Nat := ds.foldl (fun m d => (m * 8 + d) % 2 ^ 128) 0

/-- Step 9: `Magnitude(tok, radix)` (46_parse.md R290, R291). -/
def magnitude (radix : Nat) (tok : Bytes) : Except Err Nat :=
  match tok with
  | [] => .error .invalidFormat
  | ch :: rest =>
    match digitsOf radix (ch :: rest) with
    | none => .error .invalidFormat
    | some ds =>
      if radix = 8 then .ok (octalValue ds)
      else if 2 ^ 128 - 1 < exactValue radix ds then .error .invalidFormat
      else .ok (exactValue radix ds)

/-- Steps 5 to 10 on a token: the value at `n` bits (46_parse.md R282, R292). -/
def parseToken (n : Nat) (fmt : Radix) (tok : Bytes) : Except Err (BitVec n) :=
  match magnitude (chooseRadix fmt (takeSign tok).2).1 (chooseRadix fmt (takeSign tok).2).2 with
  | .error x => .error x
  | .ok m =>
    .ok ((BitVec.ofInt 128 (if (takeSign tok).1 then -(m : Int) else m)).setWidth n)

/-- `ParseEntry(T, fmt)` (46_parse.md R282): nothing for blank input, or the value, the comment and the marker. -/
def parseEntry (n : Nat) (fmt : Radix) (text : Bytes) : Except Err (Option (BitVec n × Comment × Byte)) :=
  match trim text with
  | [] => .ok none
  | ch :: rest =>
    if dropSpaces (splitEntry (ch :: rest)).1 = [] ∧ (splitEntry (ch :: rest)).2.1 ≠ none then .error .emptyInput
    else
      match parseToken n fmt (dropSpaces (splitEntry (ch :: rest)).1) with
      | .error x => .error x
      | .ok v => .ok (some (v, (splitEntry (ch :: rest)).2))

/-- PARSE: the stack and WIDTH never change (46_parse.md R280, R293, R296). -/
def execParse (fmt : Radix) (s : State) : Host.Outcome State Fault Refusal :=
  match parseEntry (widthBits s.width) fmt s.port.text with
  | .error e => .next (s.raise e)
  | .ok none => .next (s.respond Response.blank)
  | .ok (some (v, cm, mk)) =>
    .next (s.respond { Response.blank with rpresent := true, rval := slotValue v, rcmt0 := cm, marker := mk })

end Sys2Proof.Machine
end

