-- ==== Sys2Proof/Machine/Stack.lean ====
section
/-! DEFINITION. The stack commands (44_stack.md). Each operation takes the index, the popped index entry (`none` with an
explicit index) and the deque after any pop; the common sequence reads the index and rolls back on an error. -/

namespace Sys2Proof.Machine

/-- An operation of a stack command: `STK_op(idx, arg, c)` over the deque, whose count is `c` (44_stack.md R240, R243). -/
abbrev StackOp := Int → Option Entry → Deque → Except Err Deque

/-- `exec_stack(op)` (44_stack.md R240). -/
def execStack (op : StackOp) (xi : Bool) (s : State) : Host.Outcome State Fault Refusal :=
  if s.dq.count < 1 then .next (s.raise .insufficientOperands)
  else
    match xi with
    | true =>
      match op (dataIndex s.port.data) none s.dq with
      | .error e => .next (s.raise e)
      | .ok d => .next ((s.withDeque d).respond Response.blank)
    | false =>
      match s.dq.popFront with
      | .error e => .next (s.raise e)
      | .ok (arg, d1) =>
        match op (nativeIndex (wordOf (widthBits s.width) arg)) (some arg) d1 with
        | .error e => .next (s.raiseRestoring d1 [arg] e)
        | .ok d => .next ((s.withDeque d).respond Response.blank)

/-- DROP's operation (44_stack.md R245). -/
def stkDrop (n : Int) (_arg : Option Entry) (d : Deque) : Except Err Deque :=
  Deque.popTimes (min n.toNat d.count) d

/-- ROLL's operation (44_stack.md R246). The moves are counted modulo the number of entries, which R253 shows to be the same
roll (log 7). -/
def stkRoll (n : Int) (_arg : Option Entry) (d : Deque) : Except Err Deque :=
  if d.count < 2 then .ok d
  else if 0 < n then Deque.topToBottom (n.natAbs % d.count) d
  else if n < 0 then Deque.bottomToTop (n.natAbs % d.count) d
  else .ok d

/-- EXTRACT's operation: entry `D(k)` leaves its place and becomes the top (44_stack.md R247). `s_(c-k)` is `D(k)`. -/
def stkExtract (k : Int) (_arg : Option Entry) (d : Deque) : Except Err Deque :=
  if k ≤ 1 then .ok d
  else if (d.count : Int) < k then .error .indexOutOfRange
  else
    match d.depth k with
    | .error x => .error x
    | .ok e => .ok (d.load d.tail (d.stack.eraseIdx (d.count - k.toNat) ++ [e]))

/-- SWAP's operation (44_stack.md R248). -/
def stkSwap (k : Int) (_arg : Option Entry) (d : Deque) : Except Err Deque :=
  if k ≤ 1 then .ok d
  else if (d.count : Int) < k then .error .indexOutOfRange
  else
    match d.depth 1, d.depth k with
    | .error x, _ => .error x
    | _, .error x => .error x
    | .ok t, .ok e =>
      match d.set (-1) e with
      | .error x => .error x
      | .ok d' => d'.set (-k) t

/-- The index test of PICK, SETCMT and SWAPCMT: `k` in `[1, c]` (44_stack.md R249, R251, R252). -/
def inDepth (k : Int) (d : Deque) : Bool := decide (1 ≤ k) && decide (k ≤ (d.count : Int))

/-- PICK's operation: the index first, then the room (44_stack.md R249, R250). -/
def stkPick (k : Int) (_arg : Option Entry) (d : Deque) : Except Err Deque :=
  if inDepth k d then
    if d.free < 1 then .error .stackFull
    else
      match d.depth k with
      | .error x => .error x
      | .ok e => d.pushFront { val := e.val, cmt := none, alt := none }
  else .error .indexOutOfRange

/-- SETCMT's operation: the popped index entry's comment becomes the target's, the old comment its alternate one
(44_stack.md R251). -/
def stkSetcmt (k : Int) (arg : Option Entry) (d : Deque) : Except Err Deque :=
  match arg with
  | none => .error .invalidOperation
  | some g =>
    if inDepth k d then
      match d.depth k with
      | .error x => .error x
      | .ok t => d.set (-k) { val := t.val, cmt := g.cmt, alt := t.cmt }
    else .error .indexOutOfRange

/-- SWAPCMT's operation (44_stack.md R252). -/
def stkSwapcmt (k : Int) (_arg : Option Entry) (d : Deque) : Except Err Deque :=
  if inDepth k d then
    match d.depth k with
    | .error x => .error x
    | .ok t => d.set (-k) { val := t.val, cmt := t.alt, alt := t.cmt }
  else .error .indexOutOfRange

/-- DROP (44_stack.md R245). -/
def execDrop (xi : Bool) (s : State) : Host.Outcome State Fault Refusal := execStack stkDrop xi s

/-- ROLL (44_stack.md R246). -/
def execRoll (xi : Bool) (s : State) : Host.Outcome State Fault Refusal := execStack stkRoll xi s

/-- EXTRACT (44_stack.md R247). -/
def execExtract (xi : Bool) (s : State) : Host.Outcome State Fault Refusal := execStack stkExtract xi s

/-- SWAP (44_stack.md R248). -/
def execSwap (xi : Bool) (s : State) : Host.Outcome State Fault Refusal := execStack stkSwap xi s

/-- PICK (44_stack.md R249). -/
def execPick (xi : Bool) (s : State) : Host.Outcome State Fault Refusal := execStack stkPick xi s

/-- SETCMT (44_stack.md R251). -/
def execSetcmt (xi : Bool) (s : State) : Host.Outcome State Fault Refusal := execStack stkSetcmt xi s

/-- SWAPCMT (44_stack.md R252). -/
def execSwapcmt (xi : Bool) (s : State) : Host.Outcome State Fault Refusal := execStack stkSwapcmt xi s

end Sys2Proof.Machine
end

