-- ==== Sys2Proof/Machine/Unary.lean ====
section
/-! DEFINITION. The unary ALU commands (43_unary.md). Each operation works on one word of width `n`; the common sequence pops
the operand, rolls back on an error and pushes the result with the operand's comments. -/

namespace Sys2Proof.Machine

/-- `exec_unary(op)` (43_unary.md R220). -/
def execUnary (op : (n : Nat) → BitVec n → Except Err (BitVec n)) (s : State) : Host.Outcome State Fault Refusal :=
  if s.dq.count < 1 then .next (s.raise .insufficientOperands)
  else
    match s.dq.popFront with
    | .error e => .next (s.raise e)
    | .ok (x, d1) =>
      match op (widthBits s.width) (wordOf (widthBits s.width) x) with
      | .error e => .next (s.raiseRestoring d1 [x] e)
      | .ok r =>
        match d1.pushFront { val := slotValue r, cmt := x.cmt, alt := x.alt } with
        | .error e => .next (s.raiseRestoring d1 [x] e)
        | .ok d2 => .next ((s.withDeque d2).respond Response.blank)

/-- MASKL's operation: `n` ones at the high end (43_unary.md R223). -/
def unaryMaskl {n : Nat} (x : BitVec n) : Except Err (BitVec n) :=
  if x.toInt < 0 ∨ (n : Int) < x.toInt then .error .invalidShiftAmount
  else .ok (BitVec.ofNat n ((2 ^ x.toInt.toNat - 1) * 2 ^ (n - x.toInt.toNat)))

/-- MASKR's operation: `n` ones at the low end (43_unary.md R224). -/
def unaryMaskr {n : Nat} (x : BitVec n) : Except Err (BitVec n) :=
  if x.toInt < 0 ∨ (n : Int) < x.toInt then .error .invalidShiftAmount
  else .ok (BitVec.ofNat n (2 ^ x.toInt.toNat - 1))

/-- POPCNT's operation: the number of bits that are 1 (43_unary.md R225). -/
def unaryPopcnt {n : Nat} (x : BitVec n) : BitVec n := BitVec.ofNat n (setBits x).length

/-- CLZ's operation: `bits - 1 -` the highest bit that is 1, or `bits` for 0 (43_unary.md R226). -/
def unaryClz {n : Nat} (x : BitVec n) : BitVec n :=
  match (setBits x).getLast? with
  | some i => BitVec.ofNat n (n - 1 - i)
  | none => BitVec.ofNat n n

/-- CTZ's operation: the lowest bit that is 1, or `bits` for 0 (43_unary.md R227). -/
def unaryCtz {n : Nat} (x : BitVec n) : BitVec n :=
  match (setBits x).head? with
  | some i => BitVec.ofNat n i
  | none => BitVec.ofNat n n

/-- POW2's operation: `wrap_bits(2^n)`, which is 0 from `n = bits` on (43_unary.md R228). -/
def unaryPow2 {n : Nat} (x : BitVec n) : Except Err (BitVec n) :=
  if x.toInt < 0 then .error .invalidShiftAmount
  else .ok (if (n : Int) ≤ x.toInt then 0#n else BitVec.ofNat n (2 ^ x.toInt.toNat))

/-- NOT (43_unary.md R222). -/
def execNot (s : State) : Host.Outcome State Fault Refusal := execUnary (fun _ x => .ok (~~~x)) s

/-- MASKL (43_unary.md R223). -/
def execMaskl (s : State) : Host.Outcome State Fault Refusal := execUnary (fun _ x => unaryMaskl x) s

/-- MASKR (43_unary.md R224). -/
def execMaskr (s : State) : Host.Outcome State Fault Refusal := execUnary (fun _ x => unaryMaskr x) s

/-- POPCNT (43_unary.md R225). -/
def execPopcnt (s : State) : Host.Outcome State Fault Refusal := execUnary (fun _ x => .ok (unaryPopcnt x)) s

/-- CLZ (43_unary.md R226). -/
def execClz (s : State) : Host.Outcome State Fault Refusal := execUnary (fun _ x => .ok (unaryClz x)) s

/-- CTZ (43_unary.md R227). -/
def execCtz (s : State) : Host.Outcome State Fault Refusal := execUnary (fun _ x => .ok (unaryCtz x)) s

/-- POW2 (43_unary.md R228). -/
def execPow2 (s : State) : Host.Outcome State Fault Refusal := execUnary (fun _ x => unaryPow2 x) s

end Sys2Proof.Machine
end

