-- ==== Sys2Proof/Machine/Dispatch.lean ====
section
/-! DEFINITION. One arm per command, each one call of its meaning. -/

namespace Sys2Proof.Machine

/-- The meaning of each of the 42 commands (spec/opcode_table.json), on a state whose command port holds the side fields. -/
def exec (i : Instr) (s : State) : Host.Outcome State Fault Refusal :=
  match i with
  | .push wc sx => Sys2Proof.Machine.execPush wc sx s
  | .peek => Sys2Proof.Machine.execPeek s
  | .clear => Sys2Proof.Machine.execClear s
  | .count => Sys2Proof.Machine.execCount s
  | .wbytes => Sys2Proof.Machine.execWbytes s
  | .getitems => Sys2Proof.Machine.execGetitems s
  | .convert wc sx => Sys2Proof.Machine.execConvert wc sx s
  | .parse fmt => Sys2Proof.Machine.execParse fmt s
  | .add cin pfc pfv => Sys2Proof.Machine.execAdd cin pfc pfv s
  | .adc cin pfc pfv => Sys2Proof.Machine.execAdc cin pfc pfv s
  | .sub cin pfc pfv => Sys2Proof.Machine.execSub cin pfc pfv s
  | .sbb cin pfc pfv => Sys2Proof.Machine.execSbb cin pfc pfv s
  | .mul cin pfc pfv => Sys2Proof.Machine.execMul cin pfc pfv s
  | .divu cin pfc pfv => Sys2Proof.Machine.execDivu cin pfc pfv s
  | .divs cin pfc pfv => Sys2Proof.Machine.execDivs cin pfc pfv s
  | .rem cin pfc pfv => Sys2Proof.Machine.execRem cin pfc pfv s
  | .and cin pfc pfv => Sys2Proof.Machine.execAnd cin pfc pfv s
  | .or cin pfc pfv => Sys2Proof.Machine.execOr cin pfc pfv s
  | .xor cin pfc pfv => Sys2Proof.Machine.execXor cin pfc pfv s
  | .shl cin pfc pfv => Sys2Proof.Machine.execShl cin pfc pfv s
  | .shr cin pfc pfv => Sys2Proof.Machine.execShr cin pfc pfv s
  | .sar cin pfc pfv => Sys2Proof.Machine.execSar cin pfc pfv s
  | .rol cin pfc pfv => Sys2Proof.Machine.execRol cin pfc pfv s
  | .ror cin pfc pfv => Sys2Proof.Machine.execRor cin pfc pfv s
  | .rcl cin pfc pfv => Sys2Proof.Machine.execRcl cin pfc pfv s
  | .rcr cin pfc pfv => Sys2Proof.Machine.execRcr cin pfc pfv s
  | .alignup cin pfc pfv => Sys2Proof.Machine.execAlignup cin pfc pfv s
  | .aligndn cin pfc pfv => Sys2Proof.Machine.execAligndn cin pfc pfv s
  | .not => Sys2Proof.Machine.execNot s
  | .maskl => Sys2Proof.Machine.execMaskl s
  | .maskr => Sys2Proof.Machine.execMaskr s
  | .popcnt => Sys2Proof.Machine.execPopcnt s
  | .clz => Sys2Proof.Machine.execClz s
  | .ctz => Sys2Proof.Machine.execCtz s
  | .pow2 => Sys2Proof.Machine.execPow2 s
  | .drop xi => Sys2Proof.Machine.execDrop xi s
  | .roll xi => Sys2Proof.Machine.execRoll xi s
  | .extract xi => Sys2Proof.Machine.execExtract xi s
  | .swap xi => Sys2Proof.Machine.execSwap xi s
  | .pick xi => Sys2Proof.Machine.execPick xi s
  | .setcmt xi => Sys2Proof.Machine.execSetcmt xi s
  | .swapcmt xi => Sys2Proof.Machine.execSwapcmt xi s

end Sys2Proof.Machine
end

