-- ==== Sys2Proof/Machine/Step.lean ====
section
/-! DEFINITION. One step of the machine: the host's next move, taken whole (10_state.md R45, 20_memory.md R66, R67). -/

namespace Sys2Proof.Machine

/-- The block executes the word on its command port: an illegal word raises IllegalCommand (30_encoding.md R87, R94, R95),
any other is decoded and executed by its rule. -/
def runPort (s : State) : Host.Outcome State Fault Refusal :=
  match decode s.port.cmd with
  | .error _ => .next (s.raise .illegalCommand)
  | .ok i => exec i s

/-- One step: with no move pending the block holds its state (60_exceptions.md R327); a reset gives the state after reset
(70_reset_and_hazards.md R340); a command is accepted and executed to completion, unless it breaks a bound the host must
keep (93_implementation_defined.md U4). -/
def step (s : State) : Host.Outcome State Fault Refusal :=
  match s.inputs with
  | [] => .next s
  | .reset :: rest => .next (s.afterReset rest)
  | .command c :: rest =>
    match hostBreach s.cfg c with
    | some r => .refused r
    | none => runPort (s.accept c rest)

/-- The side fields of the command the host presents next, or of a blank port when the next move is no command. -/
def State.nextCommand (s : State) : Command :=
  match s.inputs with
  | .command c :: _ => c
  | _ => Command.blank

/-- The state in which the host's next move is the command of the word `w` (its low `nbits` bits), with the side fields of
the command that stood there, or blank ones, and the host's later moves as they were (log 9). -/
def State.withFetchWord (s : State) (nbits w : Nat) : State :=
  s.withInputs (.command { s.nextCommand with cmd := BitVec.ofNat 32 (w % 2 ^ nbits) } :: s.inputs.tail)

end Sys2Proof.Machine
end

