-- ==== Sys2Proof/Safety.lean ====
section
/-! DEFINITION. The terms the statements use: the invariant of the state, the frame, how a command completes or fails, how a
word is read, and what the host must keep. None of them is used by the machine. -/

namespace Sys2Proof.Machine

/-! ## States -/

/-- Every live entry's value lies in the word width: the bits at and above `bits` are zero (10_state.md R38). -/
abbrev State.valuesFit (s : State) : Prop := ∀ e ∈ s.dq.stack, e.val.toNat < 2 ^ widthBits s.width

/-- What holds of every reachable state: the ring buffer has its form (10_state.md R32 to R34) and every live value lies in
the word width (R38). -/
abbrev State.Inv (s : State) : Prop := s.dq.wf ∧ s.valuesFit

/-- The frame of every command: the parameters, CAP, the host's later moves and the command port are the same in both
states. WIDTH, the stack and the response are said by the statements themselves. -/
abbrev State.sameSetting (s t : State) : Prop :=
  t.cfg = s.cfg ∧ t.dq.cap = s.dq.cap ∧ t.inputs = s.inputs ∧ t.port = s.port

/-- Two states no command can tell apart (10_state.md R37): the same WIDTH, logical stack, capacity and parameters, the same
command on the port and the same host moves to come. Cursors and slots outside the live range may differ. -/
abbrev State.agrees (s t : State) : Prop :=
  s.width = t.width ∧ s.dq.stack = t.dq.stack ∧ s.dq.cap = t.dq.cap ∧ s.cfg = t.cfg ∧ s.port = t.port ∧ s.inputs = t.inputs

/-- Every command the host has yet to present keeps TEXT_MAX and COMMENT_MAX (00_scope.md R8, 93_implementation_defined.md
U4). -/
abbrev State.hostKeepsBounds (s : State) : Prop := ∀ c : Command, HostMove.command c ∈ s.inputs → c.wf s.cfg = true

/-! ## Outcomes -/

/-- The command `i` runs in `s` and answers a next state with this WIDTH, this logical stack and this response, everything
else as before. The storage is read through the logical stack: the cursors' absolute values and the slots outside the live
range are hidden (10_state.md R37, R40). -/
def Completes (i : Instr) (s : State) (w : Width) (S : List Entry) (r : Response) : Prop :=
  ∃ t, exec i s = .next t ∧ t.dq.wf ∧ t.width = w ∧ t.dq.stack = S ∧ t.resp = r ∧ s.sameSetting t

/-- The command `i` runs in `s` and answers `s` itself but for the response `r`. -/
def Answers (i : Instr) (s : State) (r : Response) : Prop := exec i s = .next { s with resp := r }

/-- The command `i` fails in `s` with this STATUS code: the next state is `s` itself, cursors and slots included, but for
the response, whose every field but STATUS is blank (60_exceptions.md R314). -/
def FailsWith (i : Instr) (s : State) (status : BitVec 4) : Prop :=
  Answers i s { Response.blank with status := status }

/-! ## Words -/

/-- `u(e.val)` at the current width (00_scope.md R12). -/
abbrev State.uval (s : State) (e : Entry) : Nat := e.val.toNat % 2 ^ widthBits s.width

/-- `s(e.val)` at the current width (00_scope.md R12). -/
abbrev State.sval (s : State) (e : Entry) : Int :=
  if s.uval e < 2 ^ (widthBits s.width - 1) then (s.uval e : Int) else (s.uval e : Int) - 2 ^ widthBits s.width

/-- Bit `i` of a word, for `i` below the current width. -/
abbrev bitOf (e : Entry) (i : Nat) : Bool := e.val.getLsbD i

/-- `zext_128(wrap_n(z))` (00_scope.md R12). -/
def wrapped (n : Nat) (z : Int) : BitVec 128 := BitVec.ofNat 128 (z % 2 ^ n).toNat

/-- `Conv(v, k, sx, n)` on the unsigned value `v` of `k` bits (00_scope.md R16). -/
def castValue (k n : Nat) (sx : Bool) (v : Nat) : Nat :=
  if n ≤ k then v % 2 ^ n else if sx && 2 ^ (k - 1) ≤ v then v + (2 ^ n - 2 ^ k) else v

/-- `s(trunc_32(x))` of an unsigned value (30_encoding.md R96, 44_stack.md R241). -/
def native32 (x : Nat) : Int := if x % 2 ^ 32 < 2 ^ 31 then ((x % 2 ^ 32 : Nat) : Int) else ((x % 2 ^ 32 : Nat) : Int) - 2 ^ 32

/-- The exact integer `z` lies outside `[MINS, MAXS]` of `n` bits (42_binary.md R171, R172). -/
def outOfRange (n : Nat) (z : Int) : Bool := decide (z < -2 ^ (n - 1)) || decide (2 ^ (n - 1) ≤ z)

/-- The entry a binary command leaves: the result with `a`'s comment, and `b`'s as the alternate one (42_binary.md R163). -/
def resultEntry (v : BitVec 128) (a b : Entry) : Entry := { val := v, cmt := a.cmt, alt := b.cmt }

/-- The response of a successful binary command: FLAGS, bit 0 = C and bit 1 = V (10_state.md R41), the rest blank. -/
def flagsResponse (c v : Bool) : Response :=
  { Response.blank with flags := BitVec.ofNat 2 (c.toNat + 2 * v.toNat) }

/-! ## Encodings, as the tables of 30_encoding.md list them -/

/-- The opcodes 30_encoding.md R90 to R93 assign. -/
def opcodeAssigned (o : Nat) : Bool :=
  (decide (0x01 ≤ o) && decide (o ≤ 0x08)) || (decide (0x20 ≤ o) && decide (o ≤ 0x33)) ||
    (decide (0x40 ≤ o) && decide (o ≤ 0x46)) || (decide (0x60 ≤ o) && decide (o ≤ 0x66))

/-- The `allowed` mask of an assigned opcode (30_encoding.md R89 to R93). -/
def opcodeMask (o : Nat) : BitVec 32 :=
  if o = 0x01 ∨ o = 0x07 then 0x0000F000#32
  else if o = 0x08 then 0x00030000#32
  else if 0x20 ≤ o ∧ o ≤ 0x33 then 0x00000700#32
  else if 0x60 ≤ o ∧ o ≤ 0x66 then 0x00000800#32
  else 0x00000000#32

/-- The binary commands (30_encoding.md R91). -/
def isBinaryCommand (i : Instr) : Bool := decide (0x20 ≤ i.opcode.toNat) && decide (i.opcode.toNat ≤ 0x33)

/-- The unary commands (30_encoding.md R92). -/
def isUnaryCommand (i : Instr) : Bool := decide (0x40 ≤ i.opcode.toNat) && decide (i.opcode.toNat ≤ 0x46)

/-- The stack commands (30_encoding.md R93). -/
def isStackCommand (i : Instr) : Bool := decide (0x60 ≤ i.opcode.toNat) && decide (i.opcode.toNat ≤ 0x66)

/-! ## Stack commands -/

/-- How a stack command reads its index (44_stack.md R240, R241, R243): `S` is the stack after any pop, `idx` the index, and
`arg` the popped index entry. With XI = 1 the index is DATA's and the stack must not be empty; with XI = 0 it is the top
entry's signed value, truncated to 32 bits. -/
def IndexedBy (xi : Bool) (s : State) (S : List Entry) (idx : Int) (arg : Option Entry) : Prop :=
  match xi with
  | true => s.dq.stack = S ∧ S ≠ [] ∧ idx = native32 s.port.data.toNat ∧ arg = none
  | false => ∃ g, s.dq.stack = S ++ [g] ∧ idx = native32 (s.sval g % 2 ^ 32).toNat ∧ arg = some g

/-! ## Deque sequences -/

/-- `pop_front` `n` times: the entries in the order they came, and the deque left. -/
def popFronts : Nat → Deque → Except Err (List Entry × Deque)
  | 0, d => .ok ([], d)
  | n + 1, d =>
    match d.popFront with
    | .error x => .error x
    | .ok (e, d') =>
      match popFronts n d' with
      | .error x => .error x
      | .ok (es, d'') => .ok (e :: es, d'')

/-- `pop_back` `n` times: the entries in the order they came, and the deque left. -/
def popBacks : Nat → Deque → Except Err (List Entry × Deque)
  | 0, d => .ok ([], d)
  | n + 1, d =>
    match d.popBack with
    | .error x => .error x
    | .ok (e, d') =>
      match popBacks n d' with
      | .error x => .error x
      | .ok (es, d'') => .ok (e :: es, d'')

/-- `push_back` of each entry in turn. -/
def pushBacks (d : Deque) : List Entry → Except Err Deque
  | [] => .ok d
  | e :: es =>
    match d.pushBack e with
    | .error x => .error x
    | .ok d' => pushBacks d' es

/-! ## Literals -/

/-- The character of a digit below 16 (46_parse.md R290), a letter digit in either case. -/
def digitByte (upper : Bool) (d : Nat) : Byte :=
  if d < 10 then BitVec.ofNat 8 (0x30 + d) else if upper then BitVec.ofNat 8 (0x41 + (d - 10)) else BitVec.ofNat 8 (0x61 + (d - 10))

/-- The value of digits, most significant first (46_parse.md R290). -/
def digitsValue (radix : Nat) : List Nat → Nat
  | [] => 0
  | d :: ds => d * radix ^ ds.length + digitsValue radix ds

/-- Digits as characters, each letter digit in its own case: the pair of a digit is its case (`true` for a capital) and its
value (46_parse.md R290). -/
def digitBytes (ds : List (Bool × Nat)) : Bytes := ds.map fun d => digitByte d.1 d.2

/-- The radix of each default format (46_parse.md R282, step 8). -/
def defaultRadix : Radix → Nat
  | .hexadecimal => 16
  | .decimal => 10
  | .octal => 8
  | .binary => 2

/-- The letters `x h n o t y`, small and capital, with the radix each names as a suffix, and after a `0` as a prefix
(46_parse.md R282, steps 6 and 7). -/
def radixLetters : List (Byte × Nat) :=
  [(0x78#8, 16), (0x58#8, 16), (0x68#8, 16), (0x48#8, 16), (0x6E#8, 10), (0x4E#8, 10), (0x6F#8, 8), (0x4F#8, 8),
    (0x74#8, 8), (0x54#8, 8), (0x79#8, 2), (0x59#8, 2)]

/-- The letters of a prefix: those of `radixLetters`, and `b` in either case unless the default is Hexadecimal (46_parse.md
R288). -/
def prefixLetters (f : Radix) : List (Byte × Nat) :=
  radixLetters ++ if f = .hexadecimal then [] else [(0x62#8, 2), (0x42#8, 2)]

/-- `body` is a prefix that names `radix`, and then `rest`, which is not empty (46_parse.md R288). -/
def Prefixed (f : Radix) (body : Bytes) (radix : Nat) (rest : Bytes) : Prop :=
  ∃ letter, (letter, radix) ∈ prefixLetters f ∧ body = [0x30#8, letter] ++ rest ∧ rest ≠ []

/-- `body` has no prefix, and is `rest` and then a suffix letter that names `radix`; `rest` may be empty (46_parse.md
R289). -/
def Suffixed (f : Radix) (body : Bytes) (radix : Nat) (rest : Bytes) : Prop :=
  (∀ r x, ¬ Prefixed f body r x) ∧ ∃ letter, (letter, radix) ∈ radixLetters ∧ body = rest ++ [letter]

/-- `body` has neither a prefix nor a suffix letter, so that the default radix holds (46_parse.md R282, step 8). -/
def Unmarked (f : Radix) (body : Bytes) : Prop := (∀ r x, ¬ Prefixed f body r x) ∧ ∀ r x, ¬ Suffixed f body r x

/-- The bytes between a token's radix marks are no number: there is none, or one is no digit of the radix (46_parse.md
R290). -/
def NotDigits (radix : Nat) (rest : Bytes) : Prop :=
  rest = [] ∨ ∃ ch ∈ rest, ∀ (capital : Bool) (d : Nat), d < radix → ch ≠ digitByte capital d

/-- A leading `-` or none, and then `body` (46_parse.md R287). -/
def signed (neg : Bool) (body : Bytes) : Bytes := (if neg then [0x2D#8] else []) ++ body

/-- Every byte of `ws` is one that trimming removes (46_parse.md R281). -/
abbrev Blank (ws : Bytes) : Prop := ∀ ch ∈ ws, ch = 0x20#8 ∨ (0x09 ≤ ch.toNat ∧ ch.toNat ≤ 0x0D)

/-- How steps 1 to 3 read a TEXT that has something before its separator (46_parse.md R281, R282, R284, R285): whitespace,
then a token, which is `core` with spaces anywhere in it; then whitespace, or a separator (a colon or a semicolon) and the
comment `cm` with whitespace around it. `core` is not empty, holds no separator and does not begin with whitespace; nor does
it end with it where no separator follows; any other whitespace is part of `core`. -/
def EntryText (text core : Bytes) (comment : Option (Bool × Bytes)) : Prop :=
  core ≠ [] ∧ (∀ ch ∈ core, ch ≠ 0x3B#8 ∧ ch ≠ 0x3A#8) ∧ (∀ ch, core.head? = some ch → ¬ Blank [ch])
    ∧ ∃ before tok after : Bytes, Blank before ∧ Blank after ∧ tok.filter (fun ch => ch != 0x20#8) = core
      ∧ match comment with
        | none => text = before ++ tok ++ after ∧ ∀ ch, core.getLast? = some ch → ¬ Blank [ch]
        | some (colon, cm) =>
          (∀ ch, cm.head? = some ch ∨ cm.getLast? = some ch → ¬ Blank [ch])
            ∧ ∃ gap : Bytes, Blank gap
              ∧ text = before ++ tok ++ [if colon then 0x3A#8 else 0x3B#8] ++ gap ++ cm ++ after

/-- The response to a literal: the value, the comment and the separator that was found (46_parse.md R280, R284, R293). -/
def entryResponse (v : BitVec 128) (comment : Option (Bool × Bytes)) : Response :=
  { Response.blank with
    rpresent := true
    rval := v
    rcmt0 := comment.map Prod.snd
    marker := match comment with
      | none => 0x00#8
      | some (colon, _) => if colon then 0x3A#8 else 0x3B#8 }

/-- PARSE reads the magnitude `m`, of digits of this radix, under this sign (46_parse.md R291, R292): below `2^128`, and in
radix 8 always, the value modulo `2^128`, negated for `-`, in the low `bits` bits; from `2^128` on the other radixes fail
with InvalidFormat (7). -/
def ReadsMagnitude (f : Radix) (s : State) (radix : Nat) (neg : Bool) (m : Nat) (comment : Option (Bool × Bytes)) : Prop :=
  (m < 2 ^ 128 ∨ radix = 8 →
    Answers (.parse f) s
      (entryResponse (wrapped (widthBits s.width) ((if neg then -(m : Int) else (m : Int)) % 2 ^ 128)) comment))
  ∧ (2 ^ 128 ≤ m → radix ≠ 8 → FailsWith (.parse f) s 7#4)

end Sys2Proof.Machine
end

