-- ==== Sys2Proof/Certificates/Slice0/Obligations.lean ====
section
/-! DEFINITION. The statements for the provers. Each docstring names the rules of spec/ it comes from, and the log entry
where it rests on a choice of the model. -/

open Sys2Proof Sys2Proof.Machine

/-! ## Encoding and the step -/

/-- Decoding the encoding of any command gives the command back, every field at every value (30_encoding.md R81 to R95). -/
def Obligations.DecodeOfEncode : Prop := ∀ i : Instr, i.wf = true → decode (encode i) = .ok i

/-- Each legal word is the encoding of the command it decodes to: no bit is dropped (30_encoding.md R81, R87, R95). -/
def Obligations.EncodeOfDecode : Prop := ∀ (w : BitVec 32) (i : Instr), decode w = .ok i → encode i = w

/-- Decoding is total, and accepts exactly the words whose opcode is assigned and whose bits outside the opcode and the
format's fields are zero (30_encoding.md R87, R89, R94, R95). -/
def Obligations.DecodeAcceptsExactlyTheLegalWords : Prop :=
  ∀ w : BitVec 32,
    (opcodeAssigned (w.toNat % 256) = true ∧ w &&& 0xFFFFFF00#32 &&& ~~~opcodeMask (w.toNat % 256) = 0#32
        → ∃ i, decode w = .ok i ∧ i.opcode.toNat = w.toNat % 256)
    ∧ (opcodeAssigned (w.toNat % 256) = false → decode w = .error .reservedOpcode)
    ∧ (opcodeAssigned (w.toNat % 256) = true ∧ w &&& 0xFFFFFF00#32 &&& ~~~opcodeMask (w.toNat % 256) ≠ 0#32
        → decode w = .error .reservedBits)

/-- Words of each class, written out in 30_encoding.md R101 and 95_test_vectors.md, decode to the commands they stand for.
A sanity statement. -/
def Obligations.SpecWordsDecode : Prop :=
  decode 0x0000A001#32 = .ok (.push 2#3 true) ∧ decode 0x0000B007#32 = .ok (.convert 3#3 true)
    ∧ decode 0x00010008#32 = .ok (.parse .decimal) ∧ decode 0x00000723#32 = .ok (.sbb true true true)
    ∧ decode 0x00000121#32 = .ok (.adc true false false) ∧ decode 0x00000041#32 = .ok .maskl
    ∧ decode 0x00000861#32 = .ok (.roll true) ∧ decode 0x00000061#32 = .ok (.roll false)

/-- A step takes the host's next command: where its word decodes to a command `i`, the step is `exec i` on the state with
the command on the port and off the queue (10_state.md R45, 30_encoding.md R95). -/
def Obligations.StepRunsTheDecodedCommand : Prop :=
  ∀ (s : State) (c : Command) (rest : List HostMove) (i : Instr),
    s.inputs = .command c :: rest → c.wf s.cfg = true → decode c.cmd = .ok i → i.wf = true →
      step s = exec i { s with inputs := rest, port := c }

/-- A reserved opcode, or a bit outside the format's fields, answers IllegalCommand (12) and changes nothing else; this is
decided before the command's own rule is looked at (30_encoding.md R87, R94; 60_exceptions.md R318). -/
def Obligations.StepRaisesIllegalCommand : Prop :=
  ∀ (s : State) (c : Command) (rest : List HostMove),
    s.inputs = .command c :: rest → c.wf s.cfg = true →
      (opcodeAssigned (c.cmd.toNat % 256) = false
        ∨ c.cmd &&& 0xFFFFFF00#32 &&& ~~~opcodeMask (c.cmd.toNat % 256) ≠ 0#32) →
      step s = .next { s with inputs := rest, port := c, resp := { Response.blank with status := 12#4 } }

/-- With no host move pending a step changes nothing. The model's choice of what an idle step is: log 9; the spec's sentence
is 60_exceptions.md R327, "Between commands it holds its state indefinitely". -/
def Obligations.StepIdleHoldsState : Prop := ∀ s : State, s.inputs = [] → step s = .next s

/-- Reset, whatever the state before: WIDTH is RESET_WIDTH's, HEAD and TAIL are 0, the stack is empty, CAP is unchanged and
the response latches are clear (70_reset_and_hazards.md R340). That the parameters and the host's later moves stay is the
model's choice (log 11). -/
def Obligations.StepTakesReset : Prop :=
  ∀ (s : State) (rest : List HostMove), s.inputs = .reset :: rest → 2 ≤ s.dq.cap →
    ∃ t, step s = .next t ∧ t.width = s.cfg.resetWidth ∧ t.dq.head = 0 ∧ t.dq.tail = 0 ∧ t.dq.count = 0
      ∧ t.dq.stack = [] ∧ t.dq.wf ∧ t.dq.cap = s.dq.cap ∧ t.cfg = s.cfg ∧ t.inputs = rest
      ∧ t.resp = { status := 0#4, flags := 0#2, rval := 0#128, rcmt0 := none, rcmt1 := none, rcount := 0#32, items := [],
                   rpresent := false, marker := 0#8 }

/-- A host that breaks TEXT_MAX or COMMENT_MAX is refused by name, the text first (93_implementation_defined.md U4; which
side fields the bounds cover and their order are the model's choice, log 4). -/
def Obligations.StepRefusesHostBreach : Prop :=
  ∀ (s : State) (c : Command) (rest : List HostMove), s.inputs = .command c :: rest →
    (c.textFits s.cfg = false → step s = .refused .textTooLong)
    ∧ (c.textFits s.cfg = true → c.commentsFit s.cfg = false → step s = .refused .commentTooLong)

/-! ## Whole-machine rules -/

/-- After reset the invariant holds, for every capacity of at least 2 and all values of the open parameters
(70_reset_and_hazards.md R340); with State.reset's values (logs 1 to 4) among them. -/
def Obligations.ResetMeetsTheInvariant : Prop :=
  State.reset.Inv ∧ ∀ (cap : Nat) (p : Params), 2 ≤ cap → (State.resetWith cap p).Inv

/-- Every step keeps the invariant: the ring buffer keeps its form, and every live value lies in the word width, across
width changes too (10_state.md R32 to R34, R38). -/
def Obligations.StepKeepsTheInvariant : Prop := ∀ s t : State, s.Inv → step s = .next t → t.Inv

/-- Every step from a state with the invariant, under a host that keeps its bounds, answers a next state with both again:
no command stops the block (60_exceptions.md R314, 70_reset_and_hazards.md R354). -/
def Obligations.StepNeverStops : Prop :=
  ∀ s : State, s.Inv → s.hostKeepsBounds → ∃ t, step s = .next t ∧ t.Inv ∧ t.hostKeepsBounds

/-- After any number of steps from a reset block of any capacity and parameters, with any host moves queued,
`count + free + 1 = CAP` and CAP is as at reset (10_state.md R36, 40_deque.md R126). -/
def Obligations.RunsKeepTheCapacityLaw : Prop :=
  ∀ (k cap : Nat) (p : Params) (moves : List HostMove) (t : State), 2 ≤ cap →
    Sys2Proof.core.run k { State.resetWith cap p with inputs := moves } = .next t →
      t.dq.count + t.dq.free + 1 = cap ∧ t.dq.cap = cap ∧ t.dq.count ≤ cap - 1

/-- A command that raises an error leaves the whole state as it was, cursors, slots and comments included; its response is
the STATUS code with every other field blank (60_exceptions.md R314, 42_binary.md R164, 43_unary.md R229). -/
def Obligations.FailedCommandChangesNothing : Prop :=
  ∀ (i : Instr) (s t : State), s.dq.wf → exec i s = .next t → t.resp.status ≠ 0#4 →
    t = { s with resp := { Response.blank with status := t.resp.status } }

/-- No command's STATUS is 3 (StackEmpty) or above 12 (60_exceptions.md R310, R311). -/
def Obligations.StatusIsNeverStackEmpty : Prop :=
  ∀ (i : Instr) (s t : State), s.dq.wf → exec i s = .next t → t.resp.status ≠ 3#4 ∧ t.resp.status.toNat ≤ 12

/-- Two states with equal logical stack and equal WIDTH (and the same parameters and command) answer every command with the
same response and stay alike, whatever their cursors and dead slots hold (10_state.md R37, R40). -/
def Obligations.EqualStacksAreIndistinguishable : Prop :=
  ∀ (i : Instr) (s t : State), s.dq.wf → t.dq.wf → s.agrees t →
    ∃ s' t', exec i s = .next s' ∧ exec i t = .next t' ∧ s'.resp = t'.resp ∧ s'.agrees t' ∧ s'.dq.wf ∧ t'.dq.wf

/-- Runs of any length from two such states stay alike, with the same latched response after each, and are refused for the
same reason: a run is a function of WIDTH, the stack, CAP, the parameters and the host's moves alone (10_state.md R37,
70_reset_and_hazards.md R353). -/
def Obligations.RunsAreFunctionsOfTheMoves : Prop :=
  ∀ (k : Nat) (s t : State), s.dq.wf → t.dq.wf → s.agrees t → s.resp = t.resp →
    (∃ s' t', Sys2Proof.core.run k s = .next s' ∧ Sys2Proof.core.run k t = .next t' ∧ s'.resp = t'.resp ∧ s'.agrees t')
    ∨ ∃ r, Sys2Proof.core.run k s = .refused r ∧ Sys2Proof.core.run k t = .refused r

/-- PEEK, COUNT, WBYTES, GETITEMS and PARSE change nothing but the response, on success and on failure, and repeating one
gives the same response (20_memory.md R63, 46_parse.md R296). -/
def Obligations.QueriesChangeNothing : Prop :=
  ∀ (i : Instr) (s : State), (i = .peek ∨ i = .count ∨ i = .wbytes ∨ i = .getitems ∨ ∃ f, i = .parse f) →
    ∃ r, exec i s = .next { s with resp := r } ∧ exec i { s with resp := r } = .next { s with resp := r }

/-- Entries pushed at one end come back from that end in reverse order, and the stack below is as it was (40_deque.md
R127). -/
def Obligations.DequeRoundTrip : Prop :=
  ∀ (d : Deque) (es : List Entry), d.wf → d.count + es.length < d.cap →
    (∃ d1 d2, d.pushAll es = .ok d1 ∧ popFronts es.length d1 = .ok (es.reverse, d2) ∧ d2.wf ∧ d2.stack = d.stack)
    ∧ ∃ d1 d2, pushBacks d es = .ok d1 ∧ popBacks es.length d1 = .ok (es.reverse, d2) ∧ d2.wf ∧ d2.stack = d.stack

/-- `push_front` with a free slot writes `RB[HEAD]` and moves HEAD up by one place modulo CAP; every other slot and TAIL are
unchanged, and the stack has the entry on top. On a full deque it raises StackFull (40_deque.md R112). -/
def Obligations.PushFrontWritesOneSlot : Prop :=
  ∀ (d : Deque) (e : Entry), d.wf →
    (1 ≤ d.free → ∃ d', d.pushFront e = .ok d' ∧ d'.rb[d.head]? = some e
        ∧ (∀ j, j ≠ d.head → d'.rb[j]? = d.rb[j]?) ∧ d'.head = (d.head + 1) % d.cap ∧ d'.tail = d.tail
        ∧ d'.cap = d.cap ∧ d'.wf ∧ d'.stack = d.stack ++ [e])
    ∧ (d.free < 1 → d.pushFront e = .error .stackFull)

/-! ## Data and query commands -/

/-- PUSH with a width code of 0 to 4 and room: the new top is DATA's low `8 * 2^WC` bits, truncated to the width or extended
by SX, with the comments of the port (41_data.md R140, R143). -/
def Obligations.PushPushesTheCastValue : Prop :=
  ∀ (s : State) (wc : BitVec 3) (sx : Bool), s.dq.wf → wc.toNat ≤ 4 → s.dq.stack.length + 1 < s.dq.cap →
    Completes (.push wc sx) s s.width
      (s.dq.stack ++ [{ val := BitVec.ofNat 128 (castValue (8 * 2 ^ wc.toNat) (widthBits s.width) sx
                                  (s.port.data.toNat % 2 ^ (8 * 2 ^ wc.toNat))),
                        cmt := s.port.cmt0, alt := s.port.cmt1 }])
      Response.blank

/-- PUSH and CONVERT with a width code of 5, 6 or 7 fail with UnsupportedConversionType (10), whatever the stack holds; PUSH
with a good code on a full stack fails with StackFull (2) (30_encoding.md R84; 41_data.md R140, R144; 60_exceptions.md
R318). -/
def Obligations.PushAndConvertErrors : Prop :=
  ∀ (s : State) (wc : BitVec 3) (sx : Bool),
    (4 < wc.toNat → FailsWith (.push wc sx) s 10#4 ∧ FailsWith (.convert wc sx) s 10#4)
    ∧ (s.dq.wf → wc.toNat ≤ 4 → s.dq.stack.length = s.dq.cap - 1 → FailsWith (.push wc sx) s 2#4)

/-- PEEK answers the top entry's value and comments, and fails with InsufficientOperands (1) on an empty stack; the state is
unchanged (41_data.md R141). -/
def Obligations.PeekReadsTheTop : Prop :=
  ∀ (s : State) (S : List Entry) (e : Entry), s.dq.wf →
    (s.dq.stack = S ++ [e] →
      Answers .peek s { Response.blank with rval := BitVec.ofNat 128 (s.uval e), rcmt0 := e.cmt, rcmt1 := e.alt })
    ∧ (s.dq.stack = [] → FailsWith .peek s 1#4)

/-- CLEAR empties the stack and keeps WIDTH; it never fails (41_data.md R142). -/
def Obligations.ClearEmptiesTheStack : Prop := ∀ s : State, s.dq.wf → Completes .clear s s.width [] Response.blank

/-- COUNT answers the number of entries, and WBYTES the width in bytes, changing nothing (41_data.md R146, R147). Above
32 bits COUNT's RCOUNT is a free value (log 12), so nothing is said of it. -/
def Obligations.CountAndWbytesAnswer : Prop :=
  ∀ s : State,
    (∃ n : BitVec 32, Answers .count s { Response.blank with rcount := n }
        ∧ (s.dq.stack.length < 2 ^ 32 → n.toNat = s.dq.stack.length))
    ∧ ∃ n : BitVec 32, Answers .wbytes s { Response.blank with rcount := n } ∧ n.toNat * 8 = widthBits s.width

/-- GETITEMS answers the top `max` entries, top first, each value at the word width, `max` being the signed low 32 bits of
DATA; a maximum of 0 or less gives the empty list. Nothing changes (41_data.md R148, R149). -/
def Obligations.GetitemsAnswersTheTopEntries : Prop :=
  ∀ s : State, s.dq.wf →
    Answers .getitems s
      { Response.blank with
        items := (s.dq.stack.reverse.take (native32 s.port.data.toNat).toNat).map
          fun e => { e with val := BitVec.ofNat 128 (s.uval e) } }

/-! ## CONVERT -/

/-- CONVERT with a width code of 0 to 4 sets WIDTH to the code and maps every value by the cast, order and comments kept
(45_convert.md R270, R271). -/
def Obligations.ConvertMapsEveryValue : Prop :=
  ∀ (s : State) (wc : BitVec 3) (sx : Bool), s.dq.wf → wc.toNat ≤ 4 →
    ∃ w, widthCode w = wc ∧ widthBits w = 8 * 2 ^ wc.toNat
      ∧ Completes (.convert wc sx) s w
          (s.dq.stack.map fun e =>
            { e with val := BitVec.ofNat 128 (castValue (widthBits s.width) (widthBits w) sx (s.uval e)) })
          Response.blank

/-- Widening and then narrowing back, with any two sign flags, restores every value and the width; narrowing and then
widening back need not (45_convert.md R274). -/
def Obligations.WidenThenNarrowRestores : Prop :=
  (∀ (s : State) (w : Width) (sx sx' : Bool), s.Inv → widthBits s.width ≤ widthBits w →
    ∃ t u, exec (.convert (widthCode w) sx) s = .next t ∧ exec (.convert (widthCode s.width) sx') t = .next u
      ∧ u.width = s.width ∧ u.dq.stack = s.dq.stack)
  ∧ ∃ (s t u : State) (w : Width) (sx sx' : Bool), s.Inv ∧ widthBits w < widthBits s.width
      ∧ exec (.convert (widthCode w) sx) s = .next t ∧ exec (.convert (widthCode s.width) sx') t = .next u
      ∧ u.dq.stack ≠ s.dq.stack

/-! ## Binary commands -/

/-- ADD, ADC, SUB and SBB replace the two operands by the wrapped sum or difference. Carry is exactly "the unsigned sum
reaches 2^bits" or "the minuend is below what is subtracted", Overflow exactly "the signed result is out of range"; the
effective carry is CIN for ADC and SBB and 0 for ADD and SUB (42_binary.md R163, R166 to R171). -/
def Obligations.AddAndSubtractAreExact : Prop :=
  ∀ (s : State) (S : List Entry) (a b : Entry) (cin pfc pfv : Bool), s.dq.wf → s.dq.stack = S ++ [a, b] →
    (∀ i c, (i = .add cin pfc pfv ∧ c = 0 ∨ i = .adc cin pfc pfv ∧ c = cin.toNat) →
      Completes i s s.width (S ++ [resultEntry (wrapped (widthBits s.width) (s.uval a + s.uval b + c)) a b])
        (flagsResponse (decide (2 ^ widthBits s.width ≤ s.uval a + s.uval b + c))
          (outOfRange (widthBits s.width) (s.sval a + s.sval b + c))))
    ∧ ∀ i c, (i = .sub cin pfc pfv ∧ c = 0 ∨ i = .sbb cin pfc pfv ∧ c = cin.toNat) →
      Completes i s s.width
        (S ++ [resultEntry (wrapped (widthBits s.width) ((s.uval a : Int) - s.uval b - (c : Nat))) a b])
        (flagsResponse (decide (s.uval a < s.uval b + c))
          (outOfRange (widthBits s.width) (s.sval a - s.sval b - c)))

/-- MUL replaces the operands by the wrapped product; C is the unsigned test and V the signed test of the exact products
(42_binary.md R172 to R174). -/
def Obligations.MultiplyIsExact : Prop :=
  ∀ (s : State) (S : List Entry) (a b : Entry) (cin pfc pfv : Bool), s.dq.wf → s.dq.stack = S ++ [a, b] →
    Completes (.mul cin pfc pfv) s s.width
      (S ++ [resultEntry (BitVec.ofNat 128 (s.uval a * s.uval b % 2 ^ widthBits s.width)) a b])
      (flagsResponse (decide (2 ^ widthBits s.width - 1 < s.uval a * s.uval b))
        (outOfRange (widthBits s.width) (s.sval a * s.sval b)))

/-- DIVU, DIVS and REM by zero fail with DivideByZero (5), before every other test, and restore the operands
(42_binary.md R175). -/
def Obligations.DivisionByZeroFails : Prop :=
  ∀ (s : State) (S : List Entry) (a b : Entry) (cin pfc pfv : Bool), s.dq.wf → s.dq.stack = S ++ [a, b] →
    s.uval b = 0 →
      FailsWith (.divu cin pfc pfv) s 5#4 ∧ FailsWith (.divs cin pfc pfv) s 5#4 ∧ FailsWith (.rem cin pfc pfv) s 5#4

/-- DIVU, and DIVS and REM outside the overflow case: the unsigned quotient, the signed quotient truncated toward zero, and
the remainder with the dividend's sign, each with both flags 0 (42_binary.md R176, R178 to R181). -/
def Obligations.DivisionsDivide : Prop :=
  ∀ (s : State) (S : List Entry) (a b : Entry) (cin pfc pfv : Bool), s.dq.wf → s.dq.stack = S ++ [a, b] →
    s.uval b ≠ 0 →
      Completes (.divu cin pfc pfv) s s.width (S ++ [resultEntry (BitVec.ofNat 128 (s.uval a / s.uval b)) a b])
        (flagsResponse false false)
      ∧ (¬ (s.sval a = -2 ^ (widthBits s.width - 1) ∧ s.sval b = -1) → ∀ q m : Int,
          s.sval a = q * s.sval b + m → |m| < |s.sval b| → (m = 0 ∨ m.sign = (s.sval a).sign) →
            Completes (.divs cin pfc pfv) s s.width (S ++ [resultEntry (wrapped (widthBits s.width) q) a b])
              (flagsResponse false false)
            ∧ Completes (.rem cin pfc pfv) s s.width (S ++ [resultEntry (wrapped (widthBits s.width) m) a b])
              (flagsResponse false false))

/-- The signed division overflow case, MINS by -1, for each value of the parameter SDIV_OVERFLOW: Wrap gives MINS for DIVS
and 0 for REM with both flags 0, Fault fails both with ArithmeticOverflow (11) (42_binary.md R177). -/
def Obligations.SignedDivisionOverflow : Prop :=
  ∀ (s : State) (S : List Entry) (a b : Entry) (cin pfc pfv : Bool), s.dq.wf → s.dq.stack = S ++ [a, b] →
    s.sval a = -2 ^ (widthBits s.width - 1) → s.sval b = -1 →
      (s.cfg.sdivOverflow = .wrap →
        Completes (.divs cin pfc pfv) s s.width
          (S ++ [resultEntry (BitVec.ofNat 128 (2 ^ (widthBits s.width - 1))) a b]) (flagsResponse false false)
        ∧ Completes (.rem cin pfc pfv) s s.width (S ++ [resultEntry 0#128 a b]) (flagsResponse false false))
      ∧ (s.cfg.sdivOverflow = .fault →
        FailsWith (.divs cin pfc pfv) s 11#4 ∧ FailsWith (.rem cin pfc pfv) s 11#4)

/-- AND, OR and XOR combine the operands bit by bit and return the host's flags (42_binary.md R182 to R185). -/
def Obligations.BitwiseCommandsCombineBits : Prop :=
  ∀ (s : State) (S : List Entry) (a b : Entry) (cin pfc pfv : Bool), s.dq.wf → s.dq.stack = S ++ [a, b] →
    ∀ (i : Instr) (f : Bool → Bool → Bool),
      (i = .and cin pfc pfv ∧ f = and ∨ i = .or cin pfc pfv ∧ f = or ∨ i = .xor cin pfc pfv ∧ f = xor) →
      ∃ v : BitVec 128, v.toNat < 2 ^ widthBits s.width
        ∧ (∀ k, k < widthBits s.width → v.getLsbD k = f (bitOf a k) (bitOf b k))
        ∧ Completes i s s.width (S ++ [resultEntry v a b]) (flagsResponse pfc pfv)

/-- SHL, SHR and SAR by an amount of 0 to `bits` and above: the exact shift, the last bit out in both flags; by 0 the value
and the host's flags; above `bits` 0 and clear flags, SAR included (42_binary.md R186 to R191). -/
def Obligations.ShiftsShift : Prop :=
  ∀ (s : State) (S : List Entry) (a b : Entry) (cin pfc pfv : Bool), s.dq.wf → s.dq.stack = S ++ [a, b] →
    (s.sval b = 0 → ∀ i, (i = .shl cin pfc pfv ∨ i = .shr cin pfc pfv ∨ i = .sar cin pfc pfv) →
      Completes i s s.width (S ++ [resultEntry (BitVec.ofNat 128 (s.uval a)) a b]) (flagsResponse pfc pfv))
    ∧ ((widthBits s.width : Int) < s.sval b → ∀ i, (i = .shl cin pfc pfv ∨ i = .shr cin pfc pfv ∨ i = .sar cin pfc pfv) →
      Completes i s s.width (S ++ [resultEntry 0#128 a b]) (flagsResponse false false))
    ∧ ∀ k : Nat, s.sval b = k → 1 ≤ k → k ≤ widthBits s.width →
      Completes (.shl cin pfc pfv) s s.width
        (S ++ [resultEntry (BitVec.ofNat 128 (s.uval a * 2 ^ k % 2 ^ widthBits s.width)) a b])
        (flagsResponse (bitOf a (widthBits s.width - k)) (bitOf a (widthBits s.width - k)))
      ∧ Completes (.shr cin pfc pfv) s s.width (S ++ [resultEntry (BitVec.ofNat 128 (s.uval a / 2 ^ k)) a b])
        (flagsResponse (bitOf a (k - 1)) (bitOf a (k - 1)))
      ∧ Completes (.sar cin pfc pfv) s s.width (S ++ [resultEntry (wrapped (widthBits s.width) (s.sval a / 2 ^ k)) a b])
        (flagsResponse (bitOf a (k - 1)) (bitOf a (k - 1)))

/-- ROL and ROR move bit `j` to bit `j + amt` or `j - amt` modulo `bits`; both flags are the bit that crossed: the lowest
bit of ROL's result, the highest of ROR's. An amount of 0 keeps the value and the host's flags (42_binary.md R192 to
R195). -/
def Obligations.RotatesRotate : Prop :=
  ∀ (s : State) (S : List Entry) (a b : Entry) (cin pfc pfv : Bool), s.dq.wf → s.dq.stack = S ++ [a, b] →
    (s.sval b = 0 → ∀ i, (i = .rol cin pfc pfv ∨ i = .ror cin pfc pfv) →
      Completes i s s.width (S ++ [resultEntry (BitVec.ofNat 128 (s.uval a)) a b]) (flagsResponse pfc pfv))
    ∧ ∀ k : Nat, s.sval b = k → 1 ≤ k →
      (∃ v : BitVec 128, v.toNat < 2 ^ widthBits s.width
        ∧ (∀ j, j < widthBits s.width → v.getLsbD ((j + k) % widthBits s.width) = bitOf a j)
        ∧ Completes (.rol cin pfc pfv) s s.width (S ++ [resultEntry v a b]) (flagsResponse (v.getLsbD 0) (v.getLsbD 0)))
      ∧ ∃ v : BitVec 128, v.toNat < 2 ^ widthBits s.width
        ∧ (∀ j, j < widthBits s.width → v.getLsbD j = bitOf a ((j + k) % widthBits s.width))
        ∧ Completes (.ror cin pfc pfv) s s.width (S ++ [resultEntry v a b])
            (flagsResponse (v.getLsbD (widthBits s.width - 1)) (v.getLsbD (widthBits s.width - 1)))

/-- RCL and RCR rotate the `bits + 1` bits of the word with CIN above it; the word is the result and the top bit both flags.
An amount of 0 keeps the value and the host's flags (42_binary.md R192, R193, R196 to R198). -/
def Obligations.RotatesThroughCarryRotate : Prop :=
  ∀ (s : State) (S : List Entry) (a b : Entry) (cin pfc pfv : Bool), s.dq.wf → s.dq.stack = S ++ [a, b] →
    (s.sval b = 0 → ∀ i, (i = .rcl cin pfc pfv ∨ i = .rcr cin pfc pfv) →
      Completes i s s.width (S ++ [resultEntry (BitVec.ofNat 128 (s.uval a)) a b]) (flagsResponse pfc pfv))
    ∧ ∀ (k : Nat) (x : Nat → Bool), s.sval b = k → 1 ≤ k →
      (∀ j, j < widthBits s.width → x j = bitOf a j) → x (widthBits s.width) = cin →
      (∃ (v : BitVec 128) (c : Bool), v.toNat < 2 ^ widthBits s.width
        ∧ (∀ j, j ≤ widthBits s.width →
            x j = if (j + k) % (widthBits s.width + 1) = widthBits s.width then c
              else v.getLsbD ((j + k) % (widthBits s.width + 1)))
        ∧ Completes (.rcl cin pfc pfv) s s.width (S ++ [resultEntry v a b]) (flagsResponse c c))
      ∧ ∃ (v : BitVec 128) (c : Bool), v.toNat < 2 ^ widthBits s.width
        ∧ (∀ j, j < widthBits s.width → v.getLsbD j = x ((j + k) % (widthBits s.width + 1)))
        ∧ c = x ((widthBits s.width + k) % (widthBits s.width + 1))
        ∧ Completes (.rcr cin pfc pfv) s s.width (S ++ [resultEntry v a b]) (flagsResponse c c)

/-- ALIGNUP and ALIGNDN round to a multiple of `2^amt`, wrapping, and give 0 from `amt = bits` on; the flags are the host's
(42_binary.md R199 to R202). -/
def Obligations.AlignmentsRound : Prop :=
  ∀ (s : State) (S : List Entry) (a b : Entry) (cin pfc pfv : Bool), s.dq.wf → s.dq.stack = S ++ [a, b] →
    (∀ k : Nat, s.sval b = k → k < widthBits s.width →
      Completes (.alignup cin pfc pfv) s s.width
        (S ++ [resultEntry (BitVec.ofNat 128 ((s.uval a + (2 ^ k - 1)) / 2 ^ k * 2 ^ k % 2 ^ widthBits s.width)) a b])
        (flagsResponse pfc pfv)
      ∧ Completes (.aligndn cin pfc pfv) s s.width
        (S ++ [resultEntry (BitVec.ofNat 128 (s.uval a / 2 ^ k * 2 ^ k)) a b]) (flagsResponse pfc pfv))
    ∧ ((widthBits s.width : Int) ≤ s.sval b → ∀ i, (i = .alignup cin pfc pfv ∨ i = .aligndn cin pfc pfv) →
      Completes i s s.width (S ++ [resultEntry 0#128 a b]) (flagsResponse pfc pfv))

/-- A negative amount fails with InvalidShiftAmount (6) in the nine commands that read one, and the operands are restored
(42_binary.md R162). -/
def Obligations.NegativeAmountFails : Prop :=
  ∀ (s : State) (S : List Entry) (a b : Entry) (c p v : Bool), s.dq.wf → s.dq.stack = S ++ [a, b] → s.sval b < 0 →
    ∀ i ∈ [Instr.shl c p v, .shr c p v, .sar c p v, .rol c p v, .ror c p v, .rcl c p v, .rcr c p v, .alignup c p v,
        .aligndn c p v], FailsWith i s 6#4

/-- Fewer than two entries fail every binary command, and none fails every unary and stack command and PEEK, with
InsufficientOperands (1), whatever else is wrong (42_binary.md R160, 43_unary.md R220, 44_stack.md R240, 41_data.md R141,
60_exceptions.md R318). -/
def Obligations.InsufficientOperandsFail : Prop :=
  ∀ (i : Instr) (s : State),
    (isBinaryCommand i = true → s.dq.stack.length < 2 → FailsWith i s 1#4)
    ∧ ((isUnaryCommand i = true ∨ isStackCommand i = true ∨ i = .peek) → s.dq.stack = [] → FailsWith i s 1#4)

/-- A successful binary command leaves one entry in the place of its two operands, with `a`'s comment and `b`'s as the
alternate one; both old alternate comments are dropped (42_binary.md R163). -/
def Obligations.BinaryResultKeepsTheComments : Prop :=
  ∀ (i : Instr) (s t : State) (S : List Entry) (a b : Entry), isBinaryCommand i = true → s.dq.wf →
    s.dq.stack = S ++ [a, b] → exec i s = .next t → t.resp.status = 0#4 →
      ∃ r : BitVec 128, t.dq.stack = S ++ [{ val := r, cmt := a.cmt, alt := b.cmt }] ∧ r.toNat < 2 ^ widthBits s.width
        ∧ t.width = s.width ∧ s.sameSetting t

/-- Only ADC, SBB, RCL and RCR read CIN: every other binary command does the same with CIN at 0 and at 1 (42_binary.md
R161). -/
def Obligations.OnlyCarryCommandsReadCin : Prop :=
  ∀ (s : State) (c c' p v : Bool),
    exec (.add c p v) s = exec (.add c' p v) s
    ∧ exec (.sub c p v) s = exec (.sub c' p v) s
    ∧ exec (.mul c p v) s = exec (.mul c' p v) s
    ∧ exec (.divu c p v) s = exec (.divu c' p v) s
    ∧ exec (.divs c p v) s = exec (.divs c' p v) s
    ∧ exec (.rem c p v) s = exec (.rem c' p v) s
    ∧ exec (.and c p v) s = exec (.and c' p v) s
    ∧ exec (.or c p v) s = exec (.or c' p v) s
    ∧ exec (.xor c p v) s = exec (.xor c' p v) s
    ∧ exec (.shl c p v) s = exec (.shl c' p v) s
    ∧ exec (.shr c p v) s = exec (.shr c' p v) s
    ∧ exec (.sar c p v) s = exec (.sar c' p v) s
    ∧ exec (.rol c p v) s = exec (.rol c' p v) s
    ∧ exec (.ror c p v) s = exec (.ror c' p v) s
    ∧ exec (.alignup c p v) s = exec (.alignup c' p v) s
    ∧ exec (.aligndn c p v) s = exec (.aligndn c' p v) s

/-- ADD and then SUB with the same `b` restores `a`'s value (42_binary.md R203). -/
def Obligations.AddThenSubtractRestores : Prop :=
  ∀ (s t u : State) (S : List Entry) (a b : Entry) (c p v c' p' v' : Bool), s.dq.wf → s.dq.stack = S ++ [a, b] →
    exec (.add c p v) s = .next t → u.dq.wf → u.width = t.width → u.dq.stack = t.dq.stack ++ [b] →
      ∃ x e, exec (.sub c' p' v') u = .next x ∧ x.dq.stack = S ++ [e] ∧ e.val = BitVec.ofNat 128 (s.uval a)

/-! ## Unary commands -/

/-- NOT inverts every bit of the word: the result is MAXU minus the operand, the comments stay (43_unary.md R220, R222). -/
def Obligations.NotInvertsTheWord : Prop :=
  ∀ (s : State) (S : List Entry) (e : Entry), s.dq.wf → s.dq.stack = S ++ [e] →
    Completes .not s s.width (S ++ [{ e with val := BitVec.ofNat 128 (2 ^ widthBits s.width - 1 - s.uval e) }])
      Response.blank

/-- MASKL and MASKR: `n` ones at the high or the low end for `n` in `[0, bits]`, InvalidShiftAmount (6) and nothing changed
outside it (43_unary.md R220, R223, R224). -/
def Obligations.MasksMakeOnes : Prop :=
  ∀ (s : State) (S : List Entry) (e : Entry), s.dq.wf → s.dq.stack = S ++ [e] →
    (∀ n : Nat, s.sval e = n → n ≤ widthBits s.width →
      Completes .maskl s s.width
        (S ++ [{ e with val := BitVec.ofNat 128 (2 ^ widthBits s.width - 2 ^ (widthBits s.width - n)) }]) Response.blank
      ∧ Completes .maskr s s.width (S ++ [{ e with val := BitVec.ofNat 128 (2 ^ n - 1) }]) Response.blank)
    ∧ (s.sval e < 0 ∨ (widthBits s.width : Int) < s.sval e → FailsWith .maskl s 6#4 ∧ FailsWith .maskr s 6#4)

/-- POPCNT answers the number of ones in the word (43_unary.md R220, R225). -/
def Obligations.PopcntCountsOnes : Prop :=
  ∀ (s : State) (S : List Entry) (e : Entry), s.dq.wf → s.dq.stack = S ++ [e] →
    Completes .popcnt s s.width
      (S ++ [{ e with val := BitVec.ofNat 128 ((Finset.range (widthBits s.width)).filter fun i => bitOf e i = true).card }])
      Response.blank

/-- CLZ and CTZ: the number of zeros above the highest one and below the lowest one, `bits` for 0 (43_unary.md R220, R226,
R227). -/
def Obligations.ZeroCountsCountZeros : Prop :=
  ∀ (s : State) (S : List Entry) (e : Entry), s.dq.wf → s.dq.stack = S ++ [e] →
    (∃ k, k ≤ widthBits s.width ∧ (∀ i, widthBits s.width - k ≤ i → i < widthBits s.width → bitOf e i = false)
      ∧ (k < widthBits s.width → bitOf e (widthBits s.width - 1 - k) = true)
      ∧ Completes .clz s s.width (S ++ [{ e with val := BitVec.ofNat 128 k }]) Response.blank)
    ∧ ∃ k, k ≤ widthBits s.width ∧ (∀ i, i < k → bitOf e i = false) ∧ (k < widthBits s.width → bitOf e k = true)
      ∧ Completes .ctz s s.width (S ++ [{ e with val := BitVec.ofNat 128 k }]) Response.blank

/-- POW2: `2^n` below the width, 0 from `n = bits` on, InvalidShiftAmount (6) and nothing changed for a negative `n`
(43_unary.md R220, R228). -/
def Obligations.Pow2RaisesTwo : Prop :=
  ∀ (s : State) (S : List Entry) (e : Entry), s.dq.wf → s.dq.stack = S ++ [e] →
    (∀ n : Nat, s.sval e = n →
      Completes .pow2 s s.width
        (S ++ [{ e with val := BitVec.ofNat 128 (if n < widthBits s.width then 2 ^ n else 0) }]) Response.blank)
    ∧ (s.sval e < 0 → FailsWith .pow2 s 6#4)

/-! ## Stack commands, in both index forms (44_stack.md R240, R241, R243) -/

/-- DROP removes the top `n` entries, all of them when there are fewer, none for `n <= 0`; a popped index entry is gone as
well (44_stack.md R245). -/
def Obligations.DropRemovesTheTop : Prop :=
  ∀ (xi : Bool) (s : State) (S : List Entry) (n : Int) (arg : Option Entry), s.dq.wf → IndexedBy xi s S n arg →
    Completes (.drop xi) s s.width (S.take (S.length - n.toNat)) Response.blank

/-- ROLL by `n` puts `s_((i - n) mod c)` at place `i` of a stack of `c >= 2` entries, and leaves a shorter one alone
(44_stack.md R246, R253). -/
def Obligations.RollRotatesTheStack : Prop :=
  ∀ (xi : Bool) (s : State) (S : List Entry) (n : Int) (arg : Option Entry), s.dq.wf → IndexedBy xi s S n arg →
    ∃ T : List Entry, Completes (.roll xi) s s.width T Response.blank ∧ T.length = S.length
      ∧ (S.length < 2 → T = S)
      ∧ (2 ≤ S.length → ∀ i, i < S.length → T[i]? = S[(((i : Int) - n) % (S.length : Int)).toNat]?)

/-- EXTRACT moves the entry at depth `k` to the top, the others in order; `k <= 1` changes nothing below a popped index
(44_stack.md R247). -/
def Obligations.ExtractMovesToTheTop : Prop :=
  ∀ (xi : Bool) (s : State) (S : List Entry) (k : Int) (arg : Option Entry), s.dq.wf → IndexedBy xi s S k arg →
    (k ≤ 1 → Completes (.extract xi) s s.width S Response.blank)
    ∧ ∀ (P Q : List Entry) (e : Entry), S = P ++ [e] ++ Q → k = Q.length + 1 →
      Completes (.extract xi) s s.width (P ++ Q ++ [e]) Response.blank

/-- SWAP exchanges the top entry and the one at depth `k`, comments included; `k <= 1` changes nothing below a popped index
(44_stack.md R248). -/
def Obligations.SwapExchangesEntries : Prop :=
  ∀ (xi : Bool) (s : State) (S : List Entry) (k : Int) (arg : Option Entry), s.dq.wf → IndexedBy xi s S k arg →
    (k ≤ 1 → Completes (.swap xi) s s.width S Response.blank)
    ∧ ∀ (P Q : List Entry) (e t : Entry), S = P ++ [e] ++ Q ++ [t] → k = Q.length + 2 →
      Completes (.swap xi) s s.width (P ++ [t] ++ Q ++ [e]) Response.blank

/-- PICK pushes a copy of the value at depth `k`, without comments, when there is room; on a full stack an index in range
fails with StackFull (2) and an index out of range with IndexOutOfRange (4) (44_stack.md R249, R250). -/
def Obligations.PickCopiesTheValue : Prop :=
  ∀ (xi : Bool) (s : State) (S : List Entry) (k : Int) (arg : Option Entry), s.dq.wf → IndexedBy xi s S k arg →
    (∀ (P Q : List Entry) (e : Entry), S = P ++ [e] ++ Q → k = Q.length + 1 →
      (S.length + 1 < s.dq.cap →
        Completes (.pick xi) s s.width (S ++ [{ val := e.val, cmt := none, alt := none }]) Response.blank)
      ∧ (S.length + 1 = s.dq.cap → FailsWith (.pick xi) s 2#4))
    ∧ (k < 1 ∨ (S.length : Int) < k → FailsWith (.pick xi) s 4#4)

/-- SETCMT with a popped index puts the index entry's comment on the entry at depth `k`, whose old comment becomes its
alternate one; with an explicit index it fails with InvalidOperation (9), whatever the index (44_stack.md R251). -/
def Obligations.SetcmtMovesTheComment : Prop :=
  ∀ (s : State), s.dq.wf →
    (∀ (S P Q : List Entry) (k : Int) (g t : Entry), IndexedBy false s S k (some g) → S = P ++ [t] ++ Q →
      k = Q.length + 1 →
        Completes (.setcmt false) s s.width (P ++ [{ val := t.val, cmt := g.cmt, alt := t.cmt }] ++ Q) Response.blank)
    ∧ (s.dq.stack ≠ [] → FailsWith (.setcmt true) s 9#4)

/-- SWAPCMT exchanges the two comments of the entry at depth `k` (44_stack.md R252). -/
def Obligations.SwapcmtExchangesTheComments : Prop :=
  ∀ (xi : Bool) (s : State) (S P Q : List Entry) (k : Int) (arg : Option Entry) (t : Entry), s.dq.wf →
    IndexedBy xi s S k arg → S = P ++ [t] ++ Q → k = Q.length + 1 →
      Completes (.swapcmt xi) s s.width (P ++ [{ val := t.val, cmt := t.alt, alt := t.cmt }] ++ Q) Response.blank

/-- An index above the count fails EXTRACT and SWAP, and one outside `[1, count]` fails SETCMT with a popped index and
SWAPCMT, with IndexOutOfRange (4); the popped index entry is restored (44_stack.md R240, R247, R248, R251, R252). -/
def Obligations.IndexOutOfRangeFails : Prop :=
  ∀ (xi : Bool) (s : State) (S : List Entry) (k : Int) (arg : Option Entry), s.dq.wf → IndexedBy xi s S k arg →
    (1 < k ∧ (S.length : Int) < k → FailsWith (.extract xi) s 4#4 ∧ FailsWith (.swap xi) s 4#4)
    ∧ (k < 1 ∨ (S.length : Int) < k →
        FailsWith (.swapcmt xi) s 4#4 ∧ (xi = false → FailsWith (.setcmt xi) s 4#4))

/-! ## PARSE -/

/-- Blank TEXT is no error and gives no entry; a separator with only whitespace before it fails with EmptyInput (8); a lone
`-` fails with InvalidFormat (7) (46_parse.md R283, R286). -/
def Obligations.ParseOfBlankAndEmptyInput : Prop :=
  ∀ (f : Radix) (s : State) (ws : Bytes),
    (∀ ch ∈ ws, ch = 0x20#8 ∨ (0x09 ≤ ch.toNat ∧ ch.toNat ≤ 0x0D)) →
      (s.port.text = ws → Answers (.parse f) s Response.blank)
      ∧ (∀ (sep : Byte) (rest : Bytes), (sep = 0x3B#8 ∨ sep = 0x3A#8) → s.port.text = ws ++ [sep] ++ rest →
          FailsWith (.parse f) s 8#4)
      ∧ (s.port.text = ws ++ [0x2D#8] ++ ws → FailsWith (.parse f) s 7#4)

/-- PARSE of an optional `-` and digits of the default radix, each letter digit in its own case, with spaces anywhere
before the separator, whitespace around the TEXT, and an optional separator with a comment. Below `2^128`, and in octal
always, it answers the value modulo `2^128`, negated for `-`, in the low `bits` bits, the trimmed comment and the separator;
at `2^128` and above the other radixes fail with InvalidFormat (7) (46_parse.md R281, R282, R284, R285, R290 to R292). -/
def Obligations.ParseReadsDigits : Prop :=
  ∀ (f : Radix) (s : State) (neg : Bool) (ds : List (Bool × Nat)) (comment : Option (Bool × Bytes)), ds ≠ [] →
    (∀ d ∈ ds, d.2 < defaultRadix f) → EntryText s.port.text (signed neg (digitBytes ds)) comment →
      ReadsMagnitude f s (defaultRadix f) neg (digitsValue (defaultRadix f) (ds.map Prod.snd)) comment

/-- A prefix `0x 0h` (16), `0n` (10), `0o 0t` (8), `0y` (2) and, unless the default is Hexadecimal, `0b` (2), in either
case, decides the radix of the digits after it; so does a suffix letter `x h` (16), `n` (10), `o t` (8), `y` (2) where no
prefix is found. Sign, spaces, whitespace, comment, the octal wrap and the overflow of the other radixes are as for the
default radix (46_parse.md R282, R285, R287 to R292). -/
def Obligations.ParseReadsPrefixesAndSuffixes : Prop :=
  ∀ (f : Radix) (s : State) (neg : Bool) (body : Bytes) (radix : Nat) (ds : List (Bool × Nat))
    (comment : Option (Bool × Bytes)), ds ≠ [] → (∀ d ∈ ds, d.2 < radix) →
    Prefixed f body radix (digitBytes ds) ∨ Suffixed f body radix (digitBytes ds) →
    EntryText s.port.text (signed neg body) comment →
      ReadsMagnitude f s radix neg (digitsValue radix (ds.map Prod.snd)) comment

/-- A token fails with InvalidFormat (7), with a comment or without, where what its sign, prefix or suffix leave is empty or
holds a byte that is no digit of the radix: a digit at or above the radix, a second or inner `-`, a `+`, whitespace other
than the space, a suffix letter after a prefix, any other character (46_parse.md R285 to R290). -/
def Obligations.ParseRefusesOtherBytes : Prop :=
  ∀ (f : Radix) (s : State) (neg : Bool) (body : Bytes) (comment : Option (Bool × Bytes)),
    (neg = false → body.head? ≠ some 0x2D#8) → EntryText s.port.text (signed neg body) comment →
      (Unmarked f body → NotDigits (defaultRadix f) body → FailsWith (.parse f) s 7#4)
      ∧ ∀ (radix : Nat) (rest : Bytes), Prefixed f body radix rest ∨ Suffixed f body radix rest → NotDigits radix rest →
          FailsWith (.parse f) s 7#4
end

