-- ==== Sys2Proof/Laws/State.lean ====
section
/-! SUPPORT. One lemma per field per update of the state, each true by rfl. -/

namespace Sys2Proof.Machine

@[simp] theorem respond_cfg (s : State) (r : Response) : (s.respond r).cfg = s.cfg := rfl
@[simp] theorem respond_width (s : State) (r : Response) : (s.respond r).width = s.width := rfl
@[simp] theorem respond_dq (s : State) (r : Response) : (s.respond r).dq = s.dq := rfl
@[simp] theorem respond_inputs (s : State) (r : Response) : (s.respond r).inputs = s.inputs := rfl
@[simp] theorem respond_port (s : State) (r : Response) : (s.respond r).port = s.port := rfl
@[simp] theorem respond_resp (s : State) (r : Response) : (s.respond r).resp = r := rfl

@[simp] theorem withDeque_cfg (s : State) (d : Deque) : (s.withDeque d).cfg = s.cfg := rfl
@[simp] theorem withDeque_width (s : State) (d : Deque) : (s.withDeque d).width = s.width := rfl
@[simp] theorem withDeque_dq (s : State) (d : Deque) : (s.withDeque d).dq = d := rfl
@[simp] theorem withDeque_inputs (s : State) (d : Deque) : (s.withDeque d).inputs = s.inputs := rfl
@[simp] theorem withDeque_port (s : State) (d : Deque) : (s.withDeque d).port = s.port := rfl
@[simp] theorem withDeque_resp (s : State) (d : Deque) : (s.withDeque d).resp = s.resp := rfl

@[simp] theorem withWidth_cfg (s : State) (w : Width) : (s.withWidth w).cfg = s.cfg := rfl
@[simp] theorem withWidth_width (s : State) (w : Width) : (s.withWidth w).width = w := rfl
@[simp] theorem withWidth_dq (s : State) (w : Width) : (s.withWidth w).dq = s.dq := rfl
@[simp] theorem withWidth_inputs (s : State) (w : Width) : (s.withWidth w).inputs = s.inputs := rfl
@[simp] theorem withWidth_port (s : State) (w : Width) : (s.withWidth w).port = s.port := rfl
@[simp] theorem withWidth_resp (s : State) (w : Width) : (s.withWidth w).resp = s.resp := rfl

@[simp] theorem withPort_cfg (s : State) (c : Command) : (s.withPort c).cfg = s.cfg := rfl
@[simp] theorem withPort_width (s : State) (c : Command) : (s.withPort c).width = s.width := rfl
@[simp] theorem withPort_dq (s : State) (c : Command) : (s.withPort c).dq = s.dq := rfl
@[simp] theorem withPort_inputs (s : State) (c : Command) : (s.withPort c).inputs = s.inputs := rfl
@[simp] theorem withPort_port (s : State) (c : Command) : (s.withPort c).port = c := rfl
@[simp] theorem withPort_resp (s : State) (c : Command) : (s.withPort c).resp = s.resp := rfl

@[simp] theorem withInputs_cfg (s : State) (ms : List HostMove) : (s.withInputs ms).cfg = s.cfg := rfl
@[simp] theorem withInputs_width (s : State) (ms : List HostMove) : (s.withInputs ms).width = s.width := rfl
@[simp] theorem withInputs_dq (s : State) (ms : List HostMove) : (s.withInputs ms).dq = s.dq := rfl
@[simp] theorem withInputs_inputs (s : State) (ms : List HostMove) : (s.withInputs ms).inputs = ms := rfl
@[simp] theorem withInputs_port (s : State) (ms : List HostMove) : (s.withInputs ms).port = s.port := rfl
@[simp] theorem withInputs_resp (s : State) (ms : List HostMove) : (s.withInputs ms).resp = s.resp := rfl

@[simp] theorem raise_cfg (s : State) (e : Err) : (s.raise e).cfg = s.cfg := rfl
@[simp] theorem raise_width (s : State) (e : Err) : (s.raise e).width = s.width := rfl
@[simp] theorem raise_dq (s : State) (e : Err) : (s.raise e).dq = s.dq := rfl
@[simp] theorem raise_inputs (s : State) (e : Err) : (s.raise e).inputs = s.inputs := rfl
@[simp] theorem raise_port (s : State) (e : Err) : (s.raise e).port = s.port := rfl
@[simp] theorem raise_resp (s : State) (e : Err) : (s.raise e).resp = errorResponse e := rfl

@[simp] theorem accept_cfg (s : State) (c : Command) (rest : List HostMove) : (s.accept c rest).cfg = s.cfg := rfl
@[simp] theorem accept_width (s : State) (c : Command) (rest : List HostMove) : (s.accept c rest).width = s.width := rfl
@[simp] theorem accept_dq (s : State) (c : Command) (rest : List HostMove) : (s.accept c rest).dq = s.dq := rfl
@[simp] theorem accept_inputs (s : State) (c : Command) (rest : List HostMove) : (s.accept c rest).inputs = rest := rfl
@[simp] theorem accept_port (s : State) (c : Command) (rest : List HostMove) : (s.accept c rest).port = c := rfl
@[simp] theorem accept_resp (s : State) (c : Command) (rest : List HostMove) : (s.accept c rest).resp = s.resp := rfl

@[simp] theorem afterReset_cfg (s : State) (rest : List HostMove) : (s.afterReset rest).cfg = s.cfg := rfl
@[simp] theorem afterReset_width (s : State) (rest : List HostMove) : (s.afterReset rest).width = s.cfg.resetWidth := rfl
@[simp] theorem afterReset_dq (s : State) (rest : List HostMove) : (s.afterReset rest).dq = Deque.new s.dq.cap := rfl
@[simp] theorem afterReset_inputs (s : State) (rest : List HostMove) : (s.afterReset rest).inputs = rest := rfl
@[simp] theorem afterReset_port (s : State) (rest : List HostMove) : (s.afterReset rest).port = Command.blank := rfl
@[simp] theorem afterReset_resp (s : State) (rest : List HostMove) : (s.afterReset rest).resp = Response.blank := rfl

/-- Putting a state's own deque back changes nothing. -/
@[simp] theorem withDeque_self (s : State) : s.withDeque s.dq = s := rfl

end Sys2Proof.Machine
end

