-- ==== Sys2Proof/Laws/Deque.lean ====
section
/-! SUPPORT. What each deque primitive can do, said once: on a well-formed deque each one is an operation on the logical
stack (40_deque.md), and keeps the form. -/

namespace Sys2Proof.Machine

/-- A cursor moved forward by at most CAP places. -/
theorem wrap_eq {a b cap : Nat} (ha : a < cap) (hb : b ≤ cap) :
    (a + b) % cap = if a + b < cap then a + b else a + b - cap := by
  split
  · exact Nat.mod_eq_of_lt ‹_›
  · rw [Nat.mod_eq_sub_mod (by omega), Nat.mod_eq_of_lt (by omega)]

theorem count_eq {d : Deque} (h : d.wf) :
    d.count = if d.tail ≤ d.head then d.head - d.tail else d.head + d.cap - d.tail := by
  obtain ⟨h2, _, hh, ht⟩ := h
  have : d.head + d.cap - d.tail = d.head + (d.cap - d.tail) := by omega
  rw [Deque.count, this, wrap_eq hh (by omega)]
  split <;> split <;> omega

/-- The count is the one number of places below CAP from TAIL to HEAD. -/
theorem count_of_head {d : Deque} (h : d.wf) {n : Nat} (hn : n < d.cap) (hh : (d.tail + n) % d.cap = d.head) :
    d.count = n := by
  have h4 := h.2.2
  rw [wrap_eq h4.2 (by omega)] at hh
  rw [count_eq h]
  split at hh <;> split <;> omega

/-- HEAD is `count` places after TAIL. -/
theorem head_of_count {d : Deque} (h : d.wf) : (d.tail + d.count) % d.cap = d.head := by
  have h4 := h.2.2
  have hc := count_eq h
  have hl : d.count < d.cap := by rw [hc]; split <;> omega
  rw [wrap_eq h4.2 (by omega), hc]
  split <;> split <;> omega

/-- `0 <= count <= CAP - 1` (10_state.md R36). -/
theorem count_lt {d : Deque} (h : d.wf) : d.count < d.cap := by
  have := h.2.2
  rw [count_eq h]; split <;> omega

/-- `count + free + 1 = CAP` (10_state.md R36). -/
theorem count_free {d : Deque} (h : d.wf) : d.count + d.free + 1 = d.cap := by
  have := count_lt h
  unfold Deque.free; omega

@[simp] theorem stack_length (d : Deque) : d.stack.length = d.count := by simp [Deque.stack]

theorem stack_getElem {d : Deque} {i : Nat} (hi : i < d.stack.length) :
    d.stack[i] = d.slot ((d.tail + i) % d.cap) := by simp [Deque.stack]

/-- A deque's stack is told by its length and its slots. -/
theorem stack_eq_iff {d : Deque} {S : List Entry} :
    d.stack = S ↔ d.count = S.length ∧ ∀ (i : Nat) (hi : i < S.length), d.slot ((d.tail + i) % d.cap) = S[i] := by
  constructor
  · rintro rfl
    exact ⟨(stack_length d).symm, fun i hi => (stack_getElem hi).symm⟩
  · rintro ⟨hc, hs⟩
    refine List.ext_getElem (by simp [hc]) fun i h1 h2 => ?_
    rw [stack_getElem, hs i h2]

/-- A slot after one slot was written. -/
theorem slot_set (d : Deque) (j : Nat) (e : Entry) (h t i : Nat) (hj : j < d.rb.length) :
    Deque.slot { d with rb := d.rb.set j e, head := h, tail := t } i = if i = j then e else d.slot i := by
  unfold Deque.slot
  simp only [List.getD_eq_getElem?_getD, List.getElem?_set]
  by_cases hij : j = i
  · subst hij; simp [hj]
  · simp [hij, Ne.symm hij]

/-- The three ways `mod CAP` appears, each as a case split. -/
theorem wrap_pred {a cap : Nat} (ha : a < cap) :
    (a + cap - 1) % cap = if a = 0 then cap - 1 else a - 1 := by
  have : a + cap - 1 = a + (cap - 1) := by omega
  rw [this, wrap_eq ha (by omega)]
  split <;> split <;> omega

/-- `push_front` on a deque with room appends the entry (40_deque.md R112). -/
theorem pushFront_spec {d : Deque} (h : d.wf) (hroom : d.count + 1 < d.cap) (e : Entry) :
    ∃ d', d.pushFront e = .ok d' ∧ d'.wf ∧ d'.cap = d.cap ∧ d'.stack = d.stack ++ [e] := by
  have hw := h
  obtain ⟨h2, hl, hh, ht⟩ := h
  have hhd := head_of_count hw
  have hfree : ¬ d.free < 1 := by unfold Deque.free; omega
  have hw' : Deque.wf { d with rb := d.rb.set d.head e, head := (d.head + 1) % d.cap } :=
    ⟨h2, by simpa using hl, Nat.mod_lt _ (by omega), ht⟩
  have hc' : Deque.count { d with rb := d.rb.set d.head e, head := (d.head + 1) % d.cap } = d.count + 1 := by
    refine count_of_head hw' hroom ?_
    simp only []
    rw [← hhd, Nat.mod_add_mod, Nat.add_assoc]
  refine ⟨{ d with rb := d.rb.set d.head e, head := (d.head + 1) % d.cap }, by rw [Deque.pushFront, if_neg hfree], hw', rfl, ?_⟩
  rw [stack_eq_iff]
  refine ⟨by rw [hc']; simp, fun i hi => ?_⟩
  simp only [List.length_append, stack_length, List.length_singleton] at hi
  refine (slot_set d d.head e ((d.head + 1) % d.cap) d.tail ((d.tail + i) % d.cap) (by omega)).trans ?_
  rw [List.getElem_append]
  by_cases hi' : i < d.count
  · rw [dif_pos (by simpa using hi'), stack_getElem, if_neg]
    rw [← hhd, wrap_eq ht (by omega), wrap_eq ht (by omega)]
    split <;> split <;> omega
  · have : i = d.count := by omega
    subst this
    rw [dif_neg (by simp), if_pos hhd]
    simp

/-- `push_front` on a full deque raises StackFull (40_deque.md R112). -/
theorem pushFront_full {d : Deque} (hfull : d.cap - 1 ≤ d.count) (e : Entry) : d.pushFront e = .error .stackFull := by
  rw [Deque.pushFront, if_pos]; unfold Deque.free; omega

/-- `push_back` on a deque with room prepends the entry (40_deque.md R113). -/
theorem pushBack_spec {d : Deque} (h : d.wf) (hroom : d.count + 1 < d.cap) (e : Entry) :
    ∃ d', d.pushBack e = .ok d' ∧ d'.wf ∧ d'.cap = d.cap ∧ d'.stack = e :: d.stack := by
  have hw := h
  obtain ⟨h2, hl, hh, ht⟩ := h
  have hc := count_eq hw
  have hp := wrap_pred ht
  have hlt : (d.tail + d.cap - 1) % d.cap < d.cap := Nat.mod_lt _ (by omega)
  have hw' : Deque.wf { d with rb := d.rb.set ((d.tail + d.cap - 1) % d.cap) e, tail := (d.tail + d.cap - 1) % d.cap } :=
    ⟨h2, by simpa using hl, hh, hlt⟩
  have hfree : ¬ d.free < 1 := by unfold Deque.free; omega
  refine ⟨_, by rw [Deque.pushBack, if_neg hfree], hw', rfl, ?_⟩
  rw [stack_eq_iff]
  have hc' : Deque.count { d with rb := d.rb.set ((d.tail + d.cap - 1) % d.cap) e, tail := (d.tail + d.cap - 1) % d.cap }
      = d.count + 1 := by
    refine count_of_head hw' hroom ?_
    simp only []
    have hhd := head_of_count hw
    rw [wrap_eq ht (by omega)] at hhd
    rw [wrap_eq hlt (by omega), hp]
    split at hhd <;> split <;> split <;> omega
  refine ⟨by rw [hc']; simp, fun i hi => ?_⟩
  simp only [List.length_cons, stack_length] at hi
  refine (slot_set d _ e d.head ((d.tail + d.cap - 1) % d.cap) _ (by omega)).trans ?_
  simp only []
  rw [wrap_eq hlt (by omega)]
  rcases i with _ | i
  · simp; omega
  · rw [List.getElem_cons_succ, stack_getElem, wrap_eq ht (by omega), if_neg]
    · congr 1
      rw [hp]; split <;> split <;> split <;> omega
    · rw [hp]; split <;> split <;> omega

/-- `pop_front` on a deque whose top is `e` gives `e` and leaves the rest; pushing `e` back gives the same deque again,
cursors and slots included (40_deque.md R114, 42_binary.md R164). -/
theorem popFront_spec {d : Deque} (h : d.wf) {S : List Entry} {e : Entry} (hS : d.stack = S ++ [e]) :
    ∃ d', d.popFront = .ok (e, d') ∧ d'.wf ∧ d'.cap = d.cap ∧ d'.stack = S ∧ d'.pushFront e = .ok d := by
  have hw := h
  obtain ⟨h2, hl, hh, ht⟩ := h
  have hc := count_eq hw
  have hp := wrap_pred hh
  have hlt : (d.head + d.cap - 1) % d.cap < d.cap := Nat.mod_lt _ (by omega)
  obtain ⟨hn, hs⟩ := stack_eq_iff.1 hS
  simp only [List.length_append, List.length_singleton] at hn hs
  have hcl := count_lt hw
  have hw' : Deque.wf { d with head := (d.head + d.cap - 1) % d.cap } := ⟨h2, hl, hlt, ht⟩
  have hc' : Deque.count { d with head := (d.head + d.cap - 1) % d.cap } = S.length := by
    rw [count_eq hw']
    simp only []
    rw [hp]
    rw [hc] at hn
    split at hn <;> split <;> split <;> omega
  have htop : d.slot ((d.head + d.cap - 1) % d.cap) = e := by
    have := hs S.length (by omega)
    rw [List.getElem_append_right (by omega)] at this
    simp only [Nat.sub_self, List.getElem_singleton] at this
    rw [← this]
    congr 1
    rw [hp, wrap_eq ht (by omega)]
    rw [hc] at hn
    split at hn <;> split <;> split <;> omega
  refine ⟨_, by rw [Deque.popFront, if_neg (by omega), htop], hw', rfl, ?_, ?_⟩
  · rw [stack_eq_iff]
    refine ⟨hc', fun i hi => ?_⟩
    have := hs i (by omega)
    rw [List.getElem_append_left hi] at this
    exact this
  · have hfree : ¬ Deque.free { d with head := (d.head + d.cap - 1) % d.cap } < 1 := by
      unfold Deque.free; rw [hc']; simp only []; omega
    rw [Deque.pushFront, if_neg hfree]
    have e1 : ((d.head + d.cap - 1) % d.cap + 1) % d.cap = d.head := by
      rw [wrap_eq hlt (by omega), hp]; split <;> split <;> omega
    have e2 : d.rb.set ((d.head + d.cap - 1) % d.cap) e = d.rb := by
      rw [← htop]
      refine List.ext_getElem (by simp) fun i h1 h2 => ?_
      rw [List.getElem_set]
      split
      · subst_vars; unfold Deque.slot; simp [List.getD_eq_getElem?_getD, h2]
      · rfl
    simp only [e1, e2]

/-- `pop_front` on an empty deque raises StackEmpty (40_deque.md R114). -/
theorem popFront_empty {d : Deque} (h : d.count = 0) : d.popFront = .error .stackEmpty := by
  rw [Deque.popFront, if_pos (by omega)]

/-- `pop_back` on a deque whose bottom is `e` gives `e` and leaves the rest (40_deque.md R115). -/
theorem popBack_spec {d : Deque} (h : d.wf) {S : List Entry} {e : Entry} (hS : d.stack = e :: S) :
    ∃ d', d.popBack = .ok (e, d') ∧ d'.wf ∧ d'.cap = d.cap ∧ d'.stack = S := by
  have hw := h
  obtain ⟨h2, hl, hh, ht⟩ := h
  have hc := count_eq hw
  have hlt : (d.tail + 1) % d.cap < d.cap := Nat.mod_lt _ (by omega)
  obtain ⟨hn, hs⟩ := stack_eq_iff.1 hS
  simp only [List.length_cons] at hn hs
  have hcl := count_lt hw
  have hw' : Deque.wf { d with tail := (d.tail + 1) % d.cap } := ⟨h2, hl, hh, hlt⟩
  have hc' : Deque.count { d with tail := (d.tail + 1) % d.cap } = S.length := by
    rw [count_eq hw']
    simp only []
    rw [wrap_eq ht (by omega)]
    rw [hc] at hn
    split at hn <;> split <;> split <;> omega
  have hbot : d.slot d.tail = e := by
    have := hs 0 (by omega)
    simpa [Nat.mod_eq_of_lt ht] using this
  refine ⟨_, by rw [Deque.popBack, if_neg (by omega), hbot], hw', rfl, ?_⟩
  rw [stack_eq_iff]
  refine ⟨hc', fun i hi => ?_⟩
  have := hs (i + 1) (by omega)
  rw [List.getElem_cons_succ] at this
  rw [← this]
  change d.slot _ = d.slot _
  congr 1
  simp only []
  rw [wrap_eq hlt (by omega), wrap_eq ht (by omega), wrap_eq ht (by omega)]
  split <;> split <;> split <;> omega

/-- The slot a depth names. -/
theorem depthSlot {d : Deque} (h : d.wf) {k : Nat} (hk : 1 ≤ k) (hkc : k ≤ d.count) :
    d.indexSlot (-(k : Int)) = .ok ((d.tail + (d.count - k)) % d.cap) := by
  have hcl := count_lt h
  have hc := count_eq h
  obtain ⟨h2, hl, hh, ht⟩ := h
  rw [Deque.indexSlot, if_neg (by omega), if_neg (by omega)]
  congr 1
  have h1 : (- -(k : Int)).toNat = k := by omega
  have h3 : d.head + d.cap - k = d.head + (d.cap - k) := by omega
  rw [h1, h3, wrap_eq hh (by omega), wrap_eq ht (by omega)]
  rw [hc] at hkc ⊢
  split at hkc <;> split <;> split <;> omega

/-- `D(k)` is the entry of the stack `k` places from its end (40_deque.md R119, R125). -/
theorem depth_spec {d : Deque} (h : d.wf) {k : Nat} (hk : 1 ≤ k) (hkc : k ≤ d.count) :
    d.depth k = .ok (d.stack[d.count - k]'(by simp; omega)) := by
  rw [Deque.depth, Deque.get, depthSlot h hk hkc]
  simp only []
  rw [stack_getElem]

/-- A depth outside `[1, count]` that is positive raises IndexOutOfRange (40_deque.md R119). -/
theorem depth_above {d : Deque} {k : Nat} (hk : d.count < k) : d.depth k = .error .indexOutOfRange := by
  rw [Deque.depth, Deque.get, Deque.indexSlot, if_neg (by omega), if_pos (by omega)]

/-- Index get on a well-formed deque reads the logical stack, from the bottom for `i >= 0`, from the top for `i < 0`
(40_deque.md R119). -/
theorem get_spec {d : Deque} (h : d.wf) (i : Int) :
    d.get i = if hi : 0 ≤ i ∧ i < d.count then .ok (d.stack[i.toNat]'(by simp; omega))
      else if hi : i < 0 ∧ -i ≤ d.count then .ok (d.stack[d.count - (-i).toNat]'(by simp; omega))
      else .error .indexOutOfRange := by
  by_cases h1 : 0 ≤ i ∧ i < d.count
  · rw [dif_pos h1, Deque.get, Deque.indexSlot, if_pos h1.1, if_neg (by omega)]
    simp only []; rw [stack_getElem]
  · rw [dif_neg h1]
    by_cases h2 : i < 0 ∧ -i ≤ d.count
    · rw [dif_pos h2]
      have := depth_spec h (k := (-i).toNat) (by omega) (by omega)
      rw [Deque.depth] at this
      have e : -(((-i).toNat : Nat) : Int) = i := by omega
      rw [e] at this
      exact this
    · rw [dif_neg h2, Deque.get, Deque.indexSlot]
      by_cases h0 : 0 ≤ i
      · rw [if_pos h0, if_pos (by omega)]
      · rw [if_neg h0, if_pos (by omega)]

/-- `set(-k, e)` replaces the entry at depth `k` (40_deque.md R120). -/
theorem setDepth_spec {d : Deque} (h : d.wf) {k : Nat} (hk : 1 ≤ k) (hkc : k ≤ d.count) (e : Entry) :
    ∃ d', d.set (-(k : Int)) e = .ok d' ∧ d'.wf ∧ d'.cap = d.cap ∧ d'.stack = d.stack.set (d.count - k) e := by
  have hw := h
  have hcl := count_lt h
  obtain ⟨h2, hl, hh, ht⟩ := h
  rw [Deque.set, depthSlot hw hk hkc]
  refine ⟨_, rfl, ⟨h2, by simpa using hl, hh, ht⟩, rfl, ?_⟩
  rw [stack_eq_iff]
  refine ⟨by simp only [List.length_set, stack_length]; rfl, fun i hi => ?_⟩
  simp only [List.length_set, stack_length] at hi
  have hlt : (d.tail + (d.count - k)) % d.cap < d.cap := Nat.mod_lt _ (by omega)
  refine (slot_set d _ e d.head d.tail _ (by omega)).trans ?_
  simp only []
  rw [List.getElem_set, stack_getElem]
  rw [wrap_eq ht (by omega), wrap_eq ht (by omega)]
  by_cases hik : d.count - k = i
  · subst hik; simp
  · rw [if_neg hik, if_neg]
    split <;> split <;> omega

/-- `enumerate_lifo(n)` is the top `n` entries, top first (40_deque.md R122). -/
theorem enumerateLifo_spec {d : Deque} (h : d.wf) (n : Int) : d.enumerateLifo n = d.stack.reverse.take n.toNat := by
  have hcl := count_lt h
  have hc := count_eq h
  obtain ⟨h2, hl, hh, ht⟩ := h
  refine List.ext_getElem (by simp [Deque.enumerateLifo]) fun i h1 h2 => ?_
  simp only [Deque.enumerateLifo, List.length_map, List.length_range] at h1
  simp only [Deque.enumerateLifo, List.getElem_map, List.getElem_range, List.getElem_take, List.getElem_reverse,
    stack_getElem, stack_length]
  congr 1
  have h3 : d.head + d.cap - 1 - i = d.head + (d.cap - 1 - i) := by omega
  rw [h3, wrap_eq hh (by omega), wrap_eq ht (by omega)]
  rw [hc] at h1 ⊢
  split at h1 <;> split <;> split <;> omega

/-- `enumerate_fifo(n)` is the bottom `n` entries, bottom first (40_deque.md R121). -/
theorem enumerateFifo_spec (d : Deque) (n : Int) : d.enumerateFifo n = d.stack.take n.toNat := by
  refine List.ext_getElem (by simp [Deque.enumerateFifo]) fun i h1 h2 => ?_
  simp [Deque.enumerateFifo, stack_getElem]

/-- `clear` empties the stack (40_deque.md R118). -/
theorem clear_spec {d : Deque} (h : d.wf) : d.clear.wf ∧ d.clear.cap = d.cap ∧ d.clear.stack = [] := by
  obtain ⟨h2, hl, hh, ht⟩ := h
  refine ⟨⟨h2, hl, ?_, ?_⟩, rfl, ?_⟩
  · simp only [Deque.clear]; omega
  · simp only [Deque.clear]; omega
  · simp [Deque.clear, Deque.stack, Deque.count]

/-- A new deque is empty (70_reset_and_hazards.md R340). -/
theorem new_spec {cap : Nat} (h : 2 ≤ cap) : (Deque.new cap).wf ∧ (Deque.new cap).cap = cap ∧ (Deque.new cap).stack = [] := by
  refine ⟨⟨h, by simp [Deque.new], ?_, ?_⟩, rfl, ?_⟩
  · simp only [Deque.new]; omega
  · simp only [Deque.new]; omega
  · simp [Deque.new, Deque.stack, Deque.count]

theorem writeFrom_length (cap t : Nat) (es : List Entry) :
    ∀ (i : Nat) (rb : List Entry), (Deque.writeFrom cap t i es rb).length = rb.length := by
  induction es with
  | nil => intro i rb; rfl
  | cons e es ih => intro i rb; rw [Deque.writeFrom, ih]; simp

/-- A slot after a run of entries was written from slot `t + i0` on. -/
theorem writeFrom_getD {cap t : Nat} (ht : t < cap) (es : List Entry) :
    ∀ (i0 : Nat) (rb : List Entry) (j : Nat), rb.length = cap → i0 + es.length < cap → j < cap →
      (Deque.writeFrom cap t i0 es rb).getD ((t + j) % cap) Entry.blank
        = if h : i0 ≤ j ∧ j < i0 + es.length then es[j - i0]'(by omega) else rb.getD ((t + j) % cap) Entry.blank := by
  induction es with
  | nil => intro i0 rb j hl hi hj; rw [dif_neg (by simp)]; rfl
  | cons e es ih =>
    intro i0 rb j hl hi hj
    simp only [List.length_cons] at hi ⊢
    rw [Deque.writeFrom, ih (i0 + 1) _ j (by simpa using hl) (by omega) hj]
    by_cases h1 : i0 + 1 ≤ j ∧ j < i0 + 1 + es.length
    · rw [dif_pos h1, dif_pos (by omega)]
      rw [List.getElem_cons, dif_neg (by omega)]
      congr 1
    · rw [dif_neg h1]
      have hi0 : (t + i0) % cap < rb.length := by rw [hl]; exact Nat.mod_lt _ (by omega)
      by_cases h2 : j = i0
      · subst h2
        rw [dif_pos (by omega)]
        simp [List.getD_eq_getElem?_getD, hi0]
      · rw [dif_neg (by omega)]
        have hne : (t + i0) % cap ≠ (t + j) % cap := by
          rw [wrap_eq ht (by omega), wrap_eq ht (by omega)]; split <;> split <;> omega
        simp [List.getD_eq_getElem?_getD, hne]

/-- `S <- es` from slot `t` on: the new stack is `es` (44_stack.md R247, 45_convert.md R270). -/
theorem load_spec {d : Deque} (h : d.wf) {t : Nat} (ht : t < d.cap) {es : List Entry} (hn : es.length < d.cap) :
    (d.load t es).wf ∧ (d.load t es).cap = d.cap ∧ (d.load t es).stack = es := by
  obtain ⟨h2, hl, hh, _⟩ := h
  have hw : (d.load t es).wf :=
    ⟨h2, by simpa [Deque.load, writeFrom_length] using hl, by simp only [Deque.load]; exact Nat.mod_lt _ (by omega), ht⟩
  refine ⟨hw, rfl, ?_⟩
  rw [stack_eq_iff]
  constructor
  · exact count_of_head hw hn rfl
  · intro i hi
    have := writeFrom_getD ht es 0 d.rb i hl (by omega) (by omega)
    rw [dif_pos (by omega)] at this
    simpa [Deque.slot, Deque.load] using this

/-- `pushAll` on a deque with room for all of `es` appends them in order. -/
theorem pushAll_spec (es : List Entry) : ∀ {d : Deque}, d.wf → d.count + es.length < d.cap →
    ∃ d', d.pushAll es = .ok d' ∧ d'.wf ∧ d'.cap = d.cap ∧ d'.stack = d.stack ++ es := by
  induction es with
  | nil => intro d h _; exact ⟨d, rfl, h, rfl, by simp⟩
  | cons e es ih =>
    intro d h hn
    simp only [List.length_cons] at hn
    obtain ⟨d1, h1, hw1, hc1, hs1⟩ := pushFront_spec h (by omega) e
    have hcount : d1.count = d.count + 1 := by
      have := congrArg List.length hs1; simpa using this
    obtain ⟨d2, h2, hw2, hc2, hs2⟩ := ih hw1 (by omega)
    exact ⟨d2, by rw [Deque.pushAll, h1]; exact h2, hw2, by omega, by rw [hs2, hs1]; simp⟩

/-- `pop_front` repeated `n` times takes the top `n` entries off (44_stack.md R245). -/
theorem popTimes_spec : ∀ (n : Nat) {d : Deque}, d.wf → n ≤ d.count →
    ∃ d', Deque.popTimes n d = .ok d' ∧ d'.wf ∧ d'.cap = d.cap ∧ d'.stack = d.stack.take (d.count - n) := by
  intro n
  induction n with
  | zero => intro d h _; exact ⟨d, rfl, h, rfl, by rw [List.take_of_length_le (by simp)]⟩
  | succ n ih =>
    intro d h hn
    have hne : d.stack ≠ [] := by
      intro h0; have := congrArg List.length h0; simp at this; omega
    obtain ⟨d1, h1, hw1, hc1, hs1, -⟩ := popFront_spec h (List.dropLast_append_getLast hne).symm
    have hcount : d1.count = d.count - 1 := by
      have := congrArg List.length hs1; simpa using this
    obtain ⟨d2, h2, hw2, hc2, hs2⟩ := ih hw1 (by omega)
    refine ⟨d2, by rw [Deque.popTimes, h1]; exact h2, hw2, by omega, ?_⟩
    rw [hs2, hs1, List.dropLast_eq_take, List.take_take, hcount]
    congr 1
    simp; omega

/-- One move of `topToBottom` on a stack with top `e` (44_stack.md R246). -/
theorem topToBottom_spec : ∀ (n : Nat) {d : Deque}, d.wf → n ≤ d.count →
    ∃ d', Deque.topToBottom n d = .ok d' ∧ d'.wf ∧ d'.cap = d.cap
      ∧ d'.stack = d.stack.drop (d.count - n) ++ d.stack.take (d.count - n) := by
  have move : ∀ {d : Deque}, d.wf → ∀ {S : List Entry} {e : Entry}, d.stack = S ++ [e] → ∀ m,
      ∃ d', Deque.topToBottom (m + 1) d = Deque.topToBottom m d' ∧ d'.wf ∧ d'.cap = d.cap ∧ d'.stack = e :: S := by
    intro d h S e hS m
    obtain ⟨d1, h1, hw1, hc1, hs1, -⟩ := popFront_spec h hS
    have hlt := count_lt h
    have hn : d.count = S.length + 1 := by have := congrArg List.length hS; simpa using this
    have hn1 : d1.count = S.length := by have := congrArg List.length hs1; simpa using this
    obtain ⟨d2, h2, hw2, hc2, hs2⟩ := pushBack_spec hw1 (by omega) e
    exact ⟨d2, by rw [Deque.topToBottom, h1]; simp only [h2], hw2, by omega, by rw [hs2, hs1]⟩
  have main : ∀ (B : List Entry) {d : Deque}, d.wf → ∀ A, d.stack = A ++ B →
      ∃ d', Deque.topToBottom B.length d = .ok d' ∧ d'.wf ∧ d'.cap = d.cap ∧ d'.stack = B ++ A := by
    intro B
    induction B using List.reverseRecOn with
    | nil => intro d h A hA; exact ⟨d, rfl, h, rfl, by simpa using hA⟩
    | append_singleton B e ih =>
      intro d h A hA
      obtain ⟨d1, h1, hw1, hc1, hs1⟩ := move h (S := A ++ B) (e := e) (by simpa using hA) B.length
      obtain ⟨d2, h2, hw2, hc2, hs2⟩ := ih hw1 (e :: A) (by simpa using hs1)
      exact ⟨d2, by simp only [List.length_append, List.length_singleton]; rw [h1, h2], hw2, by omega,
        by rw [hs2]; simp⟩
  intro n d h hn
  obtain ⟨d', h1, h2, h3, h4⟩ := main (d.stack.drop (d.count - n)) h (d.stack.take (d.count - n)) (by simp)
  refine ⟨d', ?_, h2, h3, h4⟩
  rw [← h1]; congr 1; simp; omega

/-- The moves of `bottomToTop` (44_stack.md R246). -/
theorem bottomToTop_spec : ∀ (n : Nat) {d : Deque}, d.wf → n ≤ d.count →
    ∃ d', Deque.bottomToTop n d = .ok d' ∧ d'.wf ∧ d'.cap = d.cap ∧ d'.stack = d.stack.drop n ++ d.stack.take n := by
  have main : ∀ (A : List Entry) {d : Deque}, d.wf → ∀ B, d.stack = A ++ B →
      ∃ d', Deque.bottomToTop A.length d = .ok d' ∧ d'.wf ∧ d'.cap = d.cap ∧ d'.stack = B ++ A := by
    intro A
    induction A with
    | nil => intro d h B hB; exact ⟨d, rfl, h, rfl, by simpa using hB⟩
    | cons e A ih =>
      intro d h B hB
      obtain ⟨d1, h1, hw1, hc1, hs1⟩ := popBack_spec h (S := A ++ B) (e := e) (by simpa using hB)
      have hlt := count_lt h
      have hn : d.count = A.length + B.length + 1 := by
        have := congrArg List.length hB; simp at this; omega
      have hn1 : d1.count = A.length + B.length := by have := congrArg List.length hs1; simpa using this
      obtain ⟨d2, h2, hw2, hc2, hs2⟩ := pushFront_spec hw1 (by omega) e
      obtain ⟨d3, h3, hw3, hc3, hs3⟩ := ih hw2 (B ++ [e]) (by rw [hs2, hs1]; simp)
      exact ⟨d3, by rw [List.length_cons, Deque.bottomToTop, h1]; simp only [h2, h3], hw3, by omega, by rw [hs3]; simp⟩
  intro n d h hn
  obtain ⟨d', h1, h2, h3, h4⟩ := main (d.stack.take n) h (d.stack.drop n) (by simp)
  refine ⟨d', ?_, h2, h3, h4⟩
  rw [← h1]; congr 1; simp; omega

end Sys2Proof.Machine
end

