-- ==== Sys2Proof/Laws/Values.lean ====
section
/-! SUPPORT. Words as numbers: how a word of a slot reads as an unsigned and a signed integer, and how an exact integer
becomes the value of a slot. -/

namespace Sys2Proof.Machine

theorem widthBits_pos (w : Width) : 0 < widthBits w := by cases w <;> decide

theorem widthBits_ge (w : Width) : 8 ≤ widthBits w := by cases w <;> decide

theorem widthBits_le (w : Width) : widthBits w ≤ 128 := by cases w <;> decide

@[simp] theorem wordOf_toNat (s : State) (e : Entry) : (wordOf (widthBits s.width) e).toNat = s.uval e := by
  simp [wordOf]

@[simp] theorem wordOf_toInt (s : State) (e : Entry) : (wordOf (widthBits s.width) e).toInt = s.sval e := by
  have hp := widthBits_pos s.width
  rw [BitVec.toInt_eq_toNat_cond, wordOf_toNat, State.sval]
  have h2 : 2 ^ widthBits s.width = 2 * 2 ^ (widthBits s.width - 1) := by
    rw [← Nat.pow_succ']; congr 1; omega
  by_cases h : s.uval e < 2 ^ (widthBits s.width - 1)
  · rw [if_pos (by omega), if_pos h]
  · rw [if_neg (by omega), if_neg h]; push_cast; rfl

/-- The bits of a word are the slot's. -/
theorem wordOf_getLsbD {n : Nat} (e : Entry) {i : Nat} (hi : i < n) : (wordOf n e).getLsbD i = bitOf e i := by
  simp [wordOf, hi]

theorem slotValue_toNat {n : Nat} (h : n ≤ 128) (v : BitVec n) : (slotValue v).toNat = v.toNat := by
  have : v.toNat < 2 ^ 128 := lt_of_lt_of_le v.isLt (Nat.pow_le_pow_right (by decide) h)
  rw [slotValue, BitVec.toNat_setWidth, Nat.mod_eq_of_lt this]

/-- A word put into a slot is its unsigned value. -/
theorem slotValue_eq {n : Nat} (h : n ≤ 128) (v : BitVec n) : slotValue v = BitVec.ofNat 128 v.toNat := by
  apply BitVec.eq_of_toNat_eq
  rw [slotValue_toNat h, BitVec.toNat_ofNat, Nat.mod_eq_of_lt]
  exact lt_of_lt_of_le v.isLt (Nat.pow_le_pow_right (by decide) h)

theorem slotValue_ofInt {n : Nat} (h : n ≤ 128) (z : Int) : slotValue (BitVec.ofInt n z) = wrapped n z := by
  rw [slotValue_eq h, wrapped, BitVec.toNat_ofInt]; norm_cast

theorem slotValue_ofNat {n : Nat} (h : n ≤ 128) (m : Nat) : slotValue (BitVec.ofNat n m) = wrapped n m := by
  rw [slotValue_eq h, wrapped, BitVec.toNat_ofNat]; norm_cast

/-- A slot's word, put back, is its value modulo the width. -/
theorem slotValue_wordOf (s : State) (e : Entry) :
    slotValue (wordOf (widthBits s.width) e) = BitVec.ofNat 128 (s.uval e) := by
  rw [slotValue_eq (widthBits_le _), wordOf_toNat]

/-- The value of a slot written from a word fits the width. -/
theorem slotValue_lt {n : Nat} (h : n ≤ 128) (v : BitVec n) : (slotValue v).toNat < 2 ^ n := by
  rw [slotValue_toNat h]; exact v.isLt

/-- Reading back what a word was written as. -/
theorem wordOf_slotValue {n : Nat} (h : n ≤ 128) (v : BitVec n) (c a : Comment) :
    wordOf n { val := slotValue v, cmt := c, alt := a } = v := by
  apply BitVec.eq_of_toNat_eq
  simp only [wordOf, BitVec.toNat_setWidth, slotValue_toNat h]
  exact Nat.mod_eq_of_lt v.isLt

theorem uval_lt (s : State) (e : Entry) : s.uval e < 2 ^ widthBits s.width := Nat.mod_lt _ (by positivity)

/-- The five widths by their code (10_state.md R31). -/
theorem widthOfCode_spec (wc : BitVec 3) :
    widthOfCode wc = none ∧ 4 < wc.toNat ∨ ∃ w, widthOfCode wc = some w ∧ wc.toNat ≤ 4 ∧ widthBits w = 8 * 2 ^ wc.toNat
      ∧ widthCode w = wc := by
  revert wc; decide

end Sys2Proof.Machine
end

