-- ==== Sys2Proof/Laws/Exec.lean ====
section
/-! SUPPORT. What the shared sequences of the meanings can do, said once each: the common sequence of the binary, unary and
stack commands, and taking an error with the popped entries restored. -/

namespace Sys2Proof.Machine

/-- A stack with at least one entry, top last. -/
theorem stack_top {d : Deque} (h : 1 ≤ d.count) : ∃ S e, d.stack = S ++ [e] := by
  have hne : d.stack ≠ [] := by intro h0; have := congrArg List.length h0; simp at this; omega
  exact ⟨_, _, (List.dropLast_append_getLast hne).symm⟩

/-- A stack with at least two entries, the operands of a binary command. -/
theorem stack_top_two {d : Deque} (h : 2 ≤ d.count) : ∃ S a b, d.stack = S ++ [a, b] := by
  obtain ⟨S, b, hb⟩ := stack_top (d := d) (by omega)
  have hl : S.length + 1 = d.count := by have := congrArg List.length hb; simpa using this.symm
  have hne : S ≠ [] := by rintro rfl; simp at hl; omega
  refine ⟨S.dropLast, S.getLast hne, b, ?_⟩
  rw [hb]
  conv_lhs => rw [← List.dropLast_append_getLast hne]
  simp

theorem count_of_stack {d : Deque} {S : List Entry} (h : d.stack = S) : d.count = S.length := by
  rw [← h]; simp

/-- Restoring the one popped entry and raising is raising in the state before the pop (60_exceptions.md R314). -/
theorem raiseRestoring_one {s : State} {d : Deque} {e : Entry} (h : d.pushFront e = .ok s.dq) (x : Err) :
    s.raiseRestoring d [e] x = s.raise x := by
  simp [State.raiseRestoring, Deque.pushAll, h]

/-- Restoring the two popped operands and raising is raising in the state before the pops (42_binary.md R164). -/
theorem raiseRestoring_two {s : State} {d1 d2 : Deque} {a b : Entry} (h2 : d2.pushFront a = .ok d1)
    (h1 : d1.pushFront b = .ok s.dq) (x : Err) : s.raiseRestoring d2 [a, b] x = s.raise x := by
  simp [State.raiseRestoring, Deque.pushAll, h2, h1]

/-- Taking an error changes the response only. -/
theorem raise_eq (s : State) (x : Err) : s.raise x = { s with resp := { Response.blank with status := errCode x } } := rfl

/-! ## Binary commands -/

theorem execBinary_short {s : State} (h : s.dq.count < 2) (op) :
    execBinary op s = .next (s.raise .insufficientOperands) := by
  rw [execBinary, if_pos h]

/-- The two pops of a binary command. -/
theorem popTwo {d : Deque} (h : d.wf) {S : List Entry} {a b : Entry} (hS : d.stack = S ++ [a, b]) :
    ∃ d1 d2, d.popFront = .ok (b, d1) ∧ d1.popFront = .ok (a, d2) ∧ d2.wf ∧ d2.cap = d.cap ∧ d2.stack = S
      ∧ d2.pushFront a = .ok d1 ∧ d1.pushFront b = .ok d := by
  obtain ⟨d1, p1, w1, c1, s1, r1⟩ := popFront_spec h (S := S ++ [a]) (e := b) (by simpa using hS)
  obtain ⟨d2, p2, w2, c2, s2, r2⟩ := popFront_spec w1 s1
  exact ⟨d1, d2, p1, p2, w2, by omega, s2, r2, r1⟩

/-- A binary command whose operation fails leaves the state before it, with the error's response (42_binary.md R160,
R164). -/
theorem execBinary_error {s : State} (h : s.dq.wf) {S : List Entry} {a b : Entry} (hS : s.dq.stack = S ++ [a, b])
    {op : (n : Nat) → BitVec n → BitVec n → AluResult n} {x : Err}
    (hop : op (widthBits s.width) (wordOf _ a) (wordOf _ b) = .error x) : execBinary op s = .next (s.raise x) := by
  obtain ⟨d1, d2, p1, p2, -, -, -, r2, r1⟩ := popTwo h hS
  have hc : ¬ s.dq.count < 2 := by rw [count_of_stack hS]; simp
  simp only [execBinary, if_neg hc, p1, p2, hop, raiseRestoring_two r2 r1]

/-- A binary command whose operation succeeds replaces its two operands by the result (42_binary.md R160, R163). -/
theorem execBinary_ok {s : State} (h : s.dq.wf) {S : List Entry} {a b : Entry} (hS : s.dq.stack = S ++ [a, b])
    {op : (n : Nat) → BitVec n → BitVec n → AluResult n} {r : BitVec (widthBits s.width)} {f : Flags}
    (hop : op (widthBits s.width) (wordOf _ a) (wordOf _ b) = .ok (r, f)) :
    ∃ d, execBinary op s = .next ((s.withDeque d).respond { Response.blank with flags := flagBits f }) ∧ d.wf
      ∧ d.cap = s.dq.cap ∧ d.stack = S ++ [resultEntry (slotValue r) a b] := by
  obtain ⟨d1, d2, p1, p2, w2, c2, s2, -, -⟩ := popTwo h hS
  have hc : ¬ s.dq.count < 2 := by rw [count_of_stack hS]; simp
  have hlt := count_lt h
  rw [count_of_stack hS] at hlt
  simp only [List.length_append, List.length_cons, List.length_nil] at hlt
  obtain ⟨d3, p3, w3, c3, s3⟩ := pushFront_spec w2 (by rw [count_of_stack s2]; omega) (resultEntry (slotValue r) a b)
  refine ⟨d3, ?_, w3, by omega, by rw [s3, s2]⟩
  rw [resultEntry] at p3
  simp only [execBinary, if_neg hc, p1, p2, hop, p3]

/-- Everything a binary command can answer on a well-formed deque. -/
theorem execBinary_cases {s : State} (h : s.dq.wf) (op : (n : Nat) → BitVec n → BitVec n → AluResult n) :
    (∃ x, execBinary op s = .next (s.raise x)
        ∧ (x = .insufficientOperands ∨ ∃ a b, op (widthBits s.width) (wordOf _ a) (wordOf _ b) = .error x))
    ∨ ∃ S a b r f d, s.dq.stack = S ++ [a, b] ∧ op (widthBits s.width) (wordOf _ a) (wordOf _ b) = .ok (r, f)
        ∧ execBinary op s = .next ((s.withDeque d).respond { Response.blank with flags := flagBits f }) ∧ d.wf
        ∧ d.cap = s.dq.cap ∧ d.stack = S ++ [resultEntry (slotValue r) a b] := by
  by_cases hc : s.dq.count < 2
  · exact .inl ⟨_, execBinary_short hc op, .inl rfl⟩
  · obtain ⟨S, a, b, hS⟩ := stack_top_two (d := s.dq) (by omega)
    cases hop : op (widthBits s.width) (wordOf _ a) (wordOf _ b) with
    | error x => exact .inl ⟨x, execBinary_error h hS hop, .inr ⟨a, b, hop⟩⟩
    | ok rf =>
      obtain ⟨d, hd⟩ := execBinary_ok h hS (op := op) (r := rf.1) (f := rf.2) hop
      exact .inr ⟨S, a, b, rf.1, rf.2, d, hS, hop, hd⟩

/-! ## Unary commands -/

theorem execUnary_short {s : State} (h : s.dq.count < 1) (op) :
    execUnary op s = .next (s.raise .insufficientOperands) := by
  rw [execUnary, if_pos h]

/-- A unary command whose operation fails leaves the state before it (43_unary.md R220, R229). -/
theorem execUnary_error {s : State} (h : s.dq.wf) {S : List Entry} {e : Entry} (hS : s.dq.stack = S ++ [e])
    {op : (n : Nat) → BitVec n → Except Err (BitVec n)} {x : Err}
    (hop : op (widthBits s.width) (wordOf _ e) = .error x) : execUnary op s = .next (s.raise x) := by
  obtain ⟨d1, p1, -, -, -, r1⟩ := popFront_spec h hS
  have hc : ¬ s.dq.count < 1 := by rw [count_of_stack hS]; simp
  simp only [execUnary, if_neg hc, p1, hop, raiseRestoring_one r1]

/-- A unary command whose operation succeeds replaces its operand's value, both comments kept (43_unary.md R220). -/
theorem execUnary_ok {s : State} (h : s.dq.wf) {S : List Entry} {e : Entry} (hS : s.dq.stack = S ++ [e])
    {op : (n : Nat) → BitVec n → Except Err (BitVec n)} {r : BitVec (widthBits s.width)}
    (hop : op (widthBits s.width) (wordOf _ e) = .ok r) :
    ∃ d, execUnary op s = .next ((s.withDeque d).respond Response.blank) ∧ d.wf ∧ d.cap = s.dq.cap
      ∧ d.stack = S ++ [{ e with val := slotValue r }] := by
  obtain ⟨d1, p1, w1, c1, s1, -⟩ := popFront_spec h hS
  have hc : ¬ s.dq.count < 1 := by rw [count_of_stack hS]; simp
  have hlt := count_lt h
  rw [count_of_stack hS] at hlt
  simp only [List.length_append, List.length_cons, List.length_nil] at hlt
  obtain ⟨d2, p2, w2, c2, s2⟩ := pushFront_spec w1 (by rw [count_of_stack s1]; omega) { e with val := slotValue r }
  refine ⟨d2, ?_, w2, by omega, by rw [s2, s1]⟩
  simp only [execUnary, if_neg hc, p1, hop, p2]

/-- Everything a unary command can answer on a well-formed deque. -/
theorem execUnary_cases {s : State} (h : s.dq.wf) (op : (n : Nat) → BitVec n → Except Err (BitVec n)) :
    (∃ x, execUnary op s = .next (s.raise x)
        ∧ (x = .insufficientOperands ∨ ∃ e, op (widthBits s.width) (wordOf _ e) = .error x))
    ∨ ∃ S e r d, s.dq.stack = S ++ [e] ∧ op (widthBits s.width) (wordOf _ e) = .ok r
        ∧ execUnary op s = .next ((s.withDeque d).respond Response.blank) ∧ d.wf
        ∧ d.cap = s.dq.cap ∧ d.stack = S ++ [{ e with val := slotValue r }] := by
  by_cases hc : s.dq.count < 1
  · exact .inl ⟨_, execUnary_short hc op, .inl rfl⟩
  · obtain ⟨S, e, hS⟩ := stack_top (d := s.dq) (by omega)
    cases hop : op (widthBits s.width) (wordOf _ e) with
    | error x => exact .inl ⟨x, execUnary_error h hS hop, .inr ⟨e, hop⟩⟩
    | ok r =>
      obtain ⟨d, hd⟩ := execUnary_ok h hS (op := op) hop
      exact .inr ⟨S, e, r, d, hS, hop, hd⟩

/-! ## Stack commands -/

theorem execStack_short {s : State} (h : s.dq.count < 1) (op xi) :
    execStack op xi s = .next (s.raise .insufficientOperands) := by
  cases xi <;> simp only [execStack, if_pos h]

/-- A 32-bit word's signed value. -/
theorem native32_toNat (x : BitVec 32) : x.toInt = native32 x.toNat := by
  have := x.isLt
  rw [BitVec.toInt_eq_toNat_cond, native32, Nat.mod_eq_of_lt this]
  by_cases h : x.toNat < 2 ^ 31
  · rw [if_pos (by omega), if_pos h]
  · rw [if_neg (by omega), if_neg h]; norm_num

theorem native32_mod (n : Nat) : native32 (n % 2 ^ 32) = native32 n := by simp [native32]

/-- The explicit index is DATA's native integer (30_encoding.md R83). -/
theorem dataIndex_eq (data : BitVec 128) : dataIndex data = native32 data.toNat := by
  rw [dataIndex, native32_toNat, BitVec.toNat_setWidth]
  exact native32_mod _

/-- The popped index is the low 32 bits of the signed value (44_stack.md R241). -/
theorem nativeIndex_eq (s : State) (e : Entry) :
    nativeIndex (wordOf (widthBits s.width) e) = native32 (s.sval e % 2 ^ 32).toNat := by
  rw [nativeIndex, native32_toNat, BitVec.toNat_setWidth]
  refine (native32_mod _).trans ?_
  rw [← native32_mod]
  congr 1
  have h1 : ((wordOf (widthBits s.width) e).signExtend 128).toInt = s.sval e := by
    rw [BitVec.toInt_signExtend_of_le (widthBits_le _), wordOf_toInt]
  rw [← h1, BitVec.toInt_eq_toNat_cond]
  split <;> omega

/-- A stack command, either index form: the operation runs on the deque after any pop, whose stack is `S`. Its result
stands, or its error is raised in the state before the command (44_stack.md R240, R242, R243). -/
theorem execStack_spec {s : State} (h : s.dq.wf) {xi : Bool} {S : List Entry} {idx : Int} {arg : Option Entry}
    (hi : IndexedBy xi s S idx arg) :
    ∃ d0, d0.wf ∧ d0.cap = s.dq.cap ∧ d0.stack = S ∧ ∀ op : StackOp,
      (∀ d, op idx arg d0 = .ok d → execStack op xi s = .next ((s.withDeque d).respond Response.blank))
      ∧ (∀ x, op idx arg d0 = .error x → execStack op xi s = .next (s.raise x)) := by
  cases xi with
  | true =>
    obtain ⟨hS, hne, rfl, rfl⟩ := hi
    have hc : ¬ s.dq.count < 1 := by
      rw [count_of_stack hS]; have := List.length_pos_iff.2 hne; omega
    refine ⟨s.dq, h, rfl, hS, fun op => ⟨fun d hd => ?_, fun x hx => ?_⟩⟩
    · rw [← dataIndex_eq] at hd; simp only [execStack, if_neg hc, hd]
    · rw [← dataIndex_eq] at hx; simp only [execStack, if_neg hc, hx]
  | false =>
    obtain ⟨g, hS, rfl, rfl⟩ := hi
    have hc : ¬ s.dq.count < 1 := by rw [count_of_stack hS]; simp
    obtain ⟨d1, p1, w1, c1, s1, r1⟩ := popFront_spec h hS
    refine ⟨d1, w1, c1, s1, fun op => ⟨fun d hd => ?_, fun x hx => ?_⟩⟩
    · rw [← nativeIndex_eq] at hd; simp only [execStack, if_neg hc, p1, hd]
    · rw [← nativeIndex_eq] at hx; simp only [execStack, if_neg hc, p1, hx, raiseRestoring_one r1]

/-- On a stack with an entry, a stack command has an index. -/
theorem exists_indexedBy {s : State} (h : 1 ≤ s.dq.count) (xi : Bool) : ∃ S idx arg, IndexedBy xi s S idx arg := by
  cases xi with
  | true =>
    refine ⟨s.dq.stack, _, none, rfl, ?_, rfl, rfl⟩
    intro h0; have := congrArg List.length h0; simp at this; omega
  | false =>
    obtain ⟨S, e, hS⟩ := stack_top h
    exact ⟨S, _, some e, e, hS, rfl, rfl⟩

end Sys2Proof.Machine
end

