-- ==== Sys2Proof/Laws/Parse.lean ====
section
/-! SUPPORT. The literal parser: what each step of 46_parse.md R282 can do, said once, and PARSE in terms of them. -/

namespace Sys2Proof.Machine

/-! ## Trimming -/

theorem isWhitespace_iff (ch : Byte) : isWhitespace ch = true ↔ ch = 0x20#8 ∨ (0x09 ≤ ch.toNat ∧ ch.toNat ≤ 0x0D) := by
  simp [isWhitespace, or_comm]

theorem blank_nil : Blank [] := fun _ h => absurd h List.not_mem_nil

theorem blank_singleton {ch : Byte} : Blank [ch] ↔ ch = 0x20#8 ∨ (0x09 ≤ ch.toNat ∧ ch.toNat ≤ 0x0D) :=
  List.forall_mem_singleton

theorem dropWhile_blank_append {ws : Bytes} (h : Blank ws) (x : Bytes) :
    (ws ++ x).dropWhile isWhitespace = x.dropWhile isWhitespace := by
  induction ws with
  | nil => rfl
  | cons ch ws ih =>
    rw [List.cons_append, List.dropWhile_cons_of_pos ((isWhitespace_iff ch).2 (h ch (by simp)))]
    exact ih fun c hc => h c (by simp [hc])

theorem dropWhile_solid {x : Bytes} (h : ∀ ch, x.head? = some ch → ¬ Blank [ch]) : x.dropWhile isWhitespace = x := by
  cases x with
  | nil => rfl
  | cons ch x => exact List.dropWhile_cons_of_neg fun hc => h ch rfl (blank_singleton.2 ((isWhitespace_iff ch).1 hc))

theorem blank_reverse {ws : Bytes} (h : Blank ws) : Blank ws.reverse := fun ch hc => h ch (by simpa using hc)

theorem blank_append {x y : Bytes} (hx : Blank x) (hy : Blank y) : Blank (x ++ y) := fun ch hc =>
  (List.mem_append.1 hc).elim (hx ch) (hy ch)

/-- Trimming takes the whitespace off both ends, and nothing else (46_parse.md R281). -/
theorem trim_spec {before x after : Bytes} (hb : Blank before) (ha : Blank after)
    (hx : ∀ ch, x.head? = some ch ∨ x.getLast? = some ch → ¬ Blank [ch]) : trim (before ++ x ++ after) = x := by
  have h1 : (before ++ (x ++ after)).dropWhile isWhitespace = if x = [] then [] else x ++ after := by
    rw [dropWhile_blank_append hb]
    split
    · next h => subst h; simpa using dropWhile_blank_append ha []
    · next h => exact dropWhile_solid fun ch hc => hx ch (.inl (by rwa [List.head?_append_of_ne_nil _ h] at hc))
  rw [trim, List.append_assoc, h1]
  split
  · next h => simp [h]
  · rw [List.reverse_append, dropWhile_blank_append (blank_reverse ha), dropWhile_solid, List.reverse_reverse]
    exact fun ch hc => hx ch (.inr (by simpa using hc))

theorem trim_blank {ws : Bytes} (h : Blank ws) : trim ws = [] := by
  simpa using trim_spec (x := []) h (after := []) blank_nil (by simp)

/-- Any bytes are whitespace, and then bytes that do not begin with it. -/
theorem exists_leading_blank (x : Bytes) :
    ∃ a y, x = a ++ y ∧ Blank a ∧ ∀ ch, y.head? = some ch → ¬ Blank [ch] := by
  induction x with
  | nil => exact ⟨[], [], rfl, blank_nil, by simp⟩
  | cons ch x ih =>
    by_cases h : Blank [ch]
    · obtain ⟨a, y, rfl, ha, hy⟩ := ih
      exact ⟨ch :: a, y, rfl, blank_append h ha, hy⟩
    · exact ⟨[], ch :: x, rfl, blank_nil, by rintro c ⟨⟩; exact h⟩

/-- Whitespace at the head of a token, where the token without spaces does not begin with whitespace, is spaces. -/
theorem dropSpaces_leading {a y : Bytes} (ha : Blank a)
    (h : ∀ ch, (dropSpaces (a ++ y)).head? = some ch → ¬ Blank [ch]) : dropSpaces (a ++ y) = dropSpaces y := by
  induction a with
  | nil => rfl
  | cons ch a ih =>
    by_cases hc : ch = 0x20#8
    · have e : dropSpaces (ch :: a ++ y) = dropSpaces (a ++ y) := by simp [dropSpaces, hc]
      rw [e] at h ⊢
      exact ih (fun c m => ha c (by simp [m])) h
    · exact absurd (fun c m => ha c (by simp_all)) (h ch (by simp [dropSpaces, hc]))

theorem dropSpaces_reverse (x : Bytes) : dropSpaces x.reverse = (dropSpaces x).reverse := by
  simp [dropSpaces, List.filter_reverse]

/-! ## Steps 1 to 4 -/

theorem splitEntry_none {t : Bytes} (h : ∀ ch ∈ t, isSeparator ch = false) : splitEntry t = (t, none, 0x00#8) := by
  rw [splitEntry, List.findIdx?_eq_none_iff.2 h]

theorem splitEntry_some {tok rest : Bytes} {sep : Byte} (h : ∀ ch ∈ tok, isSeparator ch = false)
    (hs : isSeparator sep = true) : splitEntry (tok ++ sep :: rest) = (tok, some (trim rest), sep) := by
  have e : (tok ++ sep :: rest).findIdx? isSeparator = some tok.length := by
    rw [List.findIdx?_append, List.findIdx?_eq_none_iff.2 h]; simp [List.findIdx?_cons, hs]
  simp [splitEntry, e, List.getD]

/-- The marker of a separator that was found, or of none (46_parse.md R282). -/
theorem separator_of {colon : Bool} : isSeparator (if colon then 0x3A#8 else 0x3B#8) = true := by cases colon <;> decide

theorem isSeparator_eq_false {ch : Byte} (h : ch ≠ 0x3B#8 ∧ ch ≠ 0x3A#8) : isSeparator ch = false := by
  simpa [isSeparator, ascii] using h

/-- PARSE reads a TEXT through its token without spaces, whatever whitespace stands around it (46_parse.md R281 to R286). -/
theorem parseEntry_entryText {text core : Bytes} {comment : Option (Bool × Bytes)} (h : EntryText text core comment)
    (n : Nat) (f : Radix) :
    parseEntry n f text
      = match parseToken n f core with
        | .error x => .error x
        | .ok v => .ok (some (v, (entryResponse 0 comment).rcmt0, (entryResponse 0 comment).marker)) := by
  obtain ⟨hne, hsep, hhead, before, tok, after, hb, ha, hf, hm⟩ := h
  have hd : dropSpaces tok = core := by rw [← hf]; rfl
  obtain ⟨a, y, rfl, hab, hy⟩ := exists_leading_blank tok
  have hdy : dropSpaces y = core := by
    rw [← dropSpaces_leading hab (by rw [hd]; exact hhead), hd]
  have hyne : y ≠ [] := by rintro rfl; exact hne hdy.symm
  have hysep : ∀ ch ∈ y, isSeparator ch = false := by
    intro ch hc
    by_cases h20 : ch = 0x20#8
    · subst h20; decide
    · exact isSeparator_eq_false (hsep ch (by rw [← hdy]; simp [dropSpaces, hc, h20]))
  have key : ∀ t, t ≠ [] → trim text = t → dropSpaces (splitEntry t).1 = core →
      (splitEntry t).2 = ((entryResponse 0 comment).rcmt0, (entryResponse 0 comment).marker) →
      parseEntry n f text
        = match parseToken n f core with
          | .error x => .error x
          | .ok v => .ok (some (v, (entryResponse 0 comment).rcmt0, (entryResponse 0 comment).marker)) := by
    intro t ht e e1 e2
    cases t with
    | nil => exact absurd rfl ht
    | cons ch t => rw [parseEntry, e]; simp only [e1, e2, hne, false_and, if_false] <;> cases parseToken n f core <;> rfl
  cases comment with
  | none =>
    obtain ⟨rfl, hlast⟩ := hm
    obtain ⟨c, z, hz, hcb, hzl⟩ := exists_leading_blank y.reverse
    have hyz : y = z.reverse ++ c.reverse := by rw [← List.reverse_append, ← hz, List.reverse_reverse]
    have hdz : dropSpaces z.reverse = core := by
      rw [dropSpaces_reverse, ← dropSpaces_leading (y := z) hcb, ← hz, dropSpaces_reverse, List.reverse_reverse, hdy]
      rw [← hz, dropSpaces_reverse, hdy]; simpa using hlast
    have hzne : z.reverse ≠ [] := by intro e; rw [e] at hdz; exact hne hdz.symm
    have hzs : ∀ ch ∈ z.reverse, isSeparator ch = false := fun ch hc => hysep ch (by rw [hyz]; simp at hc ⊢; simp [hc])
    refine key z.reverse hzne ?_ (by rw [splitEntry_none hzs]; exact hdz) (by rw [splitEntry_none hzs]; rfl)
    have e : before ++ (a ++ y) ++ after = (before ++ a) ++ z.reverse ++ (c.reverse ++ after) := by rw [hyz]; simp
    rw [e]
    refine trim_spec (blank_append hb hab) (blank_append (blank_reverse hcb) ha) ?_
    rintro ch (hc | hc)
    · exact hy ch (by rw [hyz, List.head?_append_of_ne_nil _ hzne]; exact hc)
    · exact hzl ch (by simpa using hc)
  | some p =>
    obtain ⟨colon, cm⟩ := p
    obtain ⟨hcm, gap, hg, htext⟩ := hm
    have hs := separator_of (colon := colon)
    have hnb : ¬ Blank [if colon then 0x3A#8 else 0x3B#8] := by cases colon <;> decide
    generalize hsv : (if colon then 0x3A#8 else 0x3B#8 : Byte) = sep at hs hnb htext
    subst htext
    have hfin : ∀ x, trim x = cm → splitEntry (y ++ sep :: x) = (y, some cm, sep) := fun x e => by
      rw [splitEntry_some hysep hs, e]
    have hres : ((some cm : Comment), sep) = ((entryResponse 0 (some (colon, cm))).rcmt0,
        (entryResponse 0 (some (colon, cm))).marker) := by rw [← hsv]; rfl
    by_cases hcn : cm = []
    · subst hcn
      have e := hfin [] rfl
      refine key (y ++ [sep]) (by simp) ?_ (by rw [e]; exact hdy) (by rw [e]; exact hres)
      have e : before ++ (a ++ y) ++ [sep] ++ gap ++ [] ++ after = (before ++ a) ++ (y ++ [sep]) ++ (gap ++ after) := by simp
      rw [e]
      refine trim_spec (blank_append hb hab) (blank_append hg ha) ?_
      rintro ch (hc | hc)
      · exact hy ch (by rwa [List.head?_append_of_ne_nil _ hyne] at hc)
      · simp at hc; exact hc ▸ hnb
    · have e := hfin (gap ++ cm) (by simpa using trim_spec hg (after := []) blank_nil hcm)
      refine key (y ++ sep :: (gap ++ cm)) (by simp) ?_ (by rw [e]; exact hdy) (by rw [e]; exact hres)
      have e : before ++ (a ++ y) ++ [sep] ++ gap ++ cm ++ after
          = (before ++ a) ++ (y ++ sep :: (gap ++ cm)) ++ after := by simp
      rw [e]
      refine trim_spec (blank_append hb hab) ha ?_
      rintro ch (hc | hc)
      · exact hy ch (by rwa [List.head?_append_of_ne_nil _ hyne] at hc)
      · refine hcm ch (.inr ?_)
        rw [show y ++ sep :: (gap ++ cm) = (y ++ sep :: gap) ++ cm by simp, List.getLast?_append_of_ne_nil _ hcn] at hc
        exact hc

/-! ## Steps 5 to 8 -/

/-- Step 5 takes one leading `-` (46_parse.md R287). -/
theorem takeSign_signed {neg : Bool} {body : Bytes} (h : neg = false → body.head? ≠ some 0x2D#8) :
    takeSign (signed neg body) = (neg, body) := by
  cases neg with
  | true => rfl
  | false =>
    cases body with
    | nil => rfl
    | cons ch rest => simpa [takeSign, signed, ascii] using h rfl

theorem radixOfLetter_iff (ch : Byte) (r : Nat) : radixOfLetter (lower ch) = some r ↔ (ch, r) ∈ radixLetters := by
  have h : ∀ ch : Byte, ∀ r ∈ radixOfLetter (lower ch), (ch, r) ∈ radixLetters := by decide
  have h' : ∀ p ∈ radixLetters, radixOfLetter (lower p.1) = some p.2 := by decide
  exact ⟨h ch r, h' (ch, r)⟩

theorem radixOfPair_iff (f : Radix) (c0 c1 : Byte) (r : Nat) :
    radixOfPair f (lower c0) (lower c1) = some r ↔ c0 = 0x30#8 ∧ (c1, r) ∈ prefixLetters f := by
  have h0 : ∀ c : Byte, lower c = ascii '0' ↔ c = 0x30#8 := by decide
  have h : ∀ c : Byte, ∀ r ∈ radixOfPair f (ascii '0') (lower c), (c, r) ∈ prefixLetters f := by cases f <;> decide
  have h' : ∀ p ∈ prefixLetters f, radixOfPair f (ascii '0') (lower p.1) = some p.2 := by cases f <;> decide
  by_cases e : c0 = 0x30#8
  · rw [(h0 c0).2 e]
    exact ⟨fun hr => ⟨e, h c1 r hr⟩, fun hr => h' (c1, r) hr.2⟩
  · have : lower c0 ≠ ascii '0' := fun hc => e ((h0 c0).1 hc)
    simp [radixOfPair, this, e]

/-- Step 6 finds a prefix exactly where there is one (46_parse.md R288). -/
theorem leadingRadix_iff (f : Radix) (body rest : Bytes) (r : Nat) :
    leadingRadix f body = some (r, rest) ↔ Prefixed f body r rest := by
  rcases body with _ | ⟨c0, _ | ⟨c1, _ | ⟨c2, x⟩⟩⟩
  · simp [leadingRadix, Prefixed]
  · simp [leadingRadix, Prefixed]
  · simp [leadingRadix, Prefixed]
  · have e : leadingRadix f (c0 :: c1 :: c2 :: x) = match radixOfPair f (lower c0) (lower c1) with
      | some r => some (r, c2 :: x)
      | none => none := rfl
    rw [e]
    constructor
    · intro h
      split at h
      · next q hq =>
        obtain ⟨rfl, hm⟩ := (radixOfPair_iff f c0 c1 q).1 hq
        cases h
        exact ⟨c1, hm, rfl, by simp⟩
      · cases h
    · rintro ⟨c, hm, h, -⟩
      cases h
      rw [(radixOfPair_iff f _ _ r).2 ⟨rfl, hm⟩]

theorem leadingRadix_none {f : Radix} {body : Bytes} (h : ∀ r x, ¬ Prefixed f body r x) : leadingRadix f body = none := by
  cases e : leadingRadix f body with
  | none => rfl
  | some p => exact absurd ((leadingRadix_iff f body p.2 p.1).1 e) (h _ _)

/-- Step 7 finds a suffix letter exactly where there is one (46_parse.md R289). -/
theorem trailingRadix_iff (body rest : Bytes) (r : Nat) :
    trailingRadix body = some (r, rest) ↔ ∃ letter, (letter, r) ∈ radixLetters ∧ body = rest ++ [letter] := by
  rcases List.eq_nil_or_concat body with rfl | ⟨y, c, rfl⟩
  · simp [trailingRadix]
  · have e : trailingRadix (y ++ [c]) = match radixOfLetter (lower c) with
      | some r => some (r, y)
      | none => none := by simp [trailingRadix] <;> rfl
    rw [List.concat_eq_append, e]
    constructor
    · intro h
      split at h
      · next q hq => cases h; exact ⟨c, (radixOfLetter_iff c r).1 hq, rfl⟩
      · cases h
    · rintro ⟨c', hm, h⟩
      obtain ⟨hy, hcc⟩ := List.append_inj' h rfl
      obtain rfl : c = c' := by simpa using hcc
      subst hy
      rw [(radixOfLetter_iff c r).2 hm]

/-- A prefix or a suffix decides the radix (46_parse.md R288, R289). -/
theorem chooseRadix_marked {f : Radix} {body rest : Bytes} {r : Nat} (h : Prefixed f body r rest ∨ Suffixed f body r rest) :
    chooseRadix f body = (r, rest) := by
  rcases h with h | ⟨h, hs⟩
  · rw [chooseRadix, (leadingRadix_iff f body rest r).2 h]
  · rw [chooseRadix, leadingRadix_none h, (trailingRadix_iff body rest r).2 hs]

/-- Without a prefix or suffix the default radix holds (46_parse.md R282, step 8). -/
theorem chooseRadix_unmarked {f : Radix} {body : Bytes} (h : Unmarked f body) :
    chooseRadix f body = (defaultRadix f, body) := by
  have e : trailingRadix body = none := by
    cases e : trailingRadix body with
    | none => rfl
    | some p => exact absurd ⟨h.1, (trailingRadix_iff body p.2 p.1).1 e⟩ (h.2 _ _)
  rw [chooseRadix, leadingRadix_none h.1, e]
  cases f <;> rfl

/-! ## Step 9 -/

theorem digitOf_digitByte (capital : Bool) {d : Nat} (h : d < 16) : digitOf (digitByte capital d) = some d := by
  cases capital <;> interval_cases d <;> decide

theorem digitOf_some {ch : Byte} {d : Nat} (h : digitOf ch = some d) : d < 16 ∧ ∃ capital, ch = digitByte capital d := by
  have key : ∀ ch : Byte, ∀ d ∈ digitOf ch, d < 16 ∧ ∃ capital, ch = digitByte capital d := by decide
  exact key ch d h

theorem digitsOf_digitBytes {radix : Nat} (hr : radix ≤ 16) {ds : List (Bool × Nat)} (h : ∀ d ∈ ds, d.2 < radix) :
    digitsOf radix (digitBytes ds) = some (ds.map Prod.snd) := by
  induction ds with
  | nil => rfl
  | cons d ds ih =>
    have hd := h d (by simp)
    have e := ih fun x hx => h x (by simp [hx])
    simp only [digitBytes, List.map_cons] at e ⊢
    rw [digitsOf, digitOf_digitByte d.1 (by omega)]
    simp [hd, e]

theorem digitsOf_none {radix : Nat} {rest : Bytes}
    (h : ∃ ch ∈ rest, ∀ (capital : Bool) (d : Nat), d < radix → ch ≠ digitByte capital d) : digitsOf radix rest = none := by
  obtain ⟨ch, hm, hc⟩ := h
  induction rest with
  | nil => simp at hm
  | cons c rest ih =>
    rw [digitsOf]
    cases e : digitOf c with
    | none => rfl
    | some d =>
      obtain ⟨-, capital, rfl⟩ := digitOf_some e
      rcases List.mem_cons.1 hm with rfl | hm
      · simp [show ¬ d < radix from fun hd => hc capital d hd rfl]
      · simp [ih hm]

theorem foldl_exact (radix : Nat) (ds : List Nat) (m : Nat) :
    ds.foldl (fun m d => m * radix + d) m = m * radix ^ ds.length + digitsValue radix ds := by
  induction ds generalizing m with
  | nil => simp [digitsValue]
  | cons d ds ih => rw [List.foldl_cons, ih]; simp only [digitsValue, List.length_cons]; ring

theorem exactValue_eq (radix : Nat) (ds : List Nat) : exactValue radix ds = digitsValue radix ds := by
  simp [exactValue, foldl_exact]

theorem foldl_octal (ds : List Nat) (m : Nat) (h : m < 2 ^ 128) :
    ds.foldl (fun m d => (m * 8 + d) % 2 ^ 128) m = (m * 8 ^ ds.length + digitsValue 8 ds) % 2 ^ 128 := by
  induction ds generalizing m with
  | nil => simpa [digitsValue] using (Nat.mod_eq_of_lt h).symm
  | cons d ds ih =>
    rw [List.foldl_cons, ih _ (Nat.mod_lt _ (by positivity)), Nat.add_mod, Nat.mod_mul_mod, ← Nat.add_mod]
    simp only [digitsValue, List.length_cons]
    congr 1; ring

/-- The octal recurrence computes the exact value modulo `2^128` (46_parse.md R291). -/
theorem octalValue_eq (ds : List Nat) : octalValue ds = digitsValue 8 ds % 2 ^ 128 := by
  rw [octalValue, foldl_octal ds 0 (by positivity)]; simp

/-- Step 9 on digits of the radix (46_parse.md R290, R291). -/
theorem magnitude_digitBytes {radix : Nat} (hr : radix ≤ 16) {ds : List (Bool × Nat)} (hne : ds ≠ [])
    (h : ∀ d ∈ ds, d.2 < radix) :
    magnitude radix (digitBytes ds)
      = if radix = 8 then .ok (digitsValue radix (ds.map Prod.snd) % 2 ^ 128)
        else if 2 ^ 128 ≤ digitsValue radix (ds.map Prod.snd) then .error .invalidFormat
        else .ok (digitsValue radix (ds.map Prod.snd)) := by
  have hd := digitsOf_digitBytes hr h
  cases e : digitBytes ds with
  | nil => exact absurd (by simpa [digitBytes] using e) hne
  | cons ch rest =>
    rw [e] at hd
    simp only [magnitude, hd, octalValue_eq, exactValue_eq]
    by_cases h8 : radix = 8
    · subst h8; simp
    · simp only [if_neg h8]; congr 1

/-- Step 9 fails where there is no digit, or a byte is no digit of the radix (46_parse.md R290). -/
theorem magnitude_notDigits {radix : Nat} {rest : Bytes} (h : NotDigits radix rest) :
    magnitude radix rest = .error .invalidFormat := by
  cases rest with
  | nil => rfl
  | cons ch rest =>
    rcases h with h | h
    · cases h
    · simp only [magnitude, digitsOf_none h]

/-! ## PARSE -/

/-- The low bits of an integer taken modulo `2^128` are those of the integer (46_parse.md R292). -/
theorem setWidth_ofInt {n : Nat} (z : Int) :
    (BitVec.ofInt 128 z).setWidth n = BitVec.ofInt n (z % 2 ^ 128) := by
  apply BitVec.eq_of_toNat_eq
  have h0 : 0 ≤ z % 2 ^ 128 := Int.emod_nonneg z (by positivity)
  rw [BitVec.toNat_setWidth, BitVec.toNat_ofInt, BitVec.toNat_ofInt]
  simp only [Nat.cast_pow, Nat.cast_ofNat]
  generalize z % 2 ^ 128 = x at h0
  obtain ⟨m, rfl⟩ := Int.eq_ofNat_of_zero_le h0
  norm_cast

/-- PARSE of a token whose digits are known: what its sign and its magnitude make of it (46_parse.md R280, R282, R292). -/
theorem execParse_entryText {f : Radix} {s : State} {neg : Bool} {body rest : Bytes} {radix : Nat}
    {comment : Option (Bool × Bytes)} (hneg : neg = false → body.head? ≠ some 0x2D#8)
    (ht : EntryText s.port.text (signed neg body) comment) (hc : chooseRadix f body = (radix, rest)) :
    exec (.parse f) s
      = match magnitude radix rest with
        | .error x => .next (s.raise x)
          | .ok m =>
          .next { s with
            resp := entryResponse
              (wrapped (widthBits s.width) ((if neg then -(m : Int) else (m : Int)) % 2 ^ 128)) comment } := by
  show execParse f s = _
  rw [execParse, parseEntry_entryText ht, parseToken, takeSign_signed hneg, hc]
  cases magnitude radix rest with
  | error x => rfl
  | ok m =>
    have hw := widthBits_le s.width
    have e : slotValue ((BitVec.ofInt 128 (if neg then -(m : Int) else m)).setWidth (widthBits s.width))
        = wrapped (widthBits s.width) ((if neg then -(m : Int) else (m : Int)) % 2 ^ 128) := by
      generalize (if neg then -(m : Int) else (m : Int)) = z
      rw [setWidth_ofInt, slotValue_ofInt hw]
    simp only [e]
    rfl

end Sys2Proof.Machine
end

