-- ==== Sys2Proof/Laws/PerInstr.lean ====
section
/-! SUPPORT. A statement about each command as syntax, one lemma per constructor: its word sets no bit outside the opcode and
the fields of its format (30_encoding.md R87, R89), and its low byte is its opcode. -/

/-- The command's word has the command's opcode in its low byte, and every bit outside the opcode and the format's fields is
zero. -/
def Sys2Proof.Laws.FormatBits.Statement (i : Sys2Proof.Instr) : Prop :=
  Sys2Proof.opcOf (Sys2Proof.encode i) = i.opcode
    ∧ Sys2Proof.encode i &&& ~~~(0x000000FF#32 ||| i.format.allowed) = 0#32

namespace Sys2Proof

theorem Laws.FormatBits.push (wc : BitVec 3) (sx : Bool) : Laws.FormatBits.Statement (.push wc sx) := by
  revert wc sx; unfold Laws.FormatBits.Statement; decide

theorem Laws.FormatBits.peek : Laws.FormatBits.Statement .peek := by
  unfold Laws.FormatBits.Statement; decide

theorem Laws.FormatBits.clear : Laws.FormatBits.Statement .clear := by
  unfold Laws.FormatBits.Statement; decide

theorem Laws.FormatBits.count : Laws.FormatBits.Statement .count := by
  unfold Laws.FormatBits.Statement; decide

theorem Laws.FormatBits.wbytes : Laws.FormatBits.Statement .wbytes := by
  unfold Laws.FormatBits.Statement; decide

theorem Laws.FormatBits.getitems : Laws.FormatBits.Statement .getitems := by
  unfold Laws.FormatBits.Statement; decide

theorem Laws.FormatBits.convert (wc : BitVec 3) (sx : Bool) : Laws.FormatBits.Statement (.convert wc sx) := by
  revert wc sx; unfold Laws.FormatBits.Statement; decide

theorem Laws.FormatBits.parse (fmt : Radix) : Laws.FormatBits.Statement (.parse fmt) := by
  unfold Laws.FormatBits.Statement; cases fmt <;> decide

theorem Laws.FormatBits.add (cin pfc pfv : Bool) : Laws.FormatBits.Statement (.add cin pfc pfv) := by
  unfold Laws.FormatBits.Statement; cases cin <;> cases pfc <;> cases pfv <;> decide

theorem Laws.FormatBits.adc (cin pfc pfv : Bool) : Laws.FormatBits.Statement (.adc cin pfc pfv) := by
  unfold Laws.FormatBits.Statement; cases cin <;> cases pfc <;> cases pfv <;> decide

theorem Laws.FormatBits.sub (cin pfc pfv : Bool) : Laws.FormatBits.Statement (.sub cin pfc pfv) := by
  unfold Laws.FormatBits.Statement; cases cin <;> cases pfc <;> cases pfv <;> decide

theorem Laws.FormatBits.sbb (cin pfc pfv : Bool) : Laws.FormatBits.Statement (.sbb cin pfc pfv) := by
  unfold Laws.FormatBits.Statement; cases cin <;> cases pfc <;> cases pfv <;> decide

theorem Laws.FormatBits.mul (cin pfc pfv : Bool) : Laws.FormatBits.Statement (.mul cin pfc pfv) := by
  unfold Laws.FormatBits.Statement; cases cin <;> cases pfc <;> cases pfv <;> decide

theorem Laws.FormatBits.divu (cin pfc pfv : Bool) : Laws.FormatBits.Statement (.divu cin pfc pfv) := by
  unfold Laws.FormatBits.Statement; cases cin <;> cases pfc <;> cases pfv <;> decide

theorem Laws.FormatBits.divs (cin pfc pfv : Bool) : Laws.FormatBits.Statement (.divs cin pfc pfv) := by
  unfold Laws.FormatBits.Statement; cases cin <;> cases pfc <;> cases pfv <;> decide

theorem Laws.FormatBits.rem (cin pfc pfv : Bool) : Laws.FormatBits.Statement (.rem cin pfc pfv) := by
  unfold Laws.FormatBits.Statement; cases cin <;> cases pfc <;> cases pfv <;> decide

theorem Laws.FormatBits.and (cin pfc pfv : Bool) : Laws.FormatBits.Statement (.and cin pfc pfv) := by
  unfold Laws.FormatBits.Statement; cases cin <;> cases pfc <;> cases pfv <;> decide

theorem Laws.FormatBits.or (cin pfc pfv : Bool) : Laws.FormatBits.Statement (.or cin pfc pfv) := by
  unfold Laws.FormatBits.Statement; cases cin <;> cases pfc <;> cases pfv <;> decide

theorem Laws.FormatBits.xor (cin pfc pfv : Bool) : Laws.FormatBits.Statement (.xor cin pfc pfv) := by
  unfold Laws.FormatBits.Statement; cases cin <;> cases pfc <;> cases pfv <;> decide

theorem Laws.FormatBits.shl (cin pfc pfv : Bool) : Laws.FormatBits.Statement (.shl cin pfc pfv) := by
  unfold Laws.FormatBits.Statement; cases cin <;> cases pfc <;> cases pfv <;> decide

theorem Laws.FormatBits.shr (cin pfc pfv : Bool) : Laws.FormatBits.Statement (.shr cin pfc pfv) := by
  unfold Laws.FormatBits.Statement; cases cin <;> cases pfc <;> cases pfv <;> decide

theorem Laws.FormatBits.sar (cin pfc pfv : Bool) : Laws.FormatBits.Statement (.sar cin pfc pfv) := by
  unfold Laws.FormatBits.Statement; cases cin <;> cases pfc <;> cases pfv <;> decide

theorem Laws.FormatBits.rol (cin pfc pfv : Bool) : Laws.FormatBits.Statement (.rol cin pfc pfv) := by
  unfold Laws.FormatBits.Statement; cases cin <;> cases pfc <;> cases pfv <;> decide

theorem Laws.FormatBits.ror (cin pfc pfv : Bool) : Laws.FormatBits.Statement (.ror cin pfc pfv) := by
  unfold Laws.FormatBits.Statement; cases cin <;> cases pfc <;> cases pfv <;> decide

theorem Laws.FormatBits.rcl (cin pfc pfv : Bool) : Laws.FormatBits.Statement (.rcl cin pfc pfv) := by
  unfold Laws.FormatBits.Statement; cases cin <;> cases pfc <;> cases pfv <;> decide

theorem Laws.FormatBits.rcr (cin pfc pfv : Bool) : Laws.FormatBits.Statement (.rcr cin pfc pfv) := by
  unfold Laws.FormatBits.Statement; cases cin <;> cases pfc <;> cases pfv <;> decide

theorem Laws.FormatBits.alignup (cin pfc pfv : Bool) : Laws.FormatBits.Statement (.alignup cin pfc pfv) := by
  unfold Laws.FormatBits.Statement; cases cin <;> cases pfc <;> cases pfv <;> decide

theorem Laws.FormatBits.aligndn (cin pfc pfv : Bool) : Laws.FormatBits.Statement (.aligndn cin pfc pfv) := by
  unfold Laws.FormatBits.Statement; cases cin <;> cases pfc <;> cases pfv <;> decide

theorem Laws.FormatBits.not : Laws.FormatBits.Statement .not := by
  unfold Laws.FormatBits.Statement; decide

theorem Laws.FormatBits.maskl : Laws.FormatBits.Statement .maskl := by
  unfold Laws.FormatBits.Statement; decide

theorem Laws.FormatBits.maskr : Laws.FormatBits.Statement .maskr := by
  unfold Laws.FormatBits.Statement; decide

theorem Laws.FormatBits.popcnt : Laws.FormatBits.Statement .popcnt := by
  unfold Laws.FormatBits.Statement; decide

theorem Laws.FormatBits.clz : Laws.FormatBits.Statement .clz := by
  unfold Laws.FormatBits.Statement; decide

theorem Laws.FormatBits.ctz : Laws.FormatBits.Statement .ctz := by
  unfold Laws.FormatBits.Statement; decide

theorem Laws.FormatBits.pow2 : Laws.FormatBits.Statement .pow2 := by
  unfold Laws.FormatBits.Statement; decide

theorem Laws.FormatBits.drop (xi : Bool) : Laws.FormatBits.Statement (.drop xi) := by
  unfold Laws.FormatBits.Statement; cases xi <;> decide

theorem Laws.FormatBits.roll (xi : Bool) : Laws.FormatBits.Statement (.roll xi) := by
  unfold Laws.FormatBits.Statement; cases xi <;> decide

theorem Laws.FormatBits.extract (xi : Bool) : Laws.FormatBits.Statement (.extract xi) := by
  unfold Laws.FormatBits.Statement; cases xi <;> decide

theorem Laws.FormatBits.swap (xi : Bool) : Laws.FormatBits.Statement (.swap xi) := by
  unfold Laws.FormatBits.Statement; cases xi <;> decide

theorem Laws.FormatBits.pick (xi : Bool) : Laws.FormatBits.Statement (.pick xi) := by
  unfold Laws.FormatBits.Statement; cases xi <;> decide

theorem Laws.FormatBits.setcmt (xi : Bool) : Laws.FormatBits.Statement (.setcmt xi) := by
  unfold Laws.FormatBits.Statement; cases xi <;> decide

theorem Laws.FormatBits.swapcmt (xi : Bool) : Laws.FormatBits.Statement (.swapcmt xi) := by
  unfold Laws.FormatBits.Statement; cases xi <;> decide

end Sys2Proof
end

