-- ==== Sys2Proof/Laws/Stack.lean ====
section
/-! SUPPORT. What the operation of each stack command can do on a well-formed deque, said once: the stack it leaves, or the
error it raises (44_stack.md R245 to R252). -/

namespace Sys2Proof.Machine

/-- DROP's operation never fails (44_stack.md R245). -/
theorem stkDrop_spec {d : Deque} (h : d.wf) (n : Int) (arg : Option Entry) :
    ∃ d', stkDrop n arg d = .ok d' ∧ d'.wf ∧ d'.cap = d.cap ∧ d'.stack = d.stack.take (d.count - n.toNat) := by
  obtain ⟨d', h1, h2, h3, h4⟩ := popTimes_spec (min n.toNat d.count) h (by omega)
  exact ⟨d', h1, h2, h3, by rw [h4]; congr 1; omega⟩

/-- ROLL's operation never fails: the stack is rotated (44_stack.md R246, R253). -/
theorem stkRoll_spec {d : Deque} (h : d.wf) (n : Int) (arg : Option Entry) :
    ∃ d', stkRoll n arg d = .ok d' ∧ d'.wf ∧ d'.cap = d.cap
      ∧ d'.stack = d.stack.rotate ((-n) % (d.count : Int)).toNat := by
  rcases Nat.lt_or_ge d.count 2 with hc | hc
  · refine ⟨d, by rw [stkRoll, if_pos hc], h, rfl, ?_⟩
    rcases hS : d.stack with _ | ⟨e, _ | ⟨e', S⟩⟩
    · simp
    · simp
    · have := count_of_stack hS; simp at this; omega
  · have hlt : n.natAbs % d.count < d.count := Nat.mod_lt _ (by omega)
    have hm : ((n.natAbs % d.count : Nat) : Int) = |n| % (d.count : Int) := by
      rw [Int.natCast_mod, Int.natCast_natAbs]
    rcases lt_trichotomy n 0 with hn | rfl | hn
    · obtain ⟨d', h1, h2, h3, h4⟩ := bottomToTop_spec (n.natAbs % d.count) h hlt.le
      refine ⟨d', by rw [stkRoll, if_neg (by omega), if_neg (by omega), if_pos hn, h1], h2, h3, ?_⟩
      rw [h4, ← abs_of_neg hn, ← hm, Int.toNat_natCast, List.rotate_eq_drop_append_take (by simp; omega)]
    · exact ⟨d, by rw [stkRoll, if_neg (by omega), if_neg (by omega), if_neg (by omega)], h, rfl, by simp⟩
    · obtain ⟨d', h1, h2, h3, h4⟩ := topToBottom_spec (n.natAbs % d.count) h hlt.le
      refine ⟨d', by rw [stkRoll, if_neg (by omega), if_pos hn, h1], h2, h3, ?_⟩
      rw [abs_of_pos hn] at hm
      rw [h4]
      rcases Nat.eq_zero_or_pos (n.natAbs % d.count) with h0 | h0
      · have : (-n) % (d.count : Int) = 0 := by
          rw [h0] at hm
          exact Int.emod_eq_zero_of_dvd ((Int.dvd_neg).2 (Int.dvd_of_emod_eq_zero (by simpa using hm.symm)))
        rw [h0, this, Nat.sub_zero, List.drop_of_length_le (by simp), List.take_of_length_le (by simp)]
        simp
      · have : (-n) % (d.count : Int) = ((d.count - n.natAbs % d.count : Nat) : Int) := by
          have hd := Int.emod_add_mul_ediv n d.count
          have e : -n = (d.count - n % d.count) + (d.count : Int) * (-(n / d.count) - 1) := by linear_combination hd
          rw [Int.natCast_sub hlt.le, hm, e, Int.add_mul_emod_self_left, Int.emod_eq_of_lt] <;> omega
        rw [this, Int.toNat_natCast, List.rotate_eq_drop_append_take (by simp)]

/-- The depths of a deque, as the index of a stack command names them. -/
theorem depth_of_index {d : Deque} (h : d.wf) {k : Int} (hk : 1 ≤ k) (hkc : k ≤ (d.count : Int)) :
    ∃ e, d.depth k = .ok e ∧ d.stack[d.count - k.toNat]? = some e := by
  have e1 : ((k.toNat : Nat) : Int) = k := by omega
  have h1 := depth_spec h (k := k.toNat) (by omega) (by omega)
  rw [e1] at h1
  exact ⟨_, h1, by rw [List.getElem?_eq_getElem]⟩

theorem set_of_index {d : Deque} (h : d.wf) {k : Int} (hk : 1 ≤ k) (hkc : k ≤ (d.count : Int)) (e : Entry) :
    ∃ d', d.set (-k) e = .ok d' ∧ d'.wf ∧ d'.cap = d.cap ∧ d'.stack = d.stack.set (d.count - k.toNat) e := by
  have e1 : ((k.toNat : Nat) : Int) = k := by omega
  have h1 := setDepth_spec h (k := k.toNat) (by omega) (by omega) e
  rwa [e1] at h1

/-- EXTRACT's operation with an index in `[2, count]` (44_stack.md R247). -/
theorem stkExtract_spec {d : Deque} (h : d.wf) {k : Int} (hk : 1 < k) (hkc : k ≤ (d.count : Int)) (arg : Option Entry) :
    ∃ e d', stkExtract k arg d = .ok d' ∧ d'.wf ∧ d'.cap = d.cap ∧ d.stack[d.count - k.toNat]? = some e
      ∧ d'.stack = d.stack.eraseIdx (d.count - k.toNat) ++ [e] := by
  obtain ⟨e, h1, h2⟩ := depth_of_index h (by omega) hkc
  have hl : (d.stack.eraseIdx (d.count - k.toNat) ++ [e]).length < d.cap := by
    have := count_lt h
    rw [List.length_append, List.length_eraseIdx_of_lt (by simp; omega)]; simp; omega
  obtain ⟨w, c, st⟩ := load_spec h h.2.2.2 hl
  exact ⟨e, _, by rw [stkExtract, if_neg (by omega), if_neg (by omega), h1], w, c, h2, st⟩

/-- EXTRACT's operation with any other index: nothing moves, or IndexOutOfRange (44_stack.md R247). -/
theorem stkExtract_other (d : Deque) (k : Int) (arg : Option Entry) :
    (k ≤ 1 → stkExtract k arg d = .ok d) ∧ (1 < k → (d.count : Int) < k → stkExtract k arg d = .error .indexOutOfRange) :=
  ⟨fun h => by rw [stkExtract, if_pos h], fun h h' => by rw [stkExtract, if_neg (by omega), if_pos h']⟩

/-- SWAP's operation with an index in `[2, count]` (44_stack.md R248). -/
theorem stkSwap_spec {d : Deque} (h : d.wf) {k : Int} (hk : 1 < k) (hkc : k ≤ (d.count : Int)) (arg : Option Entry) :
    ∃ t e d', stkSwap k arg d = .ok d' ∧ d'.wf ∧ d'.cap = d.cap ∧ d.stack[d.count - 1]? = some t
      ∧ d.stack[d.count - k.toNat]? = some e
      ∧ d'.stack = (d.stack.set (d.count - 1) e).set (d.count - k.toNat) t := by
  obtain ⟨t, t1, t2⟩ := depth_of_index h (k := 1) (by omega) (by omega)
  obtain ⟨e, e1, e2⟩ := depth_of_index h (k := k) (by omega) hkc
  obtain ⟨d1, p1, w1, c1, s1⟩ := set_of_index h (k := 1) (by omega) (by omega) e
  have hn : d1.count = d.count := by have := congrArg List.length s1; simpa using this
  obtain ⟨d2, p2, w2, c2, s2⟩ := set_of_index w1 (k := k) (by omega) (by omega) t
  refine ⟨t, e, d2, ?_, w2, by omega, t2, e2, by rw [s2, s1, hn]; rfl⟩
  rw [stkSwap, if_neg (by omega), if_neg (by omega), t1, e1]
  simp only [p1, p2]

/-- SWAP's operation with any other index: nothing moves, or IndexOutOfRange (44_stack.md R248). -/
theorem stkSwap_other (d : Deque) (k : Int) (arg : Option Entry) :
    (k ≤ 1 → stkSwap k arg d = .ok d) ∧ (1 < k → (d.count : Int) < k → stkSwap k arg d = .error .indexOutOfRange) :=
  ⟨fun h => by rw [stkSwap, if_pos h], fun h h' => by rw [stkSwap, if_neg (by omega), if_pos h']⟩

theorem inDepth_iff (k : Int) (d : Deque) : inDepth k d = true ↔ 1 ≤ k ∧ k ≤ (d.count : Int) := by simp [inDepth]

/-- PICK's operation with an index in range: a copy of the value on top, or StackFull (44_stack.md R249, R250). -/
theorem stkPick_spec {d : Deque} (h : d.wf) {k : Int} (hk : 1 ≤ k) (hkc : k ≤ (d.count : Int)) (arg : Option Entry) :
    (d.count + 1 < d.cap → ∃ e d', stkPick k arg d = .ok d' ∧ d'.wf ∧ d'.cap = d.cap
        ∧ d.stack[d.count - k.toNat]? = some e ∧ d'.stack = d.stack ++ [{ val := e.val, cmt := none, alt := none }])
    ∧ (d.count + 1 = d.cap → stkPick k arg d = .error .stackFull) := by
  have hb := (inDepth_iff k d).2 ⟨hk, hkc⟩
  have hf := count_free h
  refine ⟨fun hr => ?_, fun hr => by rw [stkPick, if_pos hb, if_pos (by omega)]⟩
  obtain ⟨e, e1, e2⟩ := depth_of_index h hk hkc
  obtain ⟨d', p, w, c, st⟩ := pushFront_spec h hr { val := e.val, cmt := none, alt := none }
  exact ⟨e, d', by rw [stkPick, if_pos hb, if_neg (by omega), e1]; exact p, w, c, e2, st⟩

/-- SETCMT's operation with a popped index entry and an index in range (44_stack.md R251). -/
theorem stkSetcmt_spec {d : Deque} (h : d.wf) {k : Int} (hk : 1 ≤ k) (hkc : k ≤ (d.count : Int)) (g : Entry) :
    ∃ t d', stkSetcmt k (some g) d = .ok d' ∧ d'.wf ∧ d'.cap = d.cap ∧ d.stack[d.count - k.toNat]? = some t
      ∧ d'.stack = d.stack.set (d.count - k.toNat) { val := t.val, cmt := g.cmt, alt := t.cmt } := by
  obtain ⟨t, t1, t2⟩ := depth_of_index h hk hkc
  obtain ⟨d', p, w, c, st⟩ := set_of_index h hk hkc { val := t.val, cmt := g.cmt, alt := t.cmt }
  exact ⟨t, d', by rw [stkSetcmt]; simp only [if_pos ((inDepth_iff k d).2 ⟨hk, hkc⟩), t1]; exact p, w, c, t2, st⟩

/-- SWAPCMT's operation with an index in range (44_stack.md R252). -/
theorem stkSwapcmt_spec {d : Deque} (h : d.wf) {k : Int} (hk : 1 ≤ k) (hkc : k ≤ (d.count : Int)) (arg : Option Entry) :
    ∃ t d', stkSwapcmt k arg d = .ok d' ∧ d'.wf ∧ d'.cap = d.cap ∧ d.stack[d.count - k.toNat]? = some t
      ∧ d'.stack = d.stack.set (d.count - k.toNat) { val := t.val, cmt := t.alt, alt := t.cmt } := by
  obtain ⟨t, t1, t2⟩ := depth_of_index h hk hkc
  obtain ⟨d', p, w, c, st⟩ := set_of_index h hk hkc { val := t.val, cmt := t.alt, alt := t.cmt }
  exact ⟨t, d', by rw [stkSwapcmt, if_pos ((inDepth_iff k d).2 ⟨hk, hkc⟩), t1]; exact p, w, c, t2, st⟩

/-- PICK, SETCMT with a popped index and SWAPCMT with an index out of range (44_stack.md R249, R251, R252). -/
theorem stk_outOfRange {d : Deque} {k : Int} (hk : k < 1 ∨ (d.count : Int) < k) (arg : Option Entry) (g : Entry) :
    stkPick k arg d = .error .indexOutOfRange ∧ stkSetcmt k (some g) d = .error .indexOutOfRange
      ∧ stkSwapcmt k arg d = .error .indexOutOfRange := by
  have hb : ¬ inDepth k d = true := by rw [inDepth_iff]; omega
  exact ⟨by rw [stkPick, if_neg hb], by rw [stkSetcmt]; simp only [if_neg hb], by rw [stkSwapcmt, if_neg hb]⟩

/-- SETCMT with an explicit index (44_stack.md R251). -/
theorem stkSetcmt_none (k : Int) (d : Deque) : stkSetcmt k none d = .error .invalidOperation := rfl

end Sys2Proof.Machine
end

