-- ==== Sys2Proof/Tests/Slice0.lean ====
section
/-! SUPPORT. Tests: what the well-formedness checks refuse, every command's decoding from a word written out from the spec,
one-step tests with the values of spec/95_test_vectors.md (the vector's name stands before each), and for each obligation with
hypotheses a state and operands that meet them. -/

namespace Sys2Proof.Tests

open Sys2Proof.Machine

/-! ## Well-formedness -/

/-- A ring buffer of one slot is refused (10_state.md R32). -/
theorem test_cap_one_refused : capWf 1 = false ∧ capWf 2 = true := by decide

/-- A TEXT longer than TEXT_MAX is refused, one as long is not. -/
theorem test_long_text_refused :
    Command.textFits { Config.defaultParams with textMax := some 1 } { Command.blank with text := [0x31#8, 0x32#8] } = false
      ∧ Command.textFits { Config.defaultParams with textMax := some 1 } { Command.blank with text := [0x31#8] } = true := by
  decide

/-- Either comment longer than COMMENT_MAX is refused, the empty one is not. -/
theorem test_long_comment_refused :
    Command.commentsFit { Config.defaultParams with commentMax := some 0 } { Command.blank with cmt0 := some [0x78#8] } = false
      ∧ Command.commentsFit { Config.defaultParams with commentMax := some 0 } { Command.blank with cmt1 := some [0x78#8] }
        = false
      ∧ Command.commentsFit { Config.defaultParams with commentMax := some 0 } { Command.blank with cmt0 := some [] } = true := by
  decide

/-- A command port whose TEXT or comment breaks a bound is ill formed. -/
theorem test_command_wf_refuses :
    Command.wf { Config.defaultParams with textMax := some 0 } { Command.blank with text := [0x31#8] } = false
      ∧ Command.wf { Config.defaultParams with commentMax := some 0 } { Command.blank with cmt1 := some [0x78#8] } = false
      ∧ Command.wf Config.defaultParams { Command.blank with text := [0x31#8] } = true := by decide

/-! ## Decoding: OPC in bits 7 to 0 from 30_encoding.md R90 to R93, the fields at their places of R81 -/

/-- Class 0: WC in bits 14 to 12, SX in bit 15, FMT in bits 17 to 16. -/
theorem test_decode_class0 :
    decode 0x0000A001#32 = .ok (.push 2#3 true)
      ∧ decode 0x00000001#32 = .ok (.push 0#3 false)
      ∧ decode 0x00000002#32 = .ok .peek
      ∧ decode 0x00000003#32 = .ok .clear
      ∧ decode 0x00000004#32 = .ok .count
      ∧ decode 0x00000005#32 = .ok .wbytes
      ∧ decode 0x00000006#32 = .ok .getitems
      ∧ decode 0x0000B007#32 = .ok (.convert 3#3 true)
      ∧ decode 0x00004007#32 = .ok (.convert 4#3 false)
      ∧ decode 0x00007007#32 = .ok (.convert 7#3 false)
      ∧ decode 0x00000008#32 = .ok (.parse .hexadecimal)
      ∧ decode 0x00010008#32 = .ok (.parse .decimal)
      ∧ decode 0x00020008#32 = .ok (.parse .octal)
      ∧ decode 0x00030008#32 = .ok (.parse .binary) := by decide

/-- Class 1: CIN in bit 8, PFC in bit 9, PFV in bit 10. -/
theorem test_decode_class1 :
    decode 0x00000120#32 = .ok (.add true false false)
      ∧ decode 0x00000221#32 = .ok (.adc false true false)
      ∧ decode 0x00000422#32 = .ok (.sub false false true)
      ∧ decode 0x00000323#32 = .ok (.sbb true true false)
      ∧ decode 0x00000624#32 = .ok (.mul false true true)
      ∧ decode 0x00000125#32 = .ok (.divu true false false)
      ∧ decode 0x00000226#32 = .ok (.divs false true false)
      ∧ decode 0x00000427#32 = .ok (.rem false false true)
      ∧ decode 0x00000328#32 = .ok (.and true true false)
      ∧ decode 0x00000629#32 = .ok (.or false true true)
      ∧ decode 0x0000012A#32 = .ok (.xor true false false)
      ∧ decode 0x0000022B#32 = .ok (.shl false true false)
      ∧ decode 0x0000042C#32 = .ok (.shr false false true)
      ∧ decode 0x0000032D#32 = .ok (.sar true true false)
      ∧ decode 0x0000062E#32 = .ok (.rol false true true)
      ∧ decode 0x0000012F#32 = .ok (.ror true false false)
      ∧ decode 0x00000230#32 = .ok (.rcl false true false)
      ∧ decode 0x00000431#32 = .ok (.rcr false false true)
      ∧ decode 0x00000332#32 = .ok (.alignup true true false)
      ∧ decode 0x00000633#32 = .ok (.aligndn false true true) := by decide

/-- Class 2: no field. -/
theorem test_decode_class2 :
    decode 0x00000040#32 = .ok .not
      ∧ decode 0x00000041#32 = .ok .maskl
      ∧ decode 0x00000042#32 = .ok .maskr
      ∧ decode 0x00000043#32 = .ok .popcnt
      ∧ decode 0x00000044#32 = .ok .clz
      ∧ decode 0x00000045#32 = .ok .ctz
      ∧ decode 0x00000046#32 = .ok .pow2 := by decide

/-- Class 3: XI in bit 11. -/
theorem test_decode_class3 :
    decode 0x00000860#32 = .ok (.drop true)
      ∧ decode 0x00000061#32 = .ok (.roll false)
      ∧ decode 0x00000862#32 = .ok (.extract true)
      ∧ decode 0x00000063#32 = .ok (.swap false)
      ∧ decode 0x00000864#32 = .ok (.pick true)
      ∧ decode 0x00000065#32 = .ok (.setcmt false)
      ∧ decode 0x00000866#32 = .ok (.swapcmt true) := by decide

/-- Reserved opcodes (30_encoding.md R94) and bits outside the format's fields (R87) are refused by name. -/
theorem test_decode_refuses :
    decode 0x00000000#32 = .error .reservedOpcode
      ∧ decode 0x00000009#32 = .error .reservedOpcode
      ∧ decode 0x00000034#32 = .error .reservedOpcode
      ∧ decode 0x00000047#32 = .error .reservedOpcode
      ∧ decode 0x00000067#32 = .error .reservedOpcode
      ∧ decode 0x000000FF#32 = .error .reservedOpcode
      ∧ decode 0x00000102#32 = .error .reservedBits
      ∧ decode 0x00000820#32 = .error .reservedBits
      ∧ decode 0x00000160#32 = .error .reservedBits
      ∧ decode 0x00010001#32 = .error .reservedBits
      ∧ decode 0x00040008#32 = .error .reservedBits
      ∧ decode 0x80000040#32 = .error .reservedBits := by decide

/-! ## One step -/

/-- An entry without comments. -/
def ent (v : Nat) : Entry := { val := BitVec.ofNat 128 v, cmt := none, alt := none }

/-- An entry with comments. -/
def com (v : Nat) (c a : Comment) : Entry := { val := BitVec.ofNat 128 v, cmt := c, alt := a }

/-- A block of `cap` slots at a width, its stack (bottom first) laid out from the last slot on, so that it wraps. -/
def blk (cap : Nat) (w : Width) (es : List Entry) : State :=
  { State.resetWith cap Config.defaultParams with width := w, dq := (Deque.new cap).load (cap - 1) es }

/-- The block with these side fields on its command port. -/
def side (s : State) (data : Nat) (text : Bytes) : State :=
  { s with port := { Command.blank with data := BitVec.ofNat 128 data, text := text } }

/-- What a command leaves: the stack, STATUS and FLAGS. -/
def left (i : Instr) (s : State) : Option (List Entry × BitVec 4 × BitVec 2) :=
  match exec i s with
  | .next t => some (t.dq.stack, t.resp.status, t.resp.flags)
  | _ => none

/-- What a command answers. -/
def said (i : Instr) (s : State) : Option Response :=
  match exec i s with
  | .next t => some t.resp
  | _ => none

/-- V4 -/
theorem test_push_truncates : left (.push 1#3 false) (side (blk 6 .w8 []) 0x1234 [])
    = some ([ent 0x34], 0#4, 0#2) := by decide

/-- V13 -/
theorem test_push_full : left (.push 0#3 false) (side (blk 4 .w8 [ent 0, ent 1, ent 2]) 9 []) = some ([ent 0, ent 1, ent 2], 2#4, 0#2) := by decide

/-- V14 -/
theorem test_peek : said .peek (blk 4 .w8 [com 7 (some [0x78#8]) none])
    = some { Response.blank with rval := 7#128, rcmt0 := some [0x78#8] } := by decide

/-- V15 -/
theorem test_peek_empty : said .peek (blk 4 .w8 []) = some { Response.blank with status := 1#4 } := by decide

/-- V16 -/
theorem test_clear : left (.clear) (blk 6 .w8 [ent 0x02, ent 0x01])
    = some ([], 0#4, 0#2) := by decide

/-- V18 -/
theorem test_count : said .count (blk 4 .w8 [ent 3, ent 2, ent 1]) = some { Response.blank with rcount := 3#32 } := by rfl

/-- V23 -/
theorem test_wbytes : said .wbytes (blk 4 .w128 []) = some { Response.blank with rcount := 16#32 } := by decide

/-- V24 -/
theorem test_getitems : said .getitems (side (blk 4 .w8 [ent 3, ent 2, ent 1]) 2 [])
    = some { Response.blank with items := [ent 1, ent 2] } := by decide

/-- V28 -/
theorem test_getitems_ignores_high_bits : said .getitems (side (blk 4 .w8 [ent 3, ent 2, ent 1]) 0x100000001 [])
    = some { Response.blank with items := [ent 1] } := by decide

/-- 45_convert.md R270 -/
theorem test_convert_widens : left (.convert 1#3 true) (blk 6 .w8 [ent 0xFF])
    = some ([ent 0xFFFF], 0#4, 0#2) := by decide

/-- V214, WC = 7 -/
theorem test_convert_refuses : left (.convert 7#3 false) (blk 6 .w8 [ent 0x02, ent 0x01])
    = some ([ent 0x02, ent 0x01], 10#4, 0#2) := by decide

/-- V220: 5;a;b -/
theorem test_parse_comment : said (.parse .decimal) (side (blk 4 .w8 []) 0 [0x35#8, 0x3B#8, 0x61#8, 0x3B#8, 0x62#8])
    = some { Response.blank with rpresent := true, rval := 5#128, rcmt0 := some [0x61#8, 0x3B#8, 0x62#8], marker := 0x3B#8 } := by decide

/-- V236: -200 -/
theorem test_parse_negative : said (.parse .decimal) (side (blk 4 .w8 []) 0 [0x2D#8, 0x32#8, 0x30#8, 0x30#8])
    = some { Response.blank with rpresent := true, rval := 0x38#128 } := by decide

/-- V31 -/
theorem test_add_overflow : left (.add false false false) (blk 6 .w8 [ent 0x7F, ent 0x01])
    = some ([ent 0x80], 0#4, 2#2) := by decide

/-- V30 -/
theorem test_add_ignores_cin : left (.add true false false) (blk 6 .w8 [ent 0x12, ent 0x00])
    = some ([ent 0x12], 0#4, 0#2) := by decide

/-- V35 -/
theorem test_adc_carry : left (.adc true false false) (blk 6 .w8 [ent 0x12, ent 0xFF])
    = some ([ent 0x12], 0#4, 1#2) := by decide

/-- V37 -/
theorem test_adc_overflow : left (.adc true false false) (blk 6 .w8 [ent 0x00, ent 0x7F])
    = some ([ent 0x80], 0#4, 2#2) := by decide

/-- V40 -/
theorem test_sub_borrow : left (.sub false false false) (blk 6 .w8 [ent 0x00, ent 0x01])
    = some ([ent 0xFF], 0#4, 1#2) := by decide

/-- V42 -/
theorem test_sub_overflow : left (.sub false false false) (blk 6 .w8 [ent 0x80, ent 0x01])
    = some ([ent 0x7F], 0#4, 2#2) := by decide

/-- V46 -/
theorem test_sbb_borrow : left (.sbb true false false) (blk 6 .w8 [ent 0x05, ent 0x05])
    = some ([ent 0xFF], 0#4, 1#2) := by decide

/-- V47 -/
theorem test_sbb_overflow : left (.sbb true false false) (blk 6 .w8 [ent 0x80, ent 0x00])
    = some ([ent 0x7F], 0#4, 2#2) := by decide

/-- V49 -/
theorem test_mul_signed : left (.mul false false false) (blk 6 .w8 [ent 0x40, ent 0x02])
    = some ([ent 0x80], 0#4, 2#2) := by decide

/-- V50 -/
theorem test_mul_unsigned : left (.mul false false false) (blk 6 .w8 [ent 0xFF, ent 0x02])
    = some ([ent 0xFE], 0#4, 1#2) := by decide

/-- V56 -/
theorem test_divu : left (.divu false false false) (blk 6 .w8 [ent 0xFF, ent 0x02])
    = some ([ent 0x7F], 0#4, 0#2) := by decide

/-- V58 -/
theorem test_divu_by_zero : left (.divu false false false) (blk 6 .w8 [ent 0x10, ent 0x00])
    = some ([ent 0x10, ent 0x00], 5#4, 0#2) := by decide

/-- V59 -/
theorem test_divs_truncates : left (.divs false false false) (blk 6 .w8 [ent 0xF9, ent 0x02])
    = some ([ent 0xFD], 0#4, 0#2) := by decide

/-- V64 -/
theorem test_divs_wraps : left (.divs false true true) (blk 6 .w8 [ent 0x80, ent 0xFF])
    = some ([ent 0x80], 0#4, 0#2) := by decide

/-- V65 -/
theorem test_rem_negative_dividend : left (.rem false false false) (blk 6 .w8 [ent 0xF9, ent 0x02])
    = some ([ent 0xFF], 0#4, 0#2) := by decide

/-- V66 -/
theorem test_rem_negative_divisor : left (.rem false false false) (blk 6 .w8 [ent 0x07, ent 0xFE])
    = some ([ent 0x01], 0#4, 0#2) := by decide

/-- V70 -/
theorem test_and_passes_flags : left (.and false true true) (blk 6 .w8 [ent 0xF0, ent 0x3C])
    = some ([ent 0x30], 0#4, 3#2) := by decide

/-- V71 -/
theorem test_or : left (.or false false false) (blk 6 .w8 [ent 0xF0, ent 0x0F])
    = some ([ent 0xFF], 0#4, 0#2) := by decide

/-- V72 -/
theorem test_xor_passes_carry : left (.xor false true false) (blk 6 .w8 [ent 0xFF, ent 0x0F])
    = some ([ent 0xF0], 0#4, 1#2) := by decide

/-- V74 -/
theorem test_shl : left (.shl false false false) (blk 6 .w8 [ent 0x81, ent 0x01])
    = some ([ent 0x02], 0#4, 3#2) := by decide

/-- V78 -/
theorem test_shl_above : left (.shl false true true) (blk 6 .w8 [ent 0xFF, ent 0x09])
    = some ([ent 0x00], 0#4, 0#2) := by decide

/-- V81 -/
theorem test_shr : left (.shr false false false) (blk 6 .w8 [ent 0x81, ent 0x01])
    = some ([ent 0x40], 0#4, 3#2) := by decide

/-- V82 -/
theorem test_shr_all : left (.shr false false false) (blk 6 .w8 [ent 0x80, ent 0x08])
    = some ([ent 0x00], 0#4, 3#2) := by decide

/-- V87 -/
theorem test_sar_all : left (.sar false false false) (blk 6 .w8 [ent 0x80, ent 0x08])
    = some ([ent 0xFF], 0#4, 3#2) := by decide

/-- V88 -/
theorem test_sar_above : left (.sar false false false) (blk 6 .w8 [ent 0x80, ent 0x09])
    = some ([ent 0x00], 0#4, 0#2) := by decide

/-- V91 -/
theorem test_rol : left (.rol false false false) (blk 6 .w8 [ent 0x81, ent 0x01])
    = some ([ent 0x03], 0#4, 3#2) := by decide

/-- V94 -/
theorem test_rol_full_turn : left (.rol false false false) (blk 6 .w8 [ent 0x80, ent 0x08])
    = some ([ent 0x80], 0#4, 0#2) := by decide

/-- V97 -/
theorem test_ror : left (.ror false false false) (blk 6 .w8 [ent 0x12, ent 0x04])
    = some ([ent 0x21], 0#4, 0#2) := by decide

/-- V96 -/
theorem test_ror_crosses : left (.ror false false false) (blk 6 .w8 [ent 0x01, ent 0x01])
    = some ([ent 0x80], 0#4, 3#2) := by decide

/-- V102 -/
theorem test_rcl : left (.rcl false false false) (blk 6 .w8 [ent 0x01, ent 0x08])
    = some ([ent 0x00], 0#4, 3#2) := by decide

/-- V103 -/
theorem test_rcl_zero_amount : left (.rcl true false true) (blk 6 .w8 [ent 0x5A, ent 0x00])
    = some ([ent 0x5A], 0#4, 2#2) := by decide

/-- V104 -/
theorem test_rcr : left (.rcr true false false) (blk 6 .w8 [ent 0x01, ent 0x01])
    = some ([ent 0x80], 0#4, 3#2) := by decide

/-- V107 -/
theorem test_rcr_by_bits : left (.rcr true false false) (blk 6 .w8 [ent 0x80, ent 0x08])
    = some ([ent 0x01], 0#4, 3#2) := by decide

/-- V108 -/
theorem test_alignup : left (.alignup false false false) (blk 6 .w8 [ent 0x13, ent 0x04])
    = some ([ent 0x20], 0#4, 0#2) := by decide

/-- V109 -/
theorem test_alignup_wraps : left (.alignup false true false) (blk 6 .w8 [ent 0xF1, ent 0x04])
    = some ([ent 0x00], 0#4, 1#2) := by decide

/-- V114 -/
theorem test_aligndn : left (.aligndn false true true) (blk 6 .w8 [ent 0x13, ent 0x04])
    = some ([ent 0x10], 0#4, 3#2) := by decide

/-- V115 -/
theorem test_aligndn_above : left (.aligndn false false false) (blk 6 .w8 [ent 0x13, ent 0x0C])
    = some ([ent 0x00], 0#4, 0#2) := by decide

/-- V126 -/
theorem test_not : left (.not) (blk 6 .w8 [ent 0x0F])
    = some ([ent 0xF0], 0#4, 0#2) := by decide

/-- V130 -/
theorem test_maskl : left (.maskl) (blk 6 .w8 [ent 0x01])
    = some ([ent 0x80], 0#4, 0#2) := by decide

/-- V132 -/
theorem test_maskl_above : left (.maskl) (blk 6 .w8 [ent 0x09])
    = some ([ent 0x09], 6#4, 0#2) := by decide

/-- V161 -/
theorem test_maskr_keeps_comments : left (.maskr) (blk 6 .w8 [com 3 (some [0x6E#8]) (some [0x6D#8])])
    = some ([com 7 (some [0x6E#8]) (some [0x6D#8])], 0#4, 0#2) := by decide

/-- V141 -/
theorem test_popcnt : left (.popcnt) (blk 6 .w8 [ent 0xF1])
    = some ([ent 0x05], 0#4, 0#2) := by decide

/-- V146 -/
theorem test_clz : left (.clz) (blk 6 .w8 [ent 0x01])
    = some ([ent 0x07], 0#4, 0#2) := by decide

/-- V144 -/
theorem test_clz_zero : left (.clz) (blk 6 .w8 [ent 0x00])
    = some ([ent 0x08], 0#4, 0#2) := by decide

/-- V151 -/
theorem test_ctz : left (.ctz) (blk 6 .w8 [ent 0x08])
    = some ([ent 0x03], 0#4, 0#2) := by decide

/-- V149 -/
theorem test_ctz_zero : left (.ctz) (blk 6 .w8 [ent 0x00])
    = some ([ent 0x08], 0#4, 0#2) := by decide

/-- V155 -/
theorem test_pow2 : left (.pow2) (blk 6 .w8 [ent 0x07])
    = some ([ent 0x80], 0#4, 0#2) := by decide

/-- V157 -/
theorem test_pow2_above : left (.pow2) (blk 6 .w8 [ent 0x7F])
    = some ([ent 0x00], 0#4, 0#2) := by decide

/-- V163 -/
theorem test_drop_explicit : left (.drop true) (side (blk 6 .w8 [ent 0x08, ent 0x07, ent 0x06, ent 0x05]) 2 [])
    = some ([ent 0x08, ent 0x07], 0#4, 0#2) := by decide

/-- V167 -/
theorem test_drop_popped : left (.drop false) (blk 6 .w8 [ent 0x07, ent 0x06, ent 0x05, ent 0x02])
    = some ([ent 0x07], 0#4, 0#2) := by decide

/-- V172, index -1 -/
theorem test_roll_down : left (.roll true) (side (blk 6 .w8 [ent 0x01, ent 0x02, ent 0x03]) 0xFFFFFFFFFFFFFFFFFFFFFFFFFFFFFFFF [])
    = some ([ent 0x02, ent 0x03, ent 0x01], 0#4, 0#2) := by decide

/-- V177, index -2147483648 -/
theorem test_roll_far : left (.roll true) (side (blk 6 .w8 [ent 0x01, ent 0x02, ent 0x03]) 0x80000000 [])
    = some ([ent 0x03, ent 0x01, ent 0x02], 0#4, 0#2) := by decide

/-- V178 -/
theorem test_extract : left (.extract true) (side (blk 6 .w8 [ent 0x0D, ent 0x0C, ent 0x0B, ent 0x0A]) 3 [])
    = some ([ent 0x0D, ent 0x0B, ent 0x0A, ent 0x0C], 0#4, 0#2) := by decide

/-- V184 -/
theorem test_extract_restores_index : left (.extract false) (blk 6 .w8 [ent 0x0C, ent 0x0B, ent 0x0A, ent 0x04])
    = some ([ent 0x0C, ent 0x0B, ent 0x0A, ent 0x04], 4#4, 0#2) := by decide

/-- V185 -/
theorem test_swap : left (.swap true) (side (blk 6 .w8 [ent 0x0C, ent 0x0B, ent 0x0A]) 3 [])
    = some ([ent 0x0A, ent 0x0B, ent 0x0C], 0#4, 0#2) := by decide

/-- V203 -/
theorem test_swap_wide_index : left (.swap false) (blk 6 .w64 [ent 0x0C, ent 0x0B, ent 0x0A, ent 0x100000002])
    = some ([ent 0x0C, ent 0x0A, ent 0x0B], 0#4, 0#2) := by decide

/-- V189 -/
theorem test_pick_drops_comments : left (.pick true) (side (blk 6 .w8 [ent 0x08, com 7 (some [0x78#8]) (some [0x79#8])]) 1 [])
    = some ([ent 0x08, com 7 (some [0x78#8]) (some [0x79#8]), ent 0x07], 0#4, 0#2) := by decide

/-- V205 -/
theorem test_pick_full : left (.pick true) (side (blk 4 .w8 [ent 0x09, ent 0x08, ent 0x07]) 1 [])
    = some ([ent 0x09, ent 0x08, ent 0x07], 2#4, 0#2) := by decide

/-- V195 -/
theorem test_setcmt : left (.setcmt false) (blk 6 .w8 [com 6 (some [0x62#8]) none, com 5 (some [0x61#8]) none, ent 0x02])
    = some ([com 6 none (some [0x62#8]), com 5 (some [0x61#8]) none], 0#4, 0#2) := by decide

/-- V196 -/
theorem test_setcmt_explicit : left (.setcmt true) (side (blk 6 .w8 [ent 0x06, ent 0x05]) 1 [])
    = some ([ent 0x06, ent 0x05], 9#4, 0#2) := by decide

/-- V199 -/
theorem test_swapcmt : left (.swapcmt true) (side (blk 6 .w8 [com 5 (some [0x70#8]) (some [0x71#8])]) 1 [])
    = some ([com 5 (some [0x71#8]) (some [0x70#8])], 0#4, 0#2) := by decide

/-- V200 -/
theorem test_swapcmt_popped : left (.swapcmt false) (blk 6 .w8 [com 5 (some [0x70#8]) none, com 1 (some [0x69#8]) none])
    = some ([com 5 none (some [0x70#8])], 0#4, 0#2) := by decide

/-- A step of the machine on the word of an illegal command: STATUS 12 (30_encoding.md R94). -/
theorem test_step_illegal :
    (match step ((blk 4 .w8 [ent 1]).withFetchWord 32 0) with
      | .next t => some (t.dq.stack, t.resp.status)
      | _ => none) = some ([ent 1], 12#4) := by decide

/-- The word that withFetchWord places is the one the next step runs (S6 of spec/95_test_vectors.md, V3). -/
theorem test_step_fetches :
    (match step ((blk 6 .w8 [ent 1, ent 2, ent 3, ent 1]).withFetchWord 32 0x61) with
      | .next t => some (t.dq.stack, t.inputs)
      | _ => none) = some ([ent 3, ent 1, ent 2], []) := by decide

/-! ## Witnesses: for each obligation with hypotheses, values that meet them all, at the edges of each clause -/

theorem witness_DecodeOfEncode :
    Instr.wf (.sbb true true true) = true := by
  decide

theorem witness_EncodeOfDecode :
    decode 0x00000723#32 = .ok (.sbb true true true) := by
  decide

theorem witness_DecodeAcceptsExactlyTheLegalWords :
    (opcodeAssigned (0x0000F001 % 256) = true ∧ 0x0000F001#32 &&& 0xFFFFFF00#32 &&& ~~~opcodeMask (0x0000F001 % 256) = 0#32)
      ∧ (opcodeAssigned 0x08 = true ∧ opcodeAssigned 0x09 = false ∧ opcodeAssigned 0x1F = false ∧ opcodeAssigned 0x20 = true
        ∧ opcodeAssigned 0x33 = true ∧ opcodeAssigned 0x34 = false ∧ opcodeAssigned 0x46 = true ∧ opcodeAssigned 0x47 = false
        ∧ opcodeAssigned 0x66 = true ∧ opcodeAssigned 0x67 = false ∧ opcodeAssigned 0x00 = false)
      ∧ (opcodeAssigned (0x00010001 % 256) = true
        ∧ 0x00010001#32 &&& 0xFFFFFF00#32 &&& ~~~opcodeMask (0x00010001 % 256) ≠ 0#32) := by
  decide

/-- A block whose host presents these moves. -/
def host (moves : List HostMove) : State := { blk 4 .w8 [ent 1, ent 2] with inputs := moves }

/-- A command of this word without side fields. -/
def word (w : BitVec 32) : Command := { Command.blank with cmd := w }

/-- A block whose host must keep TEXT_MAX 1 and COMMENT_MAX 0, with this command next. -/
def bounded (c : Command) : State :=
  { host [.command c] with cfg := { Config.defaultParams with textMax := some 1, commentMax := some 0 } }

/-- The stack of `blk 4 .w8 [ent 1, ent 2]` in other slots, with other contents in the dead ones. -/
def moved : State :=
  { blk 4 .w8 [] with dq := { cap := 4, rb := [ent 9, ent 1, ent 2, ent 9], head := 3, tail := 1 } }

theorem witness_StepRunsTheDecodedCommand :
    (host [.command (word 0x20#32), .reset]).inputs = .command (word 0x20#32) :: [.reset]
      ∧ (word 0x20#32).wf (host []).cfg = true ∧ decode (word 0x20#32).cmd = .ok (.add false false false)
      ∧ Instr.wf (.add false false false) = true := by
  decide

theorem witness_StepRaisesIllegalCommand :
    (word 0#32).wf (host []).cfg = true ∧ opcodeAssigned ((word 0#32).cmd.toNat % 256) = false
      ∧ (word 0x80000020#32).wf (host []).cfg = true
      ∧ (word 0x80000020#32).cmd &&& 0xFFFFFF00#32 &&& ~~~opcodeMask ((word 0x80000020#32).cmd.toNat % 256) ≠ 0#32
      ∧ (host [.command (word 0#32)]).inputs = .command (word 0#32) :: []
      ∧ (host [.command (word 0x80000020#32)]).inputs = .command (word 0x80000020#32) :: [] := by
  decide

theorem witness_StepIdleHoldsState :
    (host []).inputs = [] ∧ (host []).dq.stack = [ent 1, ent 2] := by
  decide

theorem witness_StepTakesReset :
    (host [.reset]).inputs = .reset :: [] ∧ 2 ≤ (host [.reset]).dq.cap := by
  decide

theorem witness_StepRefusesHostBreach :
    ((bounded { Command.blank with text := [1#8, 2#8] }).inputs = .command { Command.blank with text := [1#8, 2#8] } :: []
        ∧ Command.textFits (bounded Command.blank).cfg { Command.blank with text := [1#8, 2#8] } = false)
      ∧ (bounded { Command.blank with cmt0 := some [1#8] }).inputs = .command { Command.blank with cmt0 := some [1#8] } :: []
      ∧ Command.textFits (bounded Command.blank).cfg { Command.blank with cmt0 := some [1#8] } = true
      ∧ Command.commentsFit (bounded Command.blank).cfg { Command.blank with cmt0 := some [1#8] } = false := by
  decide

theorem witness_ResetMeetsTheInvariant :
    capWf 2 = true ∧ (State.resetWith 2 Config.defaultParams).Inv := by
  decide

theorem witness_StepKeepsTheInvariant :
    (host [.command (word 0x20#32)]).Inv
      ∧ ∃ t, step (host [.command (word 0x20#32)]) = .next t ∧ t.dq.stack = [ent 3] := by
  exact ⟨by decide, _, rfl, by decide⟩

theorem witness_StepNeverStops :
    (host [.command (word 0x20#32), .reset]).Inv ∧ (host [.command (word 0x20#32), .reset]).hostKeepsBounds := by
  refine ⟨by decide, ?_⟩
  intro c hc
  have h : c = word 0x20#32 := by simpa [host] using hc
  subst h
  decide

theorem witness_RunsKeepTheCapacityLaw :
    (2 : Nat) ≤ 2
      ∧ ∃ t, Sys2Proof.core.run 1 { State.resetWith 2 Config.defaultParams with inputs := [.command (word 0x01#32)] } = .next t
        ∧ t.dq.count = 1 := by
  exact ⟨by decide, _, rfl, by decide⟩

theorem witness_FailedCommandChangesNothing :
    (blk 4 .w8 [ent 5, ent 0]).dq.wf
      ∧ ∃ t, exec (.divu false false false) (blk 4 .w8 [ent 5, ent 0]) = .next t ∧ t.resp.status ≠ 0#4 := by
  exact ⟨by decide, _, rfl, by decide⟩

theorem witness_StatusIsNeverStackEmpty :
    (blk 4 .w8 []).dq.wf ∧ ∃ t, exec .not (blk 4 .w8 []) = .next t ∧ t.resp.status = 1#4 := by
  exact ⟨by decide, _, rfl, by decide⟩

theorem witness_EqualStacksAreIndistinguishable :
    moved.dq.wf ∧ (blk 4 .w8 [ent 1, ent 2]).dq.wf ∧ moved.agrees (blk 4 .w8 [ent 1, ent 2])
      ∧ moved.dq ≠ (blk 4 .w8 [ent 1, ent 2]).dq := by
  decide

theorem witness_RunsAreFunctionsOfTheMoves :
    { moved with inputs := [.command (word 0x20#32)] : State }.dq.wf ∧ (host [.command (word 0x20#32)]).dq.wf
      ∧ { moved with inputs := [.command (word 0x20#32)] : State }.agrees (host [.command (word 0x20#32)])
      ∧ moved.resp = (host []).resp ∧ moved.dq ≠ (host []).dq := by
  decide

theorem witness_QueriesChangeNothing :
    Instr.peek = .peek ∧ Instr.count = .count ∧ Instr.wbytes = .wbytes ∧ Instr.getitems = .getitems
      ∧ ∃ f, Instr.parse .octal = .parse f := by
  exact ⟨rfl, rfl, rfl, rfl, .octal, rfl⟩

theorem witness_DequeRoundTrip :
    (blk 4 .w8 [ent 1]).dq.wf ∧ (blk 4 .w8 [ent 1]).dq.count + [ent 2, ent 3].length < (blk 4 .w8 [ent 1]).dq.cap := by
  decide

theorem witness_PushFrontWritesOneSlot :
    ((blk 4 .w8 [ent 1, ent 2]).dq.wf ∧ 1 ≤ (blk 4 .w8 [ent 1, ent 2]).dq.free)
      ∧ (blk 4 .w8 [ent 1, ent 2, ent 3]).dq.wf ∧ (blk 4 .w8 [ent 1, ent 2, ent 3]).dq.free < 1 := by
  decide

theorem witness_PushPushesTheCastValue :
    (blk 4 .w8 [ent 1, ent 2]).dq.wf ∧ (4#3).toNat ≤ 4
      ∧ (blk 4 .w8 [ent 1, ent 2]).dq.stack.length + 1 < (blk 4 .w8 [ent 1, ent 2]).dq.cap := by
  decide

theorem witness_PushAndConvertErrors :
    4 < (5#3).toNat ∧ (4#3).toNat ≤ 4 ∧ (blk 4 .w8 [ent 1, ent 2, ent 3]).dq.wf
      ∧ (blk 4 .w8 [ent 1, ent 2, ent 3]).dq.stack.length = (blk 4 .w8 [ent 1, ent 2, ent 3]).dq.cap - 1 := by
  decide

theorem witness_PeekReadsTheTop :
    ((blk 4 .w8 [ent 1, ent 2]).dq.wf ∧ (blk 4 .w8 [ent 1, ent 2]).dq.stack = [ent 1] ++ [ent 2])
      ∧ (blk 4 .w8 []).dq.wf ∧ (blk 4 .w8 []).dq.stack = [] := by
  decide

theorem witness_ClearEmptiesTheStack :
    (blk 4 .w8 [ent 1, ent 2, ent 3]).dq.wf ∧ (blk 4 .w8 [ent 1, ent 2, ent 3]).dq.stack = [ent 1, ent 2, ent 3] := by
  decide

theorem witness_GetitemsAnswersTheTopEntries :
    (blk 4 .w8 [ent 1, ent 2, ent 3]).dq.wf ∧ (blk 4 .w8 [ent 1, ent 2, ent 3]).dq.stack = [ent 1, ent 2, ent 3] := by
  decide

theorem witness_CountAndWbytesAnswer :
    (blk 4 .w8 [ent 1, ent 2, ent 3]).dq.stack.length < 2 ^ 32 := by
  exact (by decide : (blk 4 .w8 [ent 1, ent 2, ent 3]).dq.stack.length ≤ 3).trans_lt (by norm_num)

theorem witness_ConvertMapsEveryValue :
    (blk 4 .w8 [ent 1, ent 2, ent 3]).dq.wf ∧ (0#3).toNat ≤ 4 ∧ (4#3).toNat ≤ 4 := by
  decide

theorem witness_WidenThenNarrowRestores :
    (blk 4 .w8 [ent 0x80, ent 0xFF]).Inv ∧ widthBits (blk 4 .w8 []).width ≤ widthBits .w8
      ∧ widthBits (blk 4 .w8 []).width ≤ widthBits .w128 := by
  decide

theorem witness_AddAndSubtractAreExact :
    ((blk 4 .w8 [ent 7, ent 128, ent 255]).dq.wf ∧ (blk 4 .w8 [ent 7, ent 128, ent 255]).dq.stack = [ent 7] ++ [ent 128, ent 255]) := by
  decide

theorem witness_MultiplyIsExact :
    ((blk 4 .w8 [ent 7, ent 128, ent 255]).dq.wf ∧ (blk 4 .w8 [ent 7, ent 128, ent 255]).dq.stack = [ent 7] ++ [ent 128, ent 255]) := by
  decide

theorem witness_BitwiseCommandsCombineBits :
    ((blk 4 .w8 [ent 7, ent 128, ent 255]).dq.wf ∧ (blk 4 .w8 [ent 7, ent 128, ent 255]).dq.stack = [ent 7] ++ [ent 128, ent 255]) := by
  decide

theorem witness_DivisionByZeroFails :
    ((blk 4 .w8 [ent 7, ent 128, ent 0]).dq.wf ∧ (blk 4 .w8 [ent 7, ent 128, ent 0]).dq.stack = [ent 7] ++ [ent 128, ent 0] ∧ (blk 4 .w8 [ent 7, ent 128, ent 0]).uval (ent 0) = 0) := by
  decide

theorem witness_DivisionsDivide :
    ((blk 4 .w8 [ent 7, ent 249, ent 2]).dq.wf ∧ (blk 4 .w8 [ent 7, ent 249, ent 2]).dq.stack = [ent 7] ++ [ent 249, ent 2] ∧ (blk 4 .w8 [ent 7, ent 249, ent 2]).uval (ent 2) ≠ 0 ∧ ¬ ((blk 4 .w8 [ent 7, ent 249, ent 2]).sval (ent 249) = -2 ^ (widthBits (blk 4 .w8 [ent 7, ent 249, ent 2]).width - 1) ∧ (blk 4 .w8 [ent 7, ent 249, ent 2]).sval (ent 2) = -1)
        ∧ (blk 4 .w8 [ent 7, ent 249, ent 2]).sval (ent 249) = -3 * (blk 4 .w8 [ent 7, ent 249, ent 2]).sval (ent 2) + -1 ∧ |(-1 : Int)| < |(blk 4 .w8 [ent 7, ent 249, ent 2]).sval (ent 2)| ∧ (-1 : Int).sign = ((blk 4 .w8 [ent 7, ent 249, ent 2]).sval (ent 249)).sign) := by
  decide

theorem witness_SignedDivisionOverflow :
    ((blk 4 .w8 [ent 7, ent 128, ent 255]).dq.wf ∧ (blk 4 .w8 [ent 7, ent 128, ent 255]).dq.stack = [ent 7] ++ [ent 128, ent 255] ∧ (blk 4 .w8 [ent 7, ent 128, ent 255]).sval (ent 128) = -2 ^ (widthBits (blk 4 .w8 [ent 7, ent 128, ent 255]).width - 1) ∧ (blk 4 .w8 [ent 7, ent 128, ent 255]).sval (ent 255) = -1
        ∧ (blk 4 .w8 [ent 7, ent 128, ent 255]).cfg.sdivOverflow = .wrap
        ∧ { (blk 4 .w8 [ent 7, ent 128, ent 255]) with cfg := { Config.defaultParams with sdivOverflow := .fault } : State }.dq.stack = [ent 7] ++ [ent 0x80, ent 0xFF]
        ∧ { (blk 4 .w8 [ent 7, ent 128, ent 255]) with cfg := { Config.defaultParams with sdivOverflow := .fault } : State }.cfg.sdivOverflow = .fault) := by
  decide

theorem witness_ShiftsShift :
    ((blk 4 .w8 [ent 7, ent 129, ent 0]).dq.wf ∧ (blk 4 .w8 [ent 7, ent 129, ent 0]).dq.stack = [ent 7] ++ [ent 129, ent 0] ∧ (blk 4 .w8 [ent 7, ent 129, ent 0]).sval (ent 0) = 0)
      ∧ ((blk 4 .w8 [ent 7, ent 129, ent 9]).dq.wf ∧ (blk 4 .w8 [ent 7, ent 129, ent 9]).dq.stack = [ent 7] ++ [ent 129, ent 9] ∧ (widthBits (blk 4 .w8 [ent 7, ent 129, ent 9]).width : Int) < (blk 4 .w8 [ent 7, ent 129, ent 9]).sval (ent 9))
      ∧ ((blk 4 .w8 [ent 7, ent 129, ent 1]).dq.wf ∧ (blk 4 .w8 [ent 7, ent 129, ent 1]).dq.stack = [ent 7] ++ [ent 129, ent 1] ∧ (blk 4 .w8 [ent 7, ent 129, ent 1]).sval (ent 1) = (1 : Nat))
      ∧ ((blk 4 .w8 [ent 7, ent 129, ent 8]).dq.wf ∧ (blk 4 .w8 [ent 7, ent 129, ent 8]).dq.stack = [ent 7] ++ [ent 129, ent 8] ∧ (blk 4 .w8 [ent 7, ent 129, ent 8]).sval (ent 8) = (8 : Nat) ∧ 8 ≤ widthBits (blk 4 .w8 [ent 7, ent 129, ent 8]).width) := by
  decide

theorem witness_RotatesRotate :
    ((blk 4 .w8 [ent 7, ent 129, ent 0]).dq.wf ∧ (blk 4 .w8 [ent 7, ent 129, ent 0]).dq.stack = [ent 7] ++ [ent 129, ent 0] ∧ (blk 4 .w8 [ent 7, ent 129, ent 0]).sval (ent 0) = 0)
      ∧ ((blk 4 .w8 [ent 7, ent 129, ent 1]).dq.wf ∧ (blk 4 .w8 [ent 7, ent 129, ent 1]).dq.stack = [ent 7] ++ [ent 129, ent 1] ∧ (blk 4 .w8 [ent 7, ent 129, ent 1]).sval (ent 1) = (1 : Nat))
      ∧ ((blk 4 .w8 [ent 7, ent 129, ent 127]).dq.wf ∧ (blk 4 .w8 [ent 7, ent 129, ent 127]).dq.stack = [ent 7] ++ [ent 129, ent 127] ∧ (blk 4 .w8 [ent 7, ent 129, ent 127]).sval (ent 127) = (127 : Nat)) := by
  decide

theorem witness_RotatesThroughCarryRotate :
    ((blk 4 .w8 [ent 7, ent 129, ent 0]).dq.wf ∧ (blk 4 .w8 [ent 7, ent 129, ent 0]).dq.stack = [ent 7] ++ [ent 129, ent 0] ∧ (blk 4 .w8 [ent 7, ent 129, ent 0]).sval (ent 0) = 0)
      ∧ ((blk 4 .w8 [ent 7, ent 129, ent 9]).dq.wf ∧ (blk 4 .w8 [ent 7, ent 129, ent 9]).dq.stack = [ent 7] ++ [ent 129, ent 9] ∧ (blk 4 .w8 [ent 7, ent 129, ent 9]).sval (ent 9) = (9 : Nat)
        ∧ (∀ j, j < widthBits (blk 4 .w8 [ent 7, ent 129, ent 9]).width → (fun j => decide (j = 8) || bitOf (ent 129) j) j = bitOf (ent 129) j)
        ∧ (fun j => decide (j = 8) || bitOf (ent 129) j) (widthBits (blk 4 .w8 [ent 7, ent 129, ent 9]).width) = true) := by
  decide

theorem witness_AlignmentsRound :
    ((blk 4 .w8 [ent 7, ent 19, ent 0]).dq.wf ∧ (blk 4 .w8 [ent 7, ent 19, ent 0]).dq.stack = [ent 7] ++ [ent 19, ent 0] ∧ (blk 4 .w8 [ent 7, ent 19, ent 0]).sval (ent 0) = (0 : Nat) ∧ 0 < widthBits (blk 4 .w8 [ent 7, ent 19, ent 0]).width)
      ∧ ((blk 4 .w8 [ent 7, ent 19, ent 7]).dq.wf ∧ (blk 4 .w8 [ent 7, ent 19, ent 7]).dq.stack = [ent 7] ++ [ent 19, ent 7] ∧ (blk 4 .w8 [ent 7, ent 19, ent 7]).sval (ent 7) = (7 : Nat) ∧ 7 < widthBits (blk 4 .w8 [ent 7, ent 19, ent 7]).width)
      ∧ ((blk 4 .w8 [ent 7, ent 19, ent 8]).dq.wf ∧ (blk 4 .w8 [ent 7, ent 19, ent 8]).dq.stack = [ent 7] ++ [ent 19, ent 8] ∧ (widthBits (blk 4 .w8 [ent 7, ent 19, ent 8]).width : Int) ≤ (blk 4 .w8 [ent 7, ent 19, ent 8]).sval (ent 8)) := by
  decide

theorem witness_NegativeAmountFails :
    ((blk 4 .w8 [ent 7, ent 19, ent 128]).dq.wf ∧ (blk 4 .w8 [ent 7, ent 19, ent 128]).dq.stack = [ent 7] ++ [ent 19, ent 128] ∧ (blk 4 .w8 [ent 7, ent 19, ent 128]).sval (ent 128) < 0)
      ∧ ((blk 4 .w8 [ent 7, ent 19, ent 255]).dq.wf ∧ (blk 4 .w8 [ent 7, ent 19, ent 255]).dq.stack = [ent 7] ++ [ent 19, ent 255] ∧ (blk 4 .w8 [ent 7, ent 19, ent 255]).sval (ent 255) < 0) := by
  decide

theorem witness_InsufficientOperandsFail :
    (isBinaryCommand (.add false false false) = true ∧ isBinaryCommand (.aligndn false false false) = true
        ∧ (blk 4 .w8 [ent 1]).dq.stack.length < 2)
      ∧ isUnaryCommand .not = true ∧ isUnaryCommand .pow2 = true ∧ isStackCommand (.drop true) = true
      ∧ isStackCommand (.swapcmt false) = true ∧ (blk 4 .w8 []).dq.stack = [] := by
  decide

theorem witness_BinaryResultKeepsTheComments :
    isBinaryCommand (.add false false false) = true ∧ (blk 4 .w8 [ent 1, ent 2]).dq.wf
      ∧ (blk 4 .w8 [ent 1, ent 2]).dq.stack = [] ++ [ent 1, ent 2]
      ∧ ∃ t, exec (.add false false false) (blk 4 .w8 [ent 1, ent 2]) = .next t ∧ t.resp.status = 0#4 := by
  exact ⟨by decide, by decide, by decide, _, rfl, by decide⟩

theorem witness_AddThenSubtractRestores :
    (blk 4 .w8 [ent 0xFF, ent 2]).dq.wf ∧ (blk 4 .w8 [ent 0xFF, ent 2]).dq.stack = [] ++ [ent 0xFF, ent 2]
      ∧ ∃ t, exec (.add false false false) (blk 4 .w8 [ent 0xFF, ent 2]) = .next t ∧ (blk 4 .w8 [ent 1, ent 2]).dq.wf
        ∧ (blk 4 .w8 [ent 1, ent 2]).width = t.width ∧ (blk 4 .w8 [ent 1, ent 2]).dq.stack = t.dq.stack ++ [ent 2] := by
  exact ⟨by decide, by decide, _, rfl, by decide, by decide, by decide⟩

theorem witness_NotInvertsTheWord :
    ((blk 4 .w8 [ent 7, ent 241]).dq.wf ∧ (blk 4 .w8 [ent 7, ent 241]).dq.stack = [ent 7] ++ [ent 241]) := by
  decide

theorem witness_PopcntCountsOnes :
    ((blk 4 .w8 [ent 7, ent 241]).dq.wf ∧ (blk 4 .w8 [ent 7, ent 241]).dq.stack = [ent 7] ++ [ent 241]) := by
  decide

theorem witness_ZeroCountsCountZeros :
    ((blk 4 .w8 [ent 7, ent 0]).dq.wf ∧ (blk 4 .w8 [ent 7, ent 0]).dq.stack = [ent 7] ++ [ent 0])
      ∧ ((blk 4 .w8 [ent 7, ent 128]).dq.wf ∧ (blk 4 .w8 [ent 7, ent 128]).dq.stack = [ent 7] ++ [ent 128]) := by
  decide

theorem witness_MasksMakeOnes :
    ((blk 4 .w8 [ent 7, ent 0]).dq.wf ∧ (blk 4 .w8 [ent 7, ent 0]).dq.stack = [ent 7] ++ [ent 0] ∧ (blk 4 .w8 [ent 7, ent 0]).sval (ent 0) = (0 : Nat))
      ∧ ((blk 4 .w8 [ent 7, ent 8]).dq.wf ∧ (blk 4 .w8 [ent 7, ent 8]).dq.stack = [ent 7] ++ [ent 8] ∧ (blk 4 .w8 [ent 7, ent 8]).sval (ent 8) = (8 : Nat) ∧ 8 ≤ widthBits (blk 4 .w8 [ent 7, ent 8]).width)
      ∧ ((blk 4 .w8 [ent 7, ent 9]).dq.wf ∧ (blk 4 .w8 [ent 7, ent 9]).dq.stack = [ent 7] ++ [ent 9] ∧ (widthBits (blk 4 .w8 [ent 7, ent 9]).width : Int) < (blk 4 .w8 [ent 7, ent 9]).sval (ent 9))
      ∧ ((blk 4 .w8 [ent 7, ent 255]).dq.wf ∧ (blk 4 .w8 [ent 7, ent 255]).dq.stack = [ent 7] ++ [ent 255] ∧ (blk 4 .w8 [ent 7, ent 255]).sval (ent 255) < 0) := by
  decide

theorem witness_Pow2RaisesTwo :
    ((blk 4 .w8 [ent 7, ent 0]).dq.wf ∧ (blk 4 .w8 [ent 7, ent 0]).dq.stack = [ent 7] ++ [ent 0] ∧ (blk 4 .w8 [ent 7, ent 0]).sval (ent 0) = (0 : Nat))
      ∧ ((blk 4 .w8 [ent 7, ent 8]).dq.wf ∧ (blk 4 .w8 [ent 7, ent 8]).dq.stack = [ent 7] ++ [ent 8] ∧ (blk 4 .w8 [ent 7, ent 8]).sval (ent 8) = (8 : Nat))
      ∧ ((blk 4 .w8 [ent 7, ent 255]).dq.wf ∧ (blk 4 .w8 [ent 7, ent 255]).dq.stack = [ent 7] ++ [ent 255] ∧ (blk 4 .w8 [ent 7, ent 255]).sval (ent 255) < 0) := by
  decide

/-- A stack of three below a popped index of `k`. -/
def popped (k : Nat) : State := blk 5 .w8 [ent 0xA, ent 0xB, ent 0xC, com k (some [0x69#8]) none]

/-- A stack of three with an explicit index of `k` on the port. -/
def explicit (cap k : Nat) : State := side (blk cap .w8 [ent 0xA, ent 0xB, ent 0xC]) k []

/-- The popped index is read as the entry's signed value. -/
theorem popped_index (k : Nat) (z : Int) (h1 : (popped k).dq.stack = [ent 0xA, ent 0xB, ent 0xC] ++ [com k (some [0x69#8]) none])
    (h2 : z = native32 ((popped k).sval (com k (some [0x69#8]) none) % 2 ^ 32).toNat) :
    IndexedBy false (popped k) [ent 0xA, ent 0xB, ent 0xC] z (some (com k (some [0x69#8]) none)) := ⟨_, h1, h2, rfl⟩

/-- The explicit index is read from DATA. -/
theorem explicit_index (cap k : Nat) (z : Int) (h1 : (explicit cap k).dq.stack = [ent 0xA, ent 0xB, ent 0xC])
    (h2 : z = native32 (explicit cap k).port.data.toNat) :
    IndexedBy true (explicit cap k) [ent 0xA, ent 0xB, ent 0xC] z none := ⟨h1, by decide, h2, rfl⟩

theorem witness_DropRemovesTheTop :
    ((popped 2).dq.wf ∧ IndexedBy false (popped 2) [ent 0xA, ent 0xB, ent 0xC] 2 (some (com 2 (some [0x69#8]) none)))
      ∧ ((explicit 5 4).dq.wf ∧ IndexedBy true (explicit 5 4) [ent 0xA, ent 0xB, ent 0xC] 4 none)
      ∧ ((explicit 5 0xFFFFFFFFFFFFFFFFFFFFFFFFFFFFFFFF).dq.wf ∧ IndexedBy true (explicit 5 0xFFFFFFFFFFFFFFFFFFFFFFFFFFFFFFFF) [ent 0xA, ent 0xB, ent 0xC] (-1) none) := by
  exact ⟨⟨by decide, popped_index _ _ (by decide) (by decide)⟩,
    ⟨by decide, explicit_index _ _ _ (by decide) (by decide)⟩,
    ⟨by decide, explicit_index _ _ _ (by decide) (by decide)⟩⟩

theorem witness_RollRotatesTheStack :
    ((popped 255).dq.wf ∧ IndexedBy false (popped 255) [ent 0xA, ent 0xB, ent 0xC] (-1) (some (com 255 (some [0x69#8]) none)))
      ∧ ((explicit 5 2147483648).dq.wf ∧ IndexedBy true (explicit 5 2147483648) [ent 0xA, ent 0xB, ent 0xC] (-2147483648) none)
      ∧ 2 ≤ [ent 0xA, ent 0xB, ent 0xC].length := by
  exact ⟨⟨by decide, popped_index _ _ (by decide) (by decide)⟩,
    ⟨by decide, explicit_index _ _ _ (by decide) (by decide)⟩,
    by decide⟩

theorem witness_ExtractMovesToTheTop :
    ((popped 255).dq.wf ∧ IndexedBy false (popped 255) [ent 0xA, ent 0xB, ent 0xC] (-1) (some (com 255 (some [0x69#8]) none)))
      ∧ ((explicit 5 1).dq.wf ∧ IndexedBy true (explicit 5 1) [ent 0xA, ent 0xB, ent 0xC] 1 none)
      ∧ ((popped 3).dq.wf ∧ IndexedBy false (popped 3) [ent 0xA, ent 0xB, ent 0xC] 3 (some (com 3 (some [0x69#8]) none)))
      ∧ (1 : Int) ≤ 1 ∧ [ent 0xA, ent 0xB, ent 0xC] = [] ++ [ent 0xA] ++ [ent 0xB, ent 0xC] ∧ (3 : Int) = [ent 0xB, ent 0xC].length + 1 := by
  exact ⟨⟨by decide, popped_index _ _ (by decide) (by decide)⟩,
    ⟨by decide, explicit_index _ _ _ (by decide) (by decide)⟩,
    ⟨by decide, popped_index _ _ (by decide) (by decide)⟩,
    by decide⟩

theorem witness_SwapExchangesEntries :
    ((popped 1).dq.wf ∧ IndexedBy false (popped 1) [ent 0xA, ent 0xB, ent 0xC] 1 (some (com 1 (some [0x69#8]) none)))
      ∧ ((explicit 5 3).dq.wf ∧ IndexedBy true (explicit 5 3) [ent 0xA, ent 0xB, ent 0xC] 3 none)
      ∧ ((explicit 5 2).dq.wf ∧ IndexedBy true (explicit 5 2) [ent 0xA, ent 0xB, ent 0xC] 2 none)
      ∧ (1 : Int) ≤ 1 ∧ [ent 0xA, ent 0xB, ent 0xC] = [] ++ [ent 0xA] ++ [ent 0xB] ++ [ent 0xC] ∧ (3 : Int) = [ent 0xB].length + 2 := by
  exact ⟨⟨by decide, popped_index _ _ (by decide) (by decide)⟩,
    ⟨by decide, explicit_index _ _ _ (by decide) (by decide)⟩,
    ⟨by decide, explicit_index _ _ _ (by decide) (by decide)⟩,
    by decide⟩

theorem witness_PickCopiesTheValue :
    ((popped 3).dq.wf ∧ IndexedBy false (popped 3) [ent 0xA, ent 0xB, ent 0xC] 3 (some (com 3 (some [0x69#8]) none)))
      ∧ ((explicit 5 1).dq.wf ∧ IndexedBy true (explicit 5 1) [ent 0xA, ent 0xB, ent 0xC] 1 none)
      ∧ ((explicit 4 3).dq.wf ∧ IndexedBy true (explicit 4 3) [ent 0xA, ent 0xB, ent 0xC] 3 none)
      ∧ ((explicit 5 0).dq.wf ∧ IndexedBy true (explicit 5 0) [ent 0xA, ent 0xB, ent 0xC] 0 none)
      ∧ ((explicit 5 4).dq.wf ∧ IndexedBy true (explicit 5 4) [ent 0xA, ent 0xB, ent 0xC] 4 none)
      ∧ ([ent 0xA, ent 0xB, ent 0xC] = [] ++ [ent 0xA] ++ [ent 0xB, ent 0xC] ∧ (3 : Int) = [ent 0xB, ent 0xC].length + 1
        ∧ [ent 0xA, ent 0xB, ent 0xC].length + 1 < (popped 3).dq.cap ∧ [ent 0xA, ent 0xB, ent 0xC].length + 1 = (explicit 4 3).dq.cap
        ∧ (0 : Int) < 1 ∧ ([ent 0xA, ent 0xB, ent 0xC].length : Int) < 4) := by
  exact ⟨⟨by decide, popped_index _ _ (by decide) (by decide)⟩,
    ⟨by decide, explicit_index _ _ _ (by decide) (by decide)⟩,
    ⟨by decide, explicit_index _ _ _ (by decide) (by decide)⟩,
    ⟨by decide, explicit_index _ _ _ (by decide) (by decide)⟩,
    ⟨by decide, explicit_index _ _ _ (by decide) (by decide)⟩,
    by decide⟩

theorem witness_SetcmtMovesTheComment :
    ((popped 1).dq.wf ∧ IndexedBy false (popped 1) [ent 0xA, ent 0xB, ent 0xC] 1 (some (com 1 (some [0x69#8]) none)))
      ∧ ((popped 3).dq.wf ∧ IndexedBy false (popped 3) [ent 0xA, ent 0xB, ent 0xC] 3 (some (com 3 (some [0x69#8]) none)))
      ∧ [ent 0xA, ent 0xB, ent 0xC] = [] ++ [ent 0xA] ++ [ent 0xB, ent 0xC] ∧ (3 : Int) = [ent 0xB, ent 0xC].length + 1 ∧ (explicit 5 1).dq.stack ≠ [] := by
  exact ⟨⟨by decide, popped_index _ _ (by decide) (by decide)⟩,
    ⟨by decide, popped_index _ _ (by decide) (by decide)⟩,
    by decide⟩

theorem witness_SwapcmtExchangesTheComments :
    ((popped 3).dq.wf ∧ IndexedBy false (popped 3) [ent 0xA, ent 0xB, ent 0xC] 3 (some (com 3 (some [0x69#8]) none)))
      ∧ ((explicit 5 1).dq.wf ∧ IndexedBy true (explicit 5 1) [ent 0xA, ent 0xB, ent 0xC] 1 none)
      ∧ [ent 0xA, ent 0xB, ent 0xC] = [] ++ [ent 0xA] ++ [ent 0xB, ent 0xC] ∧ (3 : Int) = [ent 0xB, ent 0xC].length + 1 := by
  exact ⟨⟨by decide, popped_index _ _ (by decide) (by decide)⟩,
    ⟨by decide, explicit_index _ _ _ (by decide) (by decide)⟩,
    by decide⟩

theorem witness_IndexOutOfRangeFails :
    ((popped 4).dq.wf ∧ IndexedBy false (popped 4) [ent 0xA, ent 0xB, ent 0xC] 4 (some (com 4 (some [0x69#8]) none)))
      ∧ ((explicit 5 4).dq.wf ∧ IndexedBy true (explicit 5 4) [ent 0xA, ent 0xB, ent 0xC] 4 none)
      ∧ ((popped 0).dq.wf ∧ IndexedBy false (popped 0) [ent 0xA, ent 0xB, ent 0xC] 0 (some (com 0 (some [0x69#8]) none)))
      ∧ (1 : Int) < 4 ∧ ([ent 0xA, ent 0xB, ent 0xC].length : Int) < 4 ∧ (0 : Int) < 1 := by
  exact ⟨⟨by decide, popped_index _ _ (by decide) (by decide)⟩,
    ⟨by decide, explicit_index _ _ _ (by decide) (by decide)⟩,
    ⟨by decide, popped_index _ _ (by decide) (by decide)⟩,
    by decide⟩

theorem witness_ParseOfBlankAndEmptyInput :
    (∀ ch ∈ [0x09#8, 0x0D#8, 0x20#8], ch = 0x20#8 ∨ (0x09 ≤ ch.toNat ∧ ch.toNat ≤ 0x0D))
      ∧ (side State.reset 0 [0x09#8, 0x0D#8, 0x20#8]).port.text = [0x09#8, 0x0D#8, 0x20#8]
      ∧ (side State.reset 0 ([0x09#8, 0x0D#8, 0x20#8] ++ [0x3A#8] ++ [0x78#8])).port.text
        = [0x09#8, 0x0D#8, 0x20#8] ++ [0x3A#8] ++ [0x78#8]
      ∧ (side State.reset 0 ([0x20#8] ++ [0x2D#8] ++ [0x20#8])).port.text = [0x20#8] ++ [0x2D#8] ++ [0x20#8] := by
  decide

/-- A text without a separator, as the statements on PARSE read it. -/
theorem entry_plain {before tok after core : Bytes}
    (h : core ≠ [] ∧ (∀ ch ∈ core, ch ≠ 0x3B#8 ∧ ch ≠ 0x3A#8) ∧ ¬ Blank core.head?.toList ∧ ¬ Blank core.getLast?.toList
      ∧ Blank before ∧ Blank after ∧ tok.filter (fun ch => ch != 0x20#8) = core) :
    EntryText (before ++ tok ++ after) core none :=
  ⟨h.1, h.2.1, fun _ e => by simpa [e] using h.2.2.1, before, tok, after, h.2.2.2.2.1, h.2.2.2.2.2.1, h.2.2.2.2.2.2, rfl,
    fun _ e => by simpa [e] using h.2.2.2.1⟩

theorem entry_bare {text core : Bytes} (e : text = core)
    (h : core ≠ [] ∧ (∀ ch ∈ core, ch ≠ 0x3B#8 ∧ ch ≠ 0x3A#8) ∧ ¬ Blank core.head?.toList ∧ ¬ Blank core.getLast?.toList
      ∧ core.filter (fun ch => ch != 0x20#8) = core) : EntryText text core none := by
  subst e
  simpa using entry_plain (before := []) (tok := text) (after := [])
    ⟨h.1, h.2.1, h.2.2.1, h.2.2.2.1, by decide, by decide, h.2.2.2.2⟩

/-- A text with a separator and a comment, as the statements on PARSE read it. -/
theorem entry_commented {before tok gap cm after core : Bytes} (colon : Bool)
    (h : core ≠ [] ∧ (∀ ch ∈ core, ch ≠ 0x3B#8 ∧ ch ≠ 0x3A#8) ∧ ¬ Blank core.head?.toList ∧ ¬ Blank cm.head?.toList
      ∧ ¬ Blank cm.getLast?.toList ∧ Blank before ∧ Blank after ∧ Blank gap
      ∧ tok.filter (fun ch => ch != 0x20#8) = core) :
    EntryText (before ++ tok ++ [if colon then 0x3A#8 else 0x3B#8] ++ gap ++ cm ++ after) core (some (colon, cm)) :=
  ⟨h.1, h.2.1, fun _ e => by simpa [e] using h.2.2.1, before, tok, after, h.2.2.2.2.2.1, h.2.2.2.2.2.2.1,
    h.2.2.2.2.2.2.2.2,
    fun _ e => e.elim (fun e => by simpa [e] using h.2.2.2.1) fun e => by simpa [e] using h.2.2.2.2.1,
    gap, h.2.2.2.2.2.2.2.1, rfl⟩

theorem not_prefixed {f : Radix} {body : Bytes} (h : leadingRadix f body = none) (r : Nat) (x : Bytes) :
    ¬ Prefixed f body r x := fun hp => by simp [(leadingRadix_iff f body x r).2 hp] at h

theorem unmarked {f : Radix} {body : Bytes} (h : leadingRadix f body = none) (h' : trailingRadix body = none) :
    Unmarked f body :=
  ⟨not_prefixed h, fun r x hs => by simp [(trailingRadix_iff body x r).2 hs.2] at h'⟩

/-- The clauses of ParseReadsDigits: `" - 9 0 : x "`, `"f F"` between a carriage return and a tab (V254), `2^128 - 1` and `2^128` in hexadecimal (V259), and
`2^128` in octal (46_parse.md R291). -/
theorem witness_ParseReadsDigits :
    ((∀ d ∈ [(false, 9), (false, 0)], d.2 < defaultRadix .decimal) ∧ digitsValue (defaultRadix .decimal) [9, 0] < 2 ^ 128
        ∧ EntryText
          (side State.reset 0 [0x09#8, 0x2D#8, 0x20#8, 0x39#8, 0x20#8, 0x30#8, 0x20#8, 0x3A#8, 0x20#8, 0x78#8, 0x0A#8]).port.text
          (signed true (digitBytes [(false, 9), (false, 0)])) (some (true, [0x78#8])))
      ∧ ((∀ d ∈ [(false, 15), (true, 15)], d.2 < defaultRadix .hexadecimal)
        ∧ EntryText (side State.reset 0 [0x0D#8, 0x66#8, 0x20#8, 0x46#8, 0x09#8]).port.text (signed false (digitBytes [(false, 15), (true, 15)])) none)
      ∧ ((∀ d ∈ List.replicate 32 (false, 15), d.2 < defaultRadix .hexadecimal)
        ∧ digitsValue (defaultRadix .hexadecimal) (List.replicate 32 15) < 2 ^ 128
        ∧ EntryText (side State.reset 0 (List.replicate 32 0x66#8)).port.text
          (signed false (digitBytes (List.replicate 32 (false, 15)))) none)
      ∧ ((∀ d ∈ (false, 1) :: List.replicate 32 (false, 0), d.2 < defaultRadix .hexadecimal)
        ∧ 2 ^ 128 ≤ digitsValue (defaultRadix .hexadecimal) (1 :: List.replicate 32 0)
        ∧ EntryText (side State.reset 0 (0x31#8 :: List.replicate 32 0x30#8)).port.text
          (signed false (digitBytes ((false, 1) :: List.replicate 32 (false, 0)))) none)
      ∧ ((∀ d ∈ (false, 4) :: List.replicate 42 (false, 0), d.2 < defaultRadix .octal)
        ∧ defaultRadix .octal = 8 ∧ 2 ^ 128 ≤ digitsValue (defaultRadix .octal) (4 :: List.replicate 42 0)
        ∧ EntryText (side State.reset 0 (0x34#8 :: List.replicate 42 0x30#8)).port.text
          (signed false (digitBytes ((false, 4) :: List.replicate 42 (false, 0)))) none) := by
  refine ⟨⟨by decide, by decide, ?_⟩, ⟨by decide, ?_⟩, ⟨by decide, by decide, ?_⟩, ⟨by decide, by decide, ?_⟩,
    by decide, by decide, by decide, ?_⟩
  · exact entry_commented (before := [0x09#8]) (tok := [0x2D#8, 0x20#8, 0x39#8, 0x20#8, 0x30#8, 0x20#8]) (gap := [0x20#8])
      (after := [0x0A#8]) true (by decide)
  · exact entry_plain (before := [0x0D#8]) (tok := [0x66#8, 0x20#8, 0x46#8]) (after := [0x09#8]) (by decide)
  all_goals exact entry_bare rfl (by decide)

/-- The clauses of ParseReadsPrefixesAndSuffixes: `"-0X1f ;c"`, `0b10`, `1fh` (V242), the octal wrap with suffix `o` (V260)
and the overflow of a literal with prefix `0x`. -/
theorem witness_ParseReadsPrefixesAndSuffixes :
    (Prefixed .decimal [0x30#8, 0x58#8, 0x31#8, 0x66#8] 16 (digitBytes [(false, 1), (false, 15)])
        ∧ (∀ d ∈ [(false, 1), (false, 15)], d.2 < 16) ∧ digitsValue 16 [1, 15] < 2 ^ 128
        ∧ EntryText (side State.reset 0 [0x2D#8, 0x30#8, 0x58#8, 0x31#8, 0x66#8, 0x20#8, 0x3B#8, 0x63#8]).port.text
          (signed true [0x30#8, 0x58#8, 0x31#8, 0x66#8]) (some (false, [0x63#8])))
      ∧ (Prefixed .decimal [0x30#8, 0x62#8, 0x31#8, 0x30#8] 2 (digitBytes [(true, 1), (true, 0)])
        ∧ (∀ d ∈ [(true, 1), (true, 0)], d.2 < 2)
        ∧ EntryText (side State.reset 0 [0x30#8, 0x62#8, 0x31#8, 0x30#8]).port.text
          (signed false [0x30#8, 0x62#8, 0x31#8, 0x30#8]) none)
      ∧ (Suffixed .decimal [0x31#8, 0x66#8, 0x68#8] 16 (digitBytes [(false, 1), (false, 15)])
        ∧ EntryText (side State.reset 0 [0x31#8, 0x66#8, 0x68#8]).port.text (signed false [0x31#8, 0x66#8, 0x68#8]) none)
      ∧ (Suffixed .decimal (0x34#8 :: List.replicate 42 0x30#8 ++ [0x6F#8]) 8
          (digitBytes ((false, 4) :: List.replicate 42 (false, 0)))
        ∧ (∀ d ∈ (false, 4) :: List.replicate 42 (false, 0), d.2 < 8) ∧ 2 ^ 128 ≤ digitsValue 8 (4 :: List.replicate 42 0)
        ∧ EntryText (side State.reset 0 (0x34#8 :: List.replicate 42 0x30#8 ++ [0x6F#8])).port.text
          (signed false (0x34#8 :: List.replicate 42 0x30#8 ++ [0x6F#8])) none)
      ∧ (Prefixed .decimal ([0x30#8, 0x78#8, 0x31#8] ++ List.replicate 32 0x30#8) 16
          (digitBytes ((false, 1) :: List.replicate 32 (false, 0)))
        ∧ (∀ d ∈ (false, 1) :: List.replicate 32 (false, 0), d.2 < 16)
        ∧ 2 ^ 128 ≤ digitsValue 16 (1 :: List.replicate 32 0)
        ∧ EntryText (side State.reset 0 ([0x30#8, 0x78#8, 0x31#8] ++ List.replicate 32 0x30#8)).port.text
          (signed false ([0x30#8, 0x78#8, 0x31#8] ++ List.replicate 32 0x30#8)) none) := by
  refine ⟨⟨⟨0x58#8, by decide⟩, by decide, by decide, ?_⟩, ⟨⟨0x62#8, by decide⟩, by decide, ?_⟩,
    ⟨⟨not_prefixed (by decide), 0x68#8, by decide⟩, ?_⟩, ⟨⟨not_prefixed (by decide), 0x6F#8, by decide⟩, by decide, by decide, ?_⟩,
    ⟨0x78#8, by decide⟩, by decide, by decide, ?_⟩
  · exact entry_commented (before := []) (tok := [0x2D#8, 0x30#8, 0x58#8, 0x31#8, 0x66#8, 0x20#8]) (gap := [])
      (after := []) false (by decide)
  all_goals exact entry_bare rfl (by decide)

/-- The clauses of ParseRefusesOtherBytes: decimal `12ab` (V256), `101b` (V240), `--5` (V229), `1-2` and a tab inside (V226),
octal `8` (V253), `0x1h` (V238), `h` (V241). -/
theorem witness_ParseRefusesOtherBytes :
    (∀ body ∈ [[0x31#8, 0x32#8, 0x61#8, 0x62#8], [0x31#8, 0x30#8, 0x31#8, 0x62#8], [0x31#8, 0x2D#8, 0x32#8],
        [0x31#8, 0x09#8, 0x32#8]],
      body.head? ≠ some 0x2D#8 ∧ EntryText (side State.reset 0 body).port.text (signed false body) none
        ∧ Unmarked .decimal body ∧ NotDigits (defaultRadix .decimal) body)
      ∧ (EntryText (side State.reset 0 [0x2D#8, 0x2D#8, 0x35#8]).port.text (signed true [0x2D#8, 0x35#8]) none
        ∧ Unmarked .decimal [0x2D#8, 0x35#8] ∧ NotDigits (defaultRadix .decimal) [0x2D#8, 0x35#8])
      ∧ (EntryText (side State.reset 0 [0x38#8]).port.text (signed false [0x38#8]) none
        ∧ Unmarked .octal [0x38#8] ∧ NotDigits (defaultRadix .octal) [0x38#8])
      ∧ (EntryText (side State.reset 0 [0x30#8, 0x78#8, 0x31#8, 0x68#8]).port.text
          (signed false [0x30#8, 0x78#8, 0x31#8, 0x68#8]) none
        ∧ Prefixed .decimal [0x30#8, 0x78#8, 0x31#8, 0x68#8] 16 [0x31#8, 0x68#8] ∧ NotDigits 16 [0x31#8, 0x68#8])
      ∧ (EntryText (side State.reset 0 [0x68#8]).port.text (signed false [0x68#8]) none
        ∧ Suffixed .decimal [0x68#8] 16 [] ∧ NotDigits 16 []) := by
  refine ⟨?_, ⟨?_, unmarked (by decide) (by decide), .inr (by decide)⟩, ⟨?_, unmarked (by decide) (by decide), .inr (by decide)⟩,
    ⟨?_, ⟨0x78#8, by decide⟩, .inr (by decide)⟩, ?_, ⟨not_prefixed (by decide), 0x68#8, by decide⟩, .inl rfl⟩
  · simp only [List.forall_mem_cons]
    refine ⟨⟨by decide, ?_, unmarked (by decide) (by decide), .inr (by decide)⟩,
      ⟨by decide, ?_, unmarked (by decide) (by decide), .inr (by decide)⟩,
      ⟨by decide, ?_, unmarked (by decide) (by decide), .inr (by decide)⟩,
      ⟨by decide, ?_, unmarked (by decide) (by decide), .inr (by decide)⟩, by simp⟩
    all_goals exact entry_bare rfl (by decide)
  all_goals exact entry_bare rfl (by decide)

end Sys2Proof.Tests
end

