-- ==== Sys2Proof/Proofs/Deque.lean ====
section
/-! PROOFS. Runs of one deque primitive as operations on the logical stack, and the statements on the deque
(40_deque.md R112, R127). -/

namespace Sys2Proof.Machine

/-- `push_back` of each of `es` in turn puts them below the stack, the last one lowest (40_deque.md R113). -/
theorem pushBacks_spec (es : List Entry) : ∀ {d : Deque}, d.wf → d.count + es.length < d.cap →
    ∃ d', pushBacks d es = .ok d' ∧ d'.wf ∧ d'.stack = es.reverse ++ d.stack := by
  induction es with
  | nil => intro d hw _; exact ⟨d, rfl, hw, rfl⟩
  | cons e es ih =>
    intro d hw hroom
    simp only [List.length_cons] at hroom
    obtain ⟨d1, push1, hw1, hcap1, hstack1⟩ := pushBack_spec hw (by omega) e
    have hcount1 : d1.count = d.count + 1 := by rw [count_of_stack hstack1]; simp
    obtain ⟨d2, push2, hw2, hstack2⟩ := ih hw1 (by omega)
    exact ⟨d2, by rw [pushBacks, push1]; exact push2, hw2, by rw [hstack2, hstack1]; simp⟩

/-- `pop_front` repeated answers the entries from the top down (40_deque.md R114). -/
theorem popFronts_spec {S : List Entry} (es : List Entry) : ∀ {d : Deque}, d.wf → d.stack = S ++ es.reverse →
    ∃ d', popFronts es.length d = .ok (es, d') ∧ d'.wf ∧ d'.stack = S := by
  induction es with
  | nil => intro d hw hstack; exact ⟨d, rfl, hw, by simpa using hstack⟩
  | cons e es ih =>
    intro d hw hstack
    obtain ⟨d1, pop1, hw1, -, hstack1, -⟩ := popFront_spec hw (S := S ++ es.reverse) (e := e) (by simpa using hstack)
    obtain ⟨d2, pop2, hw2, hstack2⟩ := ih hw1 hstack1
    exact ⟨d2, by simp only [List.length_cons, popFronts, pop1, pop2], hw2, hstack2⟩

/-- `pop_back` repeated answers the entries from the bottom up (40_deque.md R115). -/
theorem popBacks_spec {S : List Entry} (es : List Entry) : ∀ {d : Deque}, d.wf → d.stack = es ++ S →
    ∃ d', popBacks es.length d = .ok (es, d') ∧ d'.wf ∧ d'.stack = S := by
  induction es with
  | nil => intro d hw hstack; exact ⟨d, rfl, hw, hstack⟩
  | cons e es ih =>
    intro d hw hstack
    obtain ⟨d1, pop1, hw1, -, hstack1⟩ := popBack_spec hw hstack
    obtain ⟨d2, pop2, hw2, hstack2⟩ := ih hw1 hstack1
    exact ⟨d2, by simp only [List.length_cons, popBacks, pop1, pop2], hw2, hstack2⟩

/-- A `push_front` that answers has written the slot HEAD names and moved HEAD (40_deque.md R112). -/
theorem eq_of_pushFront {d d' : Deque} {e : Entry} (h : d.pushFront e = .ok d') :
    d' = { d with rb := d.rb.set d.head e, head := (d.head + 1) % d.cap } := by
  unfold Deque.pushFront at h
  split at h
  · cases h
  · exact (Except.ok.inj h).symm

/-- Settles O19: the pushes leave `es` above the stack, or reversed below it, and the pops take exactly that off. -/
theorem dequeRoundTrip : Obligations.DequeRoundTrip := by
  intro d es hw hroom
  constructor
  · obtain ⟨d1, push, hw1, -, hstack1⟩ := pushAll_spec es hw hroom
    obtain ⟨d2, pop, hw2, hstack2⟩ := popFronts_spec (S := d.stack) es.reverse hw1 (by simpa using hstack1)
    exact ⟨d1, d2, push, by simpa using pop, hw2, hstack2⟩
  · obtain ⟨d1, push, hw1, hstack1⟩ := pushBacks_spec es hw hroom
    obtain ⟨d2, pop, hw2, hstack2⟩ := popBacks_spec es.reverse hw1 hstack1
    exact ⟨d1, d2, push, by simpa using pop, hw2, hstack2⟩

/-- Settles O20: the stack's side is `pushFront_spec`; the slots are those of one list update at HEAD, which a deque in form
keeps inside RB. -/
theorem pushFrontWritesOneSlot : Obligations.PushFrontWritesOneSlot := by
  intro d e hw
  have hcf := count_free hw
  constructor
  · intro hfree
    obtain ⟨d', push, hw', hcap, hstack⟩ := pushFront_spec hw (by omega) e
    obtain ⟨-, hlen, hhead, -⟩ := hw
    have heq := eq_of_pushFront push
    refine ⟨d', push, ?written, fun j hj => ?others, by rw [heq], by rw [heq], hcap, hw', hstack⟩
    case written => rw [heq]; exact List.getElem?_set_self (by omega)
    case others => rw [heq]; exact List.getElem?_set_ne hj.symm
  · intro hfull
    exact pushFront_full (by omega) e

end Sys2Proof.Machine
end

/-! PROOFS. The shapes of an outcome, the cast as a number, what PUSH and GETITEMS answer and when CONVERT refuses its width
code, and the statements on them (41_data.md R140 to R149). -/

namespace Sys2Proof.Machine

/-! ## Outcomes -/

/-- A command that answers with another deque in form and a response completes with that deque's stack. -/
theorem completes_of_withDeque {i : Instr} {s : State} {d : Deque} {r : Response}
    (hrun : exec i s = .next ((s.withDeque d).respond r)) (hw : d.wf) (hcap : d.cap = s.dq.cap) :
    Completes i s s.width d.stack r :=
  ⟨_, hrun, hw, rfl, rfl, rfl, rfl, hcap, rfl, rfl⟩

/-- A command that raises an error fails with the error's code (60_exceptions.md R314). -/
theorem failsWith_of_raise {i : Instr} {s : State} {x : Err} (hrun : exec i s = .next (s.raise x)) :
    FailsWith i s (errCode x) := by
  rw [raise_eq] at hrun
  exact hrun

/-! ## Casts -/

/-- The cast of a word is `castValue` of its unsigned value (00_scope.md R16). -/
theorem conv_toNat {m : Nat} (v : BitVec m) (sx : Bool) (n : Nat) :
    (conv v sx n).toNat = castValue m n sx v.toNat := by
  unfold conv castValue
  by_cases hnarrow : n ≤ m
  · rw [if_pos hnarrow, if_pos hnarrow, BitVec.toNat_setWidth]
  · have hfit : v.toNat % 2 ^ n = v.toNat :=
      Nat.mod_eq_of_lt (v.isLt.trans_le (Nat.pow_le_pow_right (by decide) (by omega)))
    rw [if_neg hnarrow, if_neg hnarrow]
    cases sx with
    | false => simp [hfit]
    | true =>
      simp only [if_true, Bool.true_and, BitVec.toNat_signExtend, BitVec.toNat_setWidth, hfit, BitVec.msb_eq_decide]
      split <;> rfl

/-- A slot written from a cast word holds `castValue` of the word. -/
theorem slotValue_conv {m n : Nat} (hn : n ≤ 128) (v : BitVec m) (sx : Bool) :
    slotValue (conv v sx n) = BitVec.ofNat 128 (castValue m n sx v.toNat) := by
  rw [slotValue_eq hn, conv_toNat]

/-- The codes 5, 6 and 7 name no width (30_encoding.md R84). -/
theorem widthOfCode_eq_none {wc : BitVec 3} (h : 4 < wc.toNat) : widthOfCode wc = none := by
  obtain ⟨hnone, -⟩ | ⟨w, -, hle, -⟩ := widthOfCode_spec wc
  · exact hnone
  · omega

/-- The codes 0 to 4 name the width of `8 * 2^wc` bits (10_state.md R31). -/
theorem exists_widthOfCode {wc : BitVec 3} (h : wc.toNat ≤ 4) :
    ∃ w, widthOfCode wc = some w ∧ widthBits w = 8 * 2 ^ wc.toNat := by
  obtain ⟨-, hgt⟩ | ⟨w, hw, -, hbits, -⟩ := widthOfCode_spec wc
  · omega
  · exact ⟨w, hw, hbits⟩

/-! ## PUSH -/

/-- The entry PUSH puts on top: the low source bits of DATA cast to the width, with the port's comments (41_data.md R140,
R143). -/
def pushedEntry (s : State) (srcbits : Nat) (sx : Bool) : Entry :=
  { val := BitVec.ofNat 128 (castValue srcbits (widthBits s.width) sx (s.port.data.toNat % 2 ^ srcbits)),
    cmt := s.port.cmt0, alt := s.port.cmt1 }

/-- The entry `execPush` builds is `pushedEntry`. -/
theorem eq_pushedEntry (s : State) (src : Width) (sx : Bool) :
    { val := slotValue (pushValue src sx s.port.data (widthBits s.width)), cmt := s.port.cmt0, alt := s.port.cmt1 }
      = pushedEntry s (widthBits src) sx := by
  rw [pushedEntry, pushValue, slotValue_conv (widthBits_le _), BitVec.toNat_setWidth]

section
variable {s : State} {wc : BitVec 3} {src : Width} {sx : Bool}

/-- PUSH with room for its entry (41_data.md R140). -/
theorem exec_push_of_ok {d : Deque} (hsrc : widthOfCode wc = some src)
    (hpush : s.dq.pushFront (pushedEntry s (widthBits src) sx) = .ok d) :
    exec (.push wc sx) s = .next ((s.withDeque d).respond Response.blank) := by
  rw [← eq_pushedEntry] at hpush
  simp only [exec, execPush, hsrc, hpush]

/-- PUSH reports the deque's error and changes nothing else (41_data.md R144). -/
theorem exec_push_of_error {x : Err} (hsrc : widthOfCode wc = some src)
    (hpush : s.dq.pushFront (pushedEntry s (widthBits src) sx) = .error x) :
    exec (.push wc sx) s = .next (s.raise x) := by
  rw [← eq_pushedEntry] at hpush
  simp only [exec, execPush, hsrc, hpush]

/-- PUSH tests the width code before the room (60_exceptions.md R318). -/
theorem exec_push_of_badCode (hcode : widthOfCode wc = none) :
    exec (.push wc sx) s = .next (s.raise .unsupportedConversionType) := by
  simp only [exec, execPush, hcode]

theorem exec_convert_of_badCode (hcode : widthOfCode wc = none) :
    exec (.convert wc sx) s = .next (s.raise .unsupportedConversionType) := by
  simp only [exec, execConvert, hcode]

end

/-- Settles O21: `push_front` has room for the entry and appends it. -/
theorem pushPushesTheCastValue : Obligations.PushPushesTheCastValue := by
  intro s wc sx hw hcode hroom
  obtain ⟨src, hsrc, hbits⟩ := exists_widthOfCode hcode
  rw [stack_length] at hroom
  obtain ⟨d, hpush, hwd, hcap, hstack⟩ := pushFront_spec hw hroom (pushedEntry s (widthBits src) sx)
  have hdone := completes_of_withDeque (exec_push_of_ok hsrc hpush) hwd hcap
  rw [hstack, hbits] at hdone
  exact hdone

/-- Settles O22: a code above 4 names no width, and `push_front` on a full deque raises StackFull. -/
theorem pushAndConvertErrors : Obligations.PushAndConvertErrors := by
  intro s wc sx
  constructor
  · intro hcode
    have hnone := widthOfCode_eq_none hcode
    exact ⟨failsWith_of_raise (exec_push_of_badCode hnone), failsWith_of_raise (exec_convert_of_badCode hnone)⟩
  · intro _ hcode hfull
    obtain ⟨src, hsrc, -⟩ := exists_widthOfCode hcode
    rw [stack_length] at hfull
    exact failsWith_of_raise (exec_push_of_error hsrc (pushFront_full hfull.ge _))

/-! ## GETITEMS -/

/-- An entry of ITEMS carries its value at the width and both comments (41_data.md R148). -/
theorem itemOf_eq (s : State) (e : Entry) : itemOf s.width e = { e with val := BitVec.ofNat 128 (s.uval e) } := by
  rw [itemOf, slotValue_wordOf]

/-- Settles O26: `enumerate_lifo` gives the top entries, and its maximum is DATA's native integer. -/
theorem getitemsAnswersTheTopEntries : Obligations.GetitemsAnswersTheTopEntries := by
  intro s hw
  have hitems : (s.dq.enumerateLifo (dataIndex s.port.data)).map (itemOf s.width)
      = (s.dq.stack.reverse.take (native32 s.port.data.toNat).toNat).map
          fun e => { e with val := BitVec.ofNat 128 (s.uval e) } := by
    rw [enumerateLifo_spec hw, dataIndex_eq]
    exact List.map_congr_left fun e _ => itemOf_eq s e
  rw [Answers, ← hitems]
  rfl

end Sys2Proof.Machine

/-! PROOFS. A command answers success or leaves the state before it with an error response, for each shared sequence and each
command, and the rollback of a failed command (60_exceptions.md R314; 42_binary.md R164, 43_unary.md R229). -/

namespace Sys2Proof.Machine

/-- What every command does: it answers a state whose STATUS is 0, or raises an error in the state before it
(60_exceptions.md R314). -/
def SucceedsOrRaises (s : State) (o : Host.Outcome State Fault Refusal) : Prop :=
  (∃ t, o = .next t ∧ t.resp.status = 0#4) ∨ ∃ x, o = .next (s.raise x)

theorem succeedsOrRaises_respond {s : State} (t : State) {r : Response} (hr : r.status = 0#4) :
    SucceedsOrRaises s (.next (t.respond r)) :=
  .inl ⟨_, rfl, hr⟩

theorem succeedsOrRaises_raise (s : State) (x : Err) : SucceedsOrRaises s (.next (s.raise x)) := .inr ⟨x, rfl⟩

/-! ## The shared sequences -/

/-- A binary command is the common sequence of one operation (42_binary.md R160). -/
theorem exists_execBinary {i : Instr} (hi : isBinaryCommand i = true) (s : State) :
    ∃ op, exec i s = execBinary op s := by
  cases i
  case add | adc | sub | sbb | mul | divu | divs | rem | and | or | xor | shl | shr | sar | rol | ror | rcl | rcr
      | alignup | aligndn =>
    simp only [exec, execAdd, execAdc, execSub, execSbb, execMul, execDivu, execDivs, execRem, execAnd, execOr, execXor,
      execShl, execShr, execSar, execRol, execRor, execRcl, execRcr, execAlignup, execAligndn]
    exact ⟨_, rfl⟩
  all_goals exact absurd hi (by simp [isBinaryCommand, Instr.opcode])

/-- A unary command is the common sequence of one operation (43_unary.md R220). -/
theorem exists_execUnary {i : Instr} (hi : isUnaryCommand i = true) (s : State) : ∃ op, exec i s = execUnary op s := by
  cases i
  case not | maskl | maskr | popcnt | clz | ctz | pow2 =>
    simp only [exec, execNot, execMaskl, execMaskr, execPopcnt, execClz, execCtz, execPow2]
    exact ⟨_, rfl⟩
  all_goals exact absurd hi (by simp [isUnaryCommand, Instr.opcode])

/-- A stack command is the common sequence of one operation (44_stack.md R240). -/
theorem exists_execStack {i : Instr} (hi : isStackCommand i = true) (s : State) :
    ∃ op xi, exec i s = execStack op xi s := by
  cases i
  case drop xi | roll xi | extract xi | swap xi | pick xi | setcmt xi | swapcmt xi =>
    simp only [exec, execDrop, execRoll, execExtract, execSwap, execPick, execSetcmt, execSwapcmt]
    exact ⟨_, _, rfl⟩
  all_goals exact absurd hi (by simp [isStackCommand, Instr.opcode])

theorem execBinary_succeedsOrRaises {s : State} (hw : s.dq.wf) (op : (n : Nat) → BitVec n → BitVec n → AluResult n) :
    SucceedsOrRaises s (execBinary op s) := by
  obtain ⟨x, hrun, -⟩ | ⟨S, a, b, r, f, d, -, -, hrun, -⟩ := execBinary_cases hw op
  · exact .inr ⟨x, hrun⟩
  · exact .inl ⟨_, hrun, rfl⟩

theorem execUnary_succeedsOrRaises {s : State} (hw : s.dq.wf) (op : (n : Nat) → BitVec n → Except Err (BitVec n)) :
    SucceedsOrRaises s (execUnary op s) := by
  obtain ⟨x, hrun, -⟩ | ⟨S, e, r, d, -, -, hrun, -⟩ := execUnary_cases hw op
  · exact .inr ⟨x, hrun⟩
  · exact .inl ⟨_, hrun, rfl⟩

theorem execStack_succeedsOrRaises {s : State} (hw : s.dq.wf) (op : StackOp) (xi : Bool) :
    SucceedsOrRaises s (execStack op xi s) := by
  by_cases hshort : s.dq.count < 1
  · exact .inr ⟨_, execStack_short hshort op xi⟩
  · obtain ⟨S, idx, arg, hindex⟩ := exists_indexedBy (s := s) (by omega) xi
    obtain ⟨d0, -, -, -, hops⟩ := execStack_spec hw hindex
    obtain ⟨hok, herror⟩ := hops op
    cases hop : op idx arg d0 with
    | ok d => exact .inl ⟨_, hok d hop, rfl⟩
    | error x => exact .inr ⟨x, herror x hop⟩

/-! ## The commands with a sequence of their own -/

theorem execPush_succeedsOrRaises (wc : BitVec 3) (sx : Bool) (s : State) : SucceedsOrRaises s (execPush wc sx s) := by
  unfold execPush
  split
  · exact succeedsOrRaises_raise s _
  · split
    · exact succeedsOrRaises_raise s _
    · exact succeedsOrRaises_respond _ rfl

theorem execPeek_succeedsOrRaises (s : State) : SucceedsOrRaises s (execPeek s) := by
  unfold execPeek
  split
  · exact succeedsOrRaises_raise s _
  · split
    · exact succeedsOrRaises_raise s _
    · exact succeedsOrRaises_respond _ rfl

theorem execConvert_succeedsOrRaises (wc : BitVec 3) (sx : Bool) (s : State) :
    SucceedsOrRaises s (execConvert wc sx s) := by
  unfold execConvert
  split
  · exact succeedsOrRaises_raise s _
  · exact succeedsOrRaises_respond _ rfl

theorem execParse_succeedsOrRaises (fmt : Radix) (s : State) : SucceedsOrRaises s (execParse fmt s) := by
  unfold execParse
  split
  · exact succeedsOrRaises_raise s _
  · exact succeedsOrRaises_respond _ rfl
  · exact succeedsOrRaises_respond _ rfl

/-! ## Every command -/

/-- Every command succeeds with STATUS 0 or raises an error in the state before it. -/
theorem exec_succeedsOrRaises (i : Instr) {s : State} (hw : s.dq.wf) : SucceedsOrRaises s (exec i s) := by
  by_cases hbinary : isBinaryCommand i = true
  · obtain ⟨op, hrun⟩ := exists_execBinary hbinary s
    exact hrun ▸ execBinary_succeedsOrRaises hw op
  by_cases hunary : isUnaryCommand i = true
  · obtain ⟨op, hrun⟩ := exists_execUnary hunary s
    exact hrun ▸ execUnary_succeedsOrRaises hw op
  by_cases hstack : isStackCommand i = true
  · obtain ⟨op, xi, hrun⟩ := exists_execStack hstack s
    exact hrun ▸ execStack_succeedsOrRaises hw op xi
  cases i
  case push wc sx => exact execPush_succeedsOrRaises wc sx s
  case peek => exact execPeek_succeedsOrRaises s
  case convert wc sx => exact execConvert_succeedsOrRaises wc sx s
  case parse fmt => exact execParse_succeedsOrRaises fmt s
  case clear | count | wbytes | getitems => exact succeedsOrRaises_respond _ rfl
  case not | maskl | maskr | popcnt | clz | ctz | pow2 => exact absurd rfl hunary
  case drop | roll | extract | swap | pick | setcmt | swapcmt => exact absurd rfl hstack
  all_goals exact absurd rfl hbinary

/-- Settles O14: a STATUS other than 0 leaves the raised error, which changes the response only. -/
theorem failedCommandChangesNothing : Obligations.FailedCommandChangesNothing := by
  intro i s t hw hrun hstatus
  obtain ⟨t', hrun', hzero⟩ | ⟨x, hraise⟩ := exec_succeedsOrRaises i hw
  · cases hrun.symm.trans hrun'
    exact absurd hzero hstatus
  · cases hrun.symm.trans hraise
    exact raise_eq s x

end Sys2Proof.Machine

/-! PROOFS. How a binary command completes or fails by its operation, what its result entry keeps, and addition and
subtraction: the exact value and flags of the operations on words, and the statements on them (42_binary.md R163 to R171,
R203). -/

namespace Sys2Proof.Machine

/-! ## Outcomes of a binary command -/

/-- FLAGS as the response carries it (10_state.md R41). -/
theorem respond_flagBits (c v : Bool) :
    { Response.blank with flags := flagBits { c := c, v := v } } = flagsResponse c v := by
  cases c <;> cases v <;> rfl

section
variable {i : Instr} {s : State} {S : List Entry} {a b : Entry}
  {op : (n : Nat) → BitVec n → BitVec n → AluResult n}

/-- A binary command whose operation answers `r` leaves `r` with `a`'s comment and `b`'s in their place (42_binary.md R160,
R163). -/
theorem completes_of_execBinary {r : BitVec (widthBits s.width)} {c v : Bool} (hrun : exec i s = execBinary op s)
    (hw : s.dq.wf) (hS : s.dq.stack = S ++ [a, b])
    (hop : op (widthBits s.width) (wordOf _ a) (wordOf _ b) = .ok (r, { c := c, v := v })) :
    Completes i s s.width (S ++ [resultEntry (slotValue r) a b]) (flagsResponse c v) := by
  obtain ⟨d, hbin, hwd, hcap, hstack⟩ := execBinary_ok hw hS hop
  rw [respond_flagBits] at hbin
  rw [← hstack]
  exact completes_of_withDeque (hrun.trans hbin) hwd hcap

/-- A binary command whose operation fails fails with the operation's error (42_binary.md R160, R164). -/
theorem failsWith_of_execBinary {x : Err} (hrun : exec i s = execBinary op s) (hw : s.dq.wf)
    (hS : s.dq.stack = S ++ [a, b]) (hop : op (widthBits s.width) (wordOf _ a) (wordOf _ b) = .error x) :
    FailsWith i s (errCode x) :=
  failsWith_of_raise (hrun.trans (execBinary_error hw hS hop))

end

/-- No error's STATUS is that of success (60_exceptions.md R310). -/
theorem errCode_ne_zero (x : Err) : errCode x ≠ 0#4 := by cases x <;> decide

/-- Settles O41: the operation of a command with STATUS 0 has answered a word, and `execBinary_ok` says what is left. -/
theorem binaryResultKeepsTheComments : Obligations.BinaryResultKeepsTheComments := by
  intro i s t S a b hi hw hS hrun hstatus
  obtain ⟨op, hexec⟩ := exists_execBinary hi s
  rw [hexec] at hrun
  cases hop : op (widthBits s.width) (wordOf _ a) (wordOf _ b) with
  | error x =>
    cases hrun.symm.trans (execBinary_error hw hS hop)
    exact absurd hstatus (errCode_ne_zero x)
  | ok rf =>
    obtain ⟨d, hbin, -, hcap, hstack⟩ := execBinary_ok hw hS (r := rf.1) (f := rf.2) hop
    cases hrun.symm.trans hbin
    exact ⟨_, hstack, slotValue_lt (widthBits_le _) _, rfl, rfl, hcap, rfl, rfl⟩

/-! ## Addition and subtraction -/

/-- A word sum is the same from the unsigned and from the signed values. -/
theorem ofNat_add_eq_ofInt {n : Nat} (a b : BitVec n) (c : Nat) :
    BitVec.ofNat n (a.toNat + b.toNat + c) = BitVec.ofInt n (a.toInt + b.toInt + c) := by
  simp [BitVec.ofNat_add, BitVec.ofInt_add]

/-- A word difference is the same from the unsigned and from the signed values. -/
theorem ofInt_sub_eq_ofInt {n : Nat} (a b : BitVec n) (c : Nat) :
    BitVec.ofInt n ((a.toNat : Int) - b.toNat - c) = BitVec.ofInt n (a.toInt - b.toInt - c) := by
  simp [Int.sub_eq_add_neg, BitVec.ofInt_add, BitVec.ofInt_neg]

theorem two_pow_eq_two_mul {n : Nat} (hn : 0 < n) : (2 : Int) ^ n = 2 * 2 ^ (n - 1) := by
  rw [← pow_succ', Nat.sub_add_cancel hn]

/-- The signed value of a word wrapped from an integer at most one turn away: `z` itself when it is in range. -/
theorem toInt_ofInt_of_near {n : Nat} (hn : 0 < n) {z : Int} (hlo : -2 ^ n ≤ z) (hhi : z < 2 ^ n) :
    (BitVec.ofInt n z).toInt
      = if z < -2 ^ (n - 1) then z + 2 ^ n else if 2 ^ (n - 1) ≤ z then z - 2 ^ n else z := by
  have htwo := two_pow_eq_two_mul hn
  have hcast : ((2 ^ n : Nat) : Int) = 2 ^ n := by norm_cast
  rw [BitVec.toInt_ofInt]
  split
  case isTrue hbelow =>
    rw [← Int.add_bmod_right, hcast]
    exact Int.bmod_eq_of_le (by omega) (by omega)
  case isFalse hbelow =>
    split
    case isTrue habove =>
      rw [← Int.sub_bmod_right, hcast]
      exact Int.bmod_eq_of_le (by omega) (by omega)
    case isFalse habove => exact Int.bmod_eq_of_le (by omega) (by omega)

section
variable {n : Nat} (hn : 0 < n) (a b : BitVec n) (c : Bool)

/-- An addition's carry, read off its result: it lies at or below the first summand when a carry came in, else below it. -/
theorem addCarryFlag_eq_decide (r : BitVec n) : addCarryFlag c a r = decide (r.toNat < a.toNat + c.toNat) := by
  rw [Bool.eq_iff_iff]
  cases c
  case false => simp [addCarryFlag]
  case true => simp [addCarryFlag, ← BitVec.toNat_inj]; omega

/-- A subtraction's borrow, read off its result: it lies at or above the minuend when a borrow came in, else above it. -/
theorem subBorrowFlag_eq_decide (r : BitVec n) : subBorrowFlag c a r = decide (a.toNat < r.toNat + c.toNat) := by
  rw [Bool.eq_iff_iff]
  cases c
  case false => simp [subBorrowFlag]
  case true => simp [subBorrowFlag, ← BitVec.toNat_inj]; omega

/-- The carry test of an addition, on the wrapped result, is "the unsigned sum reaches `2^n`" (42_binary.md R166, R170). -/
theorem addCarryFlag_eq :
    addCarryFlag c a (BitVec.ofNat n (a.toNat + b.toNat + c.toNat))
      = decide (2 ^ n ≤ a.toNat + b.toNat + c.toNat) := by
  have ha := a.isLt
  have hb := b.isLt
  have hc := c.toNat_le
  rw [addCarryFlag_eq_decide, BitVec.toNat_ofNat, Bool.eq_iff_iff, decide_eq_true_iff, decide_eq_true_iff]
  by_cases hwrap : 2 ^ n ≤ a.toNat + b.toNat + c.toNat
  · rw [Nat.mod_eq_sub_mod hwrap, Nat.mod_eq_of_lt (by omega)]
    omega
  · rw [Nat.mod_eq_of_lt (by omega)]
    omega

/-- The borrow test of a subtraction, on the wrapped result, is "the minuend is below what is subtracted" (42_binary.md R168,
R170). -/
theorem subBorrowFlag_eq :
    subBorrowFlag c a (BitVec.ofInt n ((a.toNat : Int) - b.toNat - c.toNat)) = decide (a.toNat < b.toNat + c.toNat) := by
  have ha := a.isLt
  have hb := b.isLt
  have hc := c.toNat_le
  have hcast : ((2 ^ n : Nat) : Int) = 2 ^ n := by norm_cast
  rw [subBorrowFlag_eq_decide, BitVec.toNat_ofInt, Bool.eq_iff_iff, decide_eq_true_iff, decide_eq_true_iff]
  by_cases hborrow : a.toNat < b.toNat + c.toNat
  · rw [← Int.add_emod_right, Int.emod_eq_of_lt (by omega) (by omega)]
    omega
  · rw [Int.emod_eq_of_lt (by omega) (by omega)]
    omega

include hn

/-- The overflow test of an addition, by signs, is the range test of the exact signed sum (42_binary.md R166, R171). -/
theorem addOverflowFlag_eq :
    addOverflowFlag a b (BitVec.ofNat n (a.toNat + b.toNat + c.toNat))
      = outOfRange n (a.toInt + b.toInt + c.toNat) := by
  have htwo := two_pow_eq_two_mul hn
  have ha := And.intro a.le_toInt a.toInt_lt
  have hb := And.intro b.le_toInt b.toInt_lt
  have hc := c.toNat_le
  rw [ofNat_add_eq_ofInt, addOverflowFlag, outOfRange, Bool.eq_iff_iff]
  simp only [BitVec.msb_eq_toInt, toInt_ofInt_of_near hn (z := a.toInt + b.toInt + c.toNat) (by omega) (by omega)]
  simp only [Bool.and_eq_true, beq_iff_eq, bne_iff_ne, ne_eq, decide_eq_decide, Bool.or_eq_true, decide_eq_true_eq]
  split <;> omega

/-- The overflow test of a subtraction, by signs, is the range test of the exact signed difference (42_binary.md R168,
R171). -/
theorem subOverflowFlag_eq :
    subOverflowFlag a b (BitVec.ofInt n ((a.toNat : Int) - b.toNat - c.toNat))
      = outOfRange n (a.toInt - b.toInt - c.toNat) := by
  have htwo := two_pow_eq_two_mul hn
  have ha := And.intro a.le_toInt a.toInt_lt
  have hb := And.intro b.le_toInt b.toInt_lt
  have hc := c.toNat_le
  rw [ofInt_sub_eq_ofInt, subOverflowFlag, outOfRange, Bool.eq_iff_iff]
  simp only [BitVec.msb_eq_toInt, toInt_ofInt_of_near hn (z := a.toInt - b.toInt - c.toNat) (by omega) (by omega)]
  simp only [Bool.and_eq_true, bne_iff_ne, ne_eq, decide_eq_decide, Bool.or_eq_true, decide_eq_true_eq]
  split <;> omega

/-- The operation of ADD and ADC with exact flags (42_binary.md R166, R167, R170, R171). -/
theorem aluAdd_eq :
    aluAdd c a b = .ok (BitVec.ofNat n (a.toNat + b.toNat + c.toNat),
      { c := decide (2 ^ n ≤ a.toNat + b.toNat + c.toNat), v := outOfRange n (a.toInt + b.toInt + c.toNat) }) := by
  rw [← addCarryFlag_eq, ← addOverflowFlag_eq hn]
  rfl

/-- The operation of SUB and SBB with exact flags (42_binary.md R168 to R171). -/
theorem aluSub_eq :
    aluSub c a b = .ok (BitVec.ofInt n ((a.toNat : Int) - b.toNat - c.toNat),
      { c := decide (a.toNat < b.toNat + c.toNat), v := outOfRange n (a.toInt - b.toInt - c.toNat) }) := by
  rw [← subBorrowFlag_eq, ← subOverflowFlag_eq hn]
  rfl

end

section
variable {i : Instr} {s : State} {S : List Entry} {a b : Entry} {c : Bool}

/-- A command that adds with the effective carry `c` (42_binary.md R163, R166, R167). -/
theorem completes_of_aluAdd (hrun : exec i s = execBinary (fun _ a b => aluAdd c a b) s) (hw : s.dq.wf)
    (hS : s.dq.stack = S ++ [a, b]) :
    Completes i s s.width
      (S ++ [resultEntry (wrapped (widthBits s.width) (s.uval a + s.uval b + (c.toNat : Nat))) a b])
      (flagsResponse (decide (2 ^ widthBits s.width ≤ s.uval a + s.uval b + c.toNat))
        (outOfRange (widthBits s.width) (s.sval a + s.sval b + c.toNat))) := by
  have hdone := completes_of_execBinary hrun hw hS (aluAdd_eq (widthBits_pos _) _ _ c)
  rw [slotValue_ofNat (widthBits_le _)] at hdone
  simpa using hdone

/-- A command that subtracts with the effective borrow `c` (42_binary.md R163, R168, R169). -/
theorem completes_of_aluSub (hrun : exec i s = execBinary (fun _ a b => aluSub c a b) s) (hw : s.dq.wf)
    (hS : s.dq.stack = S ++ [a, b]) :
    Completes i s s.width
      (S ++ [resultEntry (wrapped (widthBits s.width) ((s.uval a : Int) - s.uval b - (c.toNat : Nat))) a b])
      (flagsResponse (decide (s.uval a < s.uval b + c.toNat))
        (outOfRange (widthBits s.width) (s.sval a - s.sval b - c.toNat))) := by
  have hdone := completes_of_execBinary hrun hw hS (aluSub_eq (widthBits_pos _) _ _ c)
  rw [slotValue_ofInt (widthBits_le _)] at hdone
  simpa only [wordOf_toNat, wordOf_toInt] using hdone

end

/-- Settles O29: ADD and SUB are the sums with carry 0, ADC and SBB those with CIN. -/
theorem addAndSubtractAreExact : Obligations.AddAndSubtractAreExact := by
  intro s S a b cin pfc pfv hw hS
  constructor
  · rintro i c (⟨rfl, rfl⟩ | ⟨rfl, rfl⟩)
    · exact completes_of_aluAdd (c := false) rfl hw hS
    · exact completes_of_aluAdd rfl hw hS
  · rintro i c (⟨rfl, rfl⟩ | ⟨rfl, rfl⟩)
    · exact completes_of_aluSub (c := false) rfl hw hS
    · exact completes_of_aluSub rfl hw hS

/-- SUB's result is the difference of the words (42_binary.md R168). -/
theorem ofInt_sub_eq_sub {n : Nat} (x b : BitVec n) :
    BitVec.ofInt n ((x.toNat : Int) - b.toNat - false.toNat) = x - b := by
  simp [Int.sub_eq_add_neg, BitVec.ofInt_add, BitVec.ofInt_neg, BitVec.sub_eq_add_neg]

/-- Subtracting a word from a wrapped sum gives the other summand back (42_binary.md R203). -/
theorem ofInt_sub_of_sum {n : Nat} (a b : BitVec n) :
    BitVec.ofInt n (((BitVec.ofNat n (a.toNat + b.toNat + false.toNat)).toNat : Int) - b.toNat - false.toNat) = a := by
  have hsum : BitVec.ofNat n (a.toNat + b.toNat + false.toNat) = a + b := by simp [BitVec.ofNat_add]
  rw [ofInt_sub_eq_sub, hsum, BitVec.add_sub_cancel]

/-- Settles O43: SUB reads the sum back from the slot ADD wrote and takes the same `b` from it. -/
theorem addThenSubtractRestores : Obligations.AddThenSubtractRestores := by
  intro s t u S a b c p v c' p' v' hw hS hadd hwu hwidth hstack
  obtain ⟨t', hrun, -, htwidth, htstack, -, -⟩ :=
    completes_of_execBinary (i := .add c p v) rfl hw hS (aluAdd_eq (widthBits_pos _) _ _ false)
  cases hadd.symm.trans hrun
  rw [htstack, List.append_assoc] at hstack
  obtain ⟨x, hsub, -, -, hxstack, -, -⟩ :=
    completes_of_execBinary (i := .sub c' p' v') rfl hwu hstack (aluSub_eq (widthBits_pos _) _ _ false)
  refine ⟨x, _, hsub, hxstack, ?_⟩
  rw [resultEntry, hwidth, htwidth, resultEntry, wordOf_slotValue (widthBits_le _), ofInt_sub_of_sum, slotValue_wordOf]

end Sys2Proof.Machine

/-! PROOFS. Division by zero, the signed division overflow case and the bitwise commands (42_binary.md R175, R177, R182 to
R185). -/

namespace Sys2Proof.Machine

/-! ## Division -/

section
variable {n : Nat} {a b : BitVec n} {p : SdivOverflow}

theorem aluDivu_of_zero (hb : b.toNat = 0) : aluDivu a b = .error .divideByZero := if_pos hb

theorem aluDivs_of_zero (hb : b.toNat = 0) : aluDivs p a b = .error .divideByZero := if_pos hb

theorem aluRem_of_zero (hb : b.toNat = 0) : aluRem p a b = .error .divideByZero := if_pos hb

theorem toNat_ne_zero_of_toInt_ne_zero (hb : b.toInt ≠ 0) : b.toNat ≠ 0 := by
  intro h0
  have hzero : b = 0#n := BitVec.eq_of_toNat_eq (by simpa using h0)
  exact hb (by simp [hzero])

theorem toNat_of_toInt_eq_min (hn : 0 < n) (ha : a.toInt = -2 ^ (n - 1)) : a.toNat = 2 ^ (n - 1) := by
  have htwo := two_pow_eq_two_mul hn
  have hcast : ((2 ^ n : Nat) : Int) = 2 ^ n := by norm_cast
  have hcast' : ((2 ^ (n - 1) : Nat) : Int) = 2 ^ (n - 1) := by norm_cast
  rw [BitVec.toInt_eq_toNat_cond] at ha
  split at ha <;> omega

section
variable (ha : a.toInt = -2 ^ (n - 1)) (hb : b.toInt = -1)
include ha hb

/-- The overflow case passes the zero test and is recognised (42_binary.md R177). -/
theorem sdivOverflows_of_min_of_neg_one : b.toNat ≠ 0 ∧ sdivOverflows a b = true :=
  ⟨toNat_ne_zero_of_toInt_ne_zero (by omega), by simp [sdivOverflows, ha, hb]⟩

theorem aluDivs_overflow_wrap (hp : p = .wrap) : aluDivs p a b = .ok (a, flagsClear) := by
  obtain ⟨hne, hover⟩ := sdivOverflows_of_min_of_neg_one ha hb
  simp [aluDivs, hne, hover, hp]

theorem aluRem_overflow_wrap (hp : p = .wrap) : aluRem p a b = .ok (0#n, flagsClear) := by
  obtain ⟨hne, hover⟩ := sdivOverflows_of_min_of_neg_one ha hb
  simp [aluRem, hne, hover, hp]

theorem aluDivs_overflow_fault (hp : p = .fault) : aluDivs p a b = .error .arithmeticOverflow := by
  obtain ⟨hne, hover⟩ := sdivOverflows_of_min_of_neg_one ha hb
  simp [aluDivs, hne, hover, hp]

theorem aluRem_overflow_fault (hp : p = .fault) : aluRem p a b = .error .arithmeticOverflow := by
  obtain ⟨hne, hover⟩ := sdivOverflows_of_min_of_neg_one ha hb
  simp [aluRem, hne, hover, hp]

end
end

/-- A slot written from the word 0 holds 0. -/
theorem slotValue_zero (n : Nat) : slotValue 0#n = 0#128 := by simp [slotValue]

/-- Settles O31: the zero test of each division comes first. -/
theorem divisionByZeroFails : Obligations.DivisionByZeroFails := by
  intro s S a b cin pfc pfv hw hS hzero
  rw [← wordOf_toNat] at hzero
  exact ⟨failsWith_of_execBinary rfl hw hS (aluDivu_of_zero hzero),
    failsWith_of_execBinary rfl hw hS (aluDivs_of_zero hzero), failsWith_of_execBinary rfl hw hS (aluRem_of_zero hzero)⟩

/-- Settles O33: Wrap answers the dividend, whose value MINS is `2^(bits-1)` unsigned, and the remainder 0; Fault raises
ArithmeticOverflow. -/
theorem signedDivisionOverflow : Obligations.SignedDivisionOverflow := by
  intro s S a b cin pfc pfv hw hS ha hb
  rw [← wordOf_toInt] at ha hb
  have hmin := toNat_of_toInt_eq_min (widthBits_pos _) ha
  rw [wordOf_toNat] at hmin
  constructor
  · intro hwrap
    have hdivs := completes_of_execBinary (i := .divs cin pfc pfv) rfl hw hS (aluDivs_overflow_wrap ha hb hwrap)
    have hrem := completes_of_execBinary (i := .rem cin pfc pfv) rfl hw hS (aluRem_overflow_wrap ha hb hwrap)
    rw [slotValue_wordOf, hmin] at hdivs
    rw [slotValue_zero] at hrem
    exact ⟨hdivs, hrem⟩
  · intro hfault
    exact ⟨failsWith_of_execBinary (x := .arithmeticOverflow) rfl hw hS (aluDivs_overflow_fault ha hb hfault),
      failsWith_of_execBinary (x := .arithmeticOverflow) rfl hw hS (aluRem_overflow_fault ha hb hfault)⟩

/-! ## Bitwise commands -/

theorem slotValue_getLsbD {n : Nat} (hn : n ≤ 128) (v : BitVec n) {k : Nat} (hk : k < n) :
    (slotValue v).getLsbD k = v.getLsbD k := by
  rw [slotValue, BitVec.getLsbD_setWidth, decide_eq_true (by omega), Bool.true_and]

/-- A command whose operation combines its operands bit by bit and answers the host's flags (42_binary.md R182). -/
theorem completes_of_bitwise {i : Instr} {s : State} {S : List Entry} {a b : Entry} {pfc pfv : Bool}
    {combine : (n : Nat) → BitVec n → BitVec n → BitVec n} {f : Bool → Bool → Bool}
    (hbits : ∀ (n : Nat) (x y : BitVec n) (k : Nat), k < n → (combine n x y).getLsbD k = f (x.getLsbD k) (y.getLsbD k))
    (hrun : exec i s = execBinary (fun n x y => .ok (combine n x y, { c := pfc, v := pfv })) s) (hw : s.dq.wf)
    (hS : s.dq.stack = S ++ [a, b]) :
    ∃ v : BitVec 128, v.toNat < 2 ^ widthBits s.width
      ∧ (∀ k, k < widthBits s.width → v.getLsbD k = f (bitOf a k) (bitOf b k))
      ∧ Completes i s s.width (S ++ [resultEntry v a b]) (flagsResponse pfc pfv) := by
  refine ⟨_, slotValue_lt (widthBits_le _) _, fun k hk => ?_, completes_of_execBinary hrun hw hS rfl⟩
  rw [slotValue_getLsbD (widthBits_le _) _ hk, hbits _ _ _ k hk, wordOf_getLsbD a hk, wordOf_getLsbD b hk]

/-- Settles O34: the three operations are the bit by bit ones of `BitVec`. -/
theorem bitwiseCommandsCombineBits : Obligations.BitwiseCommandsCombineBits := by
  intro s S a b cin pfc pfv hw hS i f hi
  obtain ⟨rfl, rfl⟩ | ⟨rfl, rfl⟩ | ⟨rfl, rfl⟩ := hi
  · exact completes_of_bitwise (combine := fun _ x y => x &&& y) (fun _ x y k _ => BitVec.getLsbD_and) rfl hw hS
  · exact completes_of_bitwise (combine := fun _ x y => x ||| y) (fun _ x y k _ => BitVec.getLsbD_or) rfl hw hS
  · exact completes_of_bitwise (combine := fun _ x y => x ^^^ y) (fun _ x y k _ => BitVec.getLsbD_xor) rfl hw hS

end Sys2Proof.Machine

/-! PROOFS. The shifts, the rotates through the carry and the alignments: the cases of the amount, each operation on words,
and the statements on them (42_binary.md R186 to R202). -/

namespace Sys2Proof.Machine

/-! ## Shifts -/

section
variable {n : Nat} {a b : BitVec n} {prev : Flags} {move : Nat → BitVec n} {out : Nat → Bool}

/-- A shift by 0 keeps the value and the host's flags (42_binary.md R186). -/
theorem aluShift_zero (hb : b.toInt = 0) : aluShift prev move out a b = .ok (a, prev) := by
  rw [aluShift, if_neg (by omega), if_pos hb]

/-- A shift by more than the width gives 0 and clear flags (42_binary.md R186, R188). -/
theorem aluShift_above (hb : (n : Int) < b.toInt) : aluShift prev move out a b = .ok (0#n, flagsClear) := by
  rw [aluShift, if_neg (by omega), if_neg (by omega), if_pos hb]

/-- A shift by 1 to `n` moves the word and answers the last bit out in both flags (42_binary.md R186, R187). -/
theorem aluShift_within {k : Nat} (hb : b.toInt = k) (h1 : 1 ≤ k) (hn : k ≤ n) :
    aluShift prev move out a b = .ok (move k, flagsBoth (out k)) := by
  rw [aluShift, if_neg (by omega), if_neg (by omega), if_neg (by omega), hb, Int.toNat_natCast]

end

/-- A word shifted right is its quotient, which fits the width as the word does (42_binary.md R190). -/
theorem slotValue_shiftRight {n : Nat} (hn : n ≤ 128) (x : BitVec n) (k : Nat) :
    slotValue (BitVec.ofNat n (x.toNat / 2 ^ k)) = BitVec.ofNat 128 (x.toNat / 2 ^ k) := by
  rw [slotValue_eq hn, BitVec.toNat_ofNat, Nat.mod_eq_of_lt ((Nat.div_le_self _ _).trans_lt x.isLt)]

/-- Settles O35: the three cases of the amount, and for an amount within the width each command's word and last bit out. -/
theorem shiftsShift : Obligations.ShiftsShift := by
  intro s S a b cin pfc pfv hw hS
  simp only [← wordOf_toInt]
  refine ⟨fun hb i hi => ?zero, fun hb i hi => ?above, fun k hb h1 hk => ⟨?shl, ?shr, ?sar⟩⟩
  case zero =>
    rw [← slotValue_wordOf]
    obtain rfl | rfl | rfl := hi <;> exact completes_of_execBinary rfl hw hS (aluShift_zero hb)
  case above =>
    rw [← slotValue_zero]
    obtain rfl | rfl | rfl := hi <;> exact completes_of_execBinary rfl hw hS (aluShift_above hb)
  case shl =>
    have hdone := completes_of_execBinary (i := .shl cin pfc pfv) rfl hw hS (aluShift_within hb h1 hk)
    rw [slotValue_eq (widthBits_le _), BitVec.toNat_ofNat, wordOf_toNat, lastOutLeft, wordOf_getLsbD a (by omega)] at hdone
    exact hdone
  case shr =>
    have hdone := completes_of_execBinary (i := .shr cin pfc pfv) rfl hw hS (aluShift_within hb h1 hk)
    rw [slotValue_shiftRight (widthBits_le _), wordOf_toNat, lastOutRight, wordOf_getLsbD a (by omega)] at hdone
    exact hdone
  case sar =>
    have hdone := completes_of_execBinary (i := .sar cin pfc pfv) rfl hw hS (aluShift_within hb h1 hk)
    rw [slotValue_ofInt (widthBits_le _), Int.fdiv_eq_ediv_of_nonneg _ (by positivity), lastOutRight,
      wordOf_getLsbD a (by omega)] at hdone
    exact hdone

/-! ## Rotates through the carry -/

section
variable {n : Nat} {a b : BitVec n} {prev : Flags} {turn : Nat → BitVec n × Bool}

/-- A rotate by 0 keeps the value and the host's flags (42_binary.md R192). -/
theorem aluRotate_zero (hb : b.toInt = 0) : aluRotate prev turn a b = .ok (a, prev) := by
  rw [aluRotate, if_neg (by omega), if_pos hb]

/-- A rotate by a positive amount answers the turned word and the bit that crossed in both flags (42_binary.md R192). -/
theorem aluRotate_pos {k : Nat} (hb : b.toInt = k) (h1 : 1 ≤ k) :
    aluRotate prev turn a b = .ok ((turn k).1, flagsBoth (turn k).2) := by
  rw [aluRotate, if_neg (by omega), if_neg (by omega), hb, Int.toNat_natCast]

end

section
variable {m : Nat} (x : BitVec m) {k : Nat} (hk : k < m)
include hk

/-- A left rotate moves bit `j` to bit `j + k` modulo the width (42_binary.md R194, R197). -/
theorem rotateUp_getLsbD {j : Nat} (hj : j < m) : (rotateUp x k).getLsbD ((j + k) % m) = x.getLsbD j := by
  have hlt : (j + k) % m < m := Nat.mod_lt _ (by omega)
  simp only [rotateUp, BitVec.getLsbD_or, BitVec.getLsbD_ofNat, Nat.testBit_mul_two_pow, Nat.testBit_div_two_pow,
    BitVec.testBit_toNat, decide_eq_true hlt, Bool.true_and]
  rw [wrap_eq hj hk.le]
  split
  case isTrue hfit =>
    have hhigh : x.getLsbD (j + k + (m - k)) = false := BitVec.getLsbD_of_ge _ _ (by omega)
    simp [hhigh]
  case isFalse hwrap =>
    have hlow : ¬ k ≤ j + k - m := by omega
    have hindex : j + k - m + (m - k) = j := by omega
    simp [hlow, hindex]

/-- A right rotate moves bit `j + k` modulo the width to bit `j` (42_binary.md R195, R198). -/
theorem rotateDown_getLsbD {j : Nat} (hj : j < m) : (rotateDown x k).getLsbD j = x.getLsbD ((j + k) % m) := by
  simp only [rotateDown, BitVec.getLsbD_or, BitVec.getLsbD_ofNat, Nat.testBit_mul_two_pow, Nat.testBit_div_two_pow,
    BitVec.testBit_toNat, decide_eq_true hj, Bool.true_and]
  rw [wrap_eq hj hk.le]
  split
  case isTrue hfit =>
    have hlow : ¬ m - k ≤ j := by omega
    simp [hlow]
  case isFalse hwrap =>
    have hhigh : x.getLsbD (j + k) = false := BitVec.getLsbD_of_ge _ _ (by omega)
    have hreach : m - k ≤ j := by omega
    have hindex : j - (m - k) = j + k - m := by omega
    simp [hhigh, hreach, hindex]

end

section
variable {n : Nat}

/-- The carry stands above the word (42_binary.md R196). -/
theorem withCarry_eq_cons (c : Bool) (a : BitVec n) : withCarry c a = BitVec.cons c a := by
  apply BitVec.eq_of_toNat_eq
  have ha := a.isLt
  rw [withCarry, BitVec.toNat_ofNat, BitVec.toNat_cons', Nat.shiftLeft_eq, Nat.mod_eq_of_lt]
  rw [Nat.pow_succ]
  cases c
  case false => simp; omega
  case true => simp; omega

theorem withCarry_getLsbD_top (c : Bool) (a : BitVec n) : (withCarry c a).getLsbD n = c := by
  rw [withCarry_eq_cons, BitVec.getLsbD_cons, if_pos rfl]

theorem withCarry_getLsbD_low (c : Bool) (a : BitVec n) {j : Nat} (hj : j < n) :
    (withCarry c a).getLsbD j = a.getLsbD j := by
  rw [withCarry_eq_cons, BitVec.getLsbD_cons, if_neg (by omega)]

/-- The word of a split quantity, put into a slot, has the low bits (42_binary.md R196). -/
theorem splitCarry_getLsbD (hn : n ≤ 128) (x : BitVec (n + 1)) {j : Nat} (hj : j < n) :
    (slotValue (splitCarry x).1).getLsbD j = x.getLsbD j := by
  rw [slotValue_getLsbD hn _ hj, splitCarry, BitVec.getLsbD_setWidth, decide_eq_true hj, Bool.true_and]

end

/-- Settles O37: the quantity with CIN above the word has the bits `x`; rotated, its low bits are the result and its top bit
both flags. -/
theorem rotatesThroughCarryRotate : Obligations.RotatesThroughCarryRotate := by
  intro s S a b cin pfc pfv hw hS
  simp only [← wordOf_toInt]
  refine ⟨fun hb i hi => ?zero, fun k x hb h1 hlow htop => ?turn⟩
  case zero =>
    rw [← slotValue_wordOf]
    obtain rfl | rfl := hi <;> exact completes_of_execBinary rfl hw hS (aluRotate_zero hb)
  case turn =>
    have hle := widthBits_le s.width
    have hx : ∀ j, j ≤ widthBits s.width → (withCarry cin (wordOf (widthBits s.width) a)).getLsbD j = x j := by
      intro j hj
      obtain hlt | rfl := hj.lt_or_eq
      · rw [withCarry_getLsbD_low _ _ hlt, wordOf_getLsbD a hlt, hlow j hlt]
      · rw [withCarry_getLsbD_top, htop]
    have hk : k % (widthBits s.width + 1) < widthBits s.width + 1 := Nat.mod_lt _ (Nat.succ_pos _)
    have hmod : ∀ j, (j + k) % (widthBits s.width + 1) ≤ widthBits s.width := fun j =>
      Nat.le_of_lt_succ (Nat.mod_lt _ (Nat.succ_pos _))
    constructor
    case left =>
      refine ⟨_, _, slotValue_lt hle _, fun j hj => ?_,
        completes_of_execBinary (i := .rcl cin pfc pfv) rfl hw hS (aluRotate_pos hb h1)⟩
      rw [← hx j hj, ← rotateUp_getLsbD _ hk (Nat.lt_succ_of_le hj), Nat.add_mod_mod]
      split
      case isTrue hcarry => rw [hcarry]; rfl
      case isFalse hword =>
        exact (splitCarry_getLsbD hle _ (lt_of_le_of_ne (hmod j) hword)).symm
    case right =>
      refine ⟨_, _, slotValue_lt hle _, fun j hj => ?_, ?_,
        completes_of_execBinary (i := .rcr cin pfc pfv) rfl hw hS (aluRotate_pos hb h1)⟩
      · rw [splitCarry_getLsbD hle _ hj, rotateDown_getLsbD _ hk (by omega), Nat.add_mod_mod, hx _ (hmod j)]
      · rw [splitCarry, rotateDown_getLsbD _ hk (Nat.lt_succ_self _), Nat.add_mod_mod, hx _ (hmod _)]

/-! ## Alignments -/

section
variable {n k : Nat} (hk : k < n)
include hk

theorem alignMask_eq_ofNat : alignMask n k = BitVec.ofNat n (2 ^ k - 1) := by
  rw [alignMask, if_neg (by omega), Int.toNat_natCast]

/-- Clearing the bits under the mask rounds down to a multiple of `2^k` (42_binary.md R199). -/
theorem clearMask_toNat (x : BitVec n) : (x &&& ~~~alignMask n k).toNat = x.toNat / 2 ^ k * 2 ^ k := by
  have hshift : x &&& ~~~alignMask n k = x >>> k <<< k := by
    refine BitVec.eq_of_getLsbD_eq fun j hj => ?_
    rw [alignMask_eq_ofNat hk]
    simp only [BitVec.getLsbD_and, BitVec.getLsbD_not, BitVec.getLsbD_ofNat, Nat.testBit_two_pow_sub_one,
      BitVec.getLsbD_shiftLeft, BitVec.getLsbD_ushiftRight, decide_eq_true hj, Bool.true_and]
    by_cases hjk : j < k
    · simp [hjk]
    · simp [hjk, Nat.add_sub_cancel' (not_lt.1 hjk)]
  rw [hshift, BitVec.toNat_shiftLeft, BitVec.toNat_ushiftRight, Nat.shiftRight_eq_div_pow, Nat.shiftLeft_eq]
  exact Nat.mod_eq_of_lt ((Nat.div_mul_le_self _ _).trans_lt x.isLt)

theorem alignMask_toNat : (alignMask n k).toNat = 2 ^ k - 1 := by
  have hlt : 2 ^ k < 2 ^ n := Nat.pow_lt_pow_right (by decide) hk
  rw [alignMask_eq_ofNat hk, BitVec.toNat_ofNat, Nat.mod_eq_of_lt ((Nat.sub_le _ _).trans_lt hlt)]

/-- Rounding down to a multiple of `2^k` and wrapping to `n` bits may be done in either order. -/
theorem roundDown_mod (z : Nat) : z % 2 ^ n / 2 ^ k * 2 ^ k = z / 2 ^ k * 2 ^ k % 2 ^ n := by
  have hsplit : 2 ^ n = 2 ^ k * 2 ^ (n - k) := by rw [← Nat.pow_add]; congr 1; omega
  rw [hsplit, Nat.mod_mul_right_div_self, Nat.mul_comm (2 ^ k) (2 ^ (n - k)), Nat.mul_mod_mul_right]

end

/-- From `n` on the mask covers the word, and clearing its bits leaves 0 (42_binary.md R199, R200). -/
theorem clearMask_eq_zero {n : Nat} {amt : Int} (h : (n : Int) ≤ amt) (x : BitVec n) : x &&& ~~~alignMask n amt = 0#n := by
  rw [alignMask, if_pos h, BitVec.not_allOnes, BitVec.and_zero]

section
variable {n : Nat} {a b : BitVec n} {prev : Flags}

theorem aluAlignup_of_nonneg (hb : 0 ≤ b.toInt) :
    aluAlignup prev a b
      = .ok (BitVec.ofNat n (a.toNat + (alignMask n b.toInt).toNat) &&& ~~~alignMask n b.toInt, prev) :=
  if_neg (not_lt.2 hb)

theorem aluAligndn_of_nonneg (hb : 0 ≤ b.toInt) : aluAligndn prev a b = .ok (a &&& ~~~alignMask n b.toInt, prev) :=
  if_neg (not_lt.2 hb)

end

/-- Settles O38: clearing the mask rounds down, after `2^amt - 1` is added for ALIGNUP, and a mask of the whole width leaves
0. -/
theorem alignmentsRound : Obligations.AlignmentsRound := by
  intro s S a b cin pfc pfv hw hS
  simp only [← wordOf_toInt]
  have hle := widthBits_le s.width
  refine ⟨fun k hb hk => ⟨?up, ?down⟩, fun hb i hi => ?whole⟩
  case up =>
    have hdone := completes_of_execBinary (i := .alignup cin pfc pfv) rfl hw hS (aluAlignup_of_nonneg (by omega))
    rw [hb, slotValue_eq hle, clearMask_toNat hk, alignMask_toNat hk, BitVec.toNat_ofNat, wordOf_toNat,
      roundDown_mod hk] at hdone
    exact hdone
  case down =>
    have hdone := completes_of_execBinary (i := .aligndn cin pfc pfv) rfl hw hS (aluAligndn_of_nonneg (by omega))
    rw [hb, slotValue_eq hle, clearMask_toNat hk, wordOf_toNat] at hdone
    exact hdone
  case whole =>
    rw [← slotValue_zero]
    obtain rfl | rfl := hi
    · have hup := completes_of_execBinary (i := .alignup cin pfc pfv) rfl hw hS (aluAlignup_of_nonneg (by omega))
      rwa [clearMask_eq_zero hb] at hup
    · have hdown := completes_of_execBinary (i := .aligndn cin pfc pfv) rfl hw hS (aluAligndn_of_nonneg (by omega))
      rwa [clearMask_eq_zero hb] at hdown

end Sys2Proof.Machine

/-! PROOFS. How a stack command completes or fails by its operation, a rotation by the place an entry comes from, and the
statements on ROLL and PICK (44_stack.md R246 to R253). -/

namespace Sys2Proof.Machine

/-- A stack command, either index form, completes with the stack its operation leaves or fails with its operation's error;
the operation runs on a deque in form whose stack is `S` (44_stack.md R240, R242, R243). -/
theorem outcomes_of_execStack {i : Instr} {op : StackOp} {xi : Bool} {s : State} {S : List Entry} {idx : Int}
    {arg : Option Entry} (hrun : exec i s = execStack op xi s) (hw : s.dq.wf) (hindex : IndexedBy xi s S idx arg) :
    ∃ d0, d0.wf ∧ d0.cap = s.dq.cap ∧ d0.stack = S
      ∧ (∀ d, op idx arg d0 = .ok d → d.wf → d.cap = d0.cap → Completes i s s.width d.stack Response.blank)
      ∧ ∀ x, op idx arg d0 = .error x → FailsWith i s (errCode x) := by
  obtain ⟨d0, hw0, hcap0, hstack0, hops⟩ := execStack_spec hw hindex
  obtain ⟨hok, herror⟩ := hops op
  exact ⟨d0, hw0, hcap0, hstack0,
    fun d hop hwd hcap => completes_of_withDeque (hrun.trans (hok d hop)) hwd (hcap.trans hcap0),
    fun x hop => failsWith_of_raise (hrun.trans (herror x hop))⟩

/-! ## ROLL -/

/-- Moving on by `-n mod c` places from `i` leads to the place `(i - n) mod c`. -/
theorem add_neg_emod_mod {c : Nat} (hc : 0 < c) (i : Nat) (n : Int) :
    (i + ((-n) % (c : Int)).toNat) % c = (((i : Int) - n) % (c : Int)).toNat := by
  have hc' : (c : Int) ≠ 0 := by omega
  rw [← Int.toNat_natCast ((i + ((-n) % (c : Int)).toNat) % c), Int.natCast_mod, Int.natCast_add,
    Int.toNat_of_nonneg (Int.emod_nonneg _ hc'), Int.add_emod_emod, ← Int.sub_eq_add_neg]

/-- A list of fewer than two elements is every rotation of itself. -/
theorem rotate_of_length_lt_two {α : Type} {l : List α} (h : l.length < 2) (k : Nat) : l.rotate k = l := by
  match l, h with
  | [], _ => exact List.rotate_nil k
  | [e], _ => exact List.rotate_singleton e k

/-- Settles O50: ROLL's operation rotates the stack by `-n mod c` places. -/
theorem rollRotatesTheStack : Obligations.RollRotatesTheStack := by
  intro xi s S n arg hw hindex
  obtain ⟨d0, hw0, -, rfl, hcompletes, -⟩ := outcomes_of_execStack (i := .roll xi) (op := stkRoll) rfl hw hindex
  obtain ⟨d, hop, hwd, hcap, hstack⟩ := stkRoll_spec hw0 n arg
  have hdone := hcompletes d hop hwd hcap
  rw [hstack] at hdone
  refine ⟨_, hdone, List.length_rotate _ _, fun hshort => rotate_of_length_lt_two hshort _, fun hlong i hi => ?_⟩
  rw [List.getElem?_rotate hi, ← stack_length, add_neg_emod_mod (by omega)]

/-! ## PICK -/

/-- Settles O53: `stkPick_spec` for an index in range, with room and on a full stack, and `stk_outOfRange` for the others,
which looks at no room. -/
theorem pickCopiesTheValue : Obligations.PickCopiesTheValue := by
  intro xi s S k arg hw hindex
  obtain ⟨d0, hw0, hcap0, hstack0, hcompletes, hfails⟩ :=
    outcomes_of_execStack (i := .pick xi) (op := stkPick) rfl hw hindex
  have hcount := count_of_stack hstack0
  refine ⟨fun P Q e hS hk => ?inRange, fun hk => ?outOfRange⟩
  case inRange =>
    have hlen : S.length = P.length + (Q.length + 1) := by simp [hS]
    obtain ⟨hroom, hfull⟩ := stkPick_spec hw0 (k := k) (by omega) (by omega) arg
    refine ⟨fun hlt => ?_, fun heq => hfails _ (hfull (by omega))⟩
    obtain ⟨e', d, hop, hwd, hcap, hentry, hstack⟩ := hroom (by omega)
    have hplace : d0.count - k.toNat = P.length := by omega
    have he : e' = e := by simpa [hplace, hstack0, hS] using hentry.symm
    have hdone := hcompletes d hop hwd hcap
    rwa [hstack, hstack0, he] at hdone
  case outOfRange =>
    obtain ⟨hpick, -, -⟩ := stk_outOfRange (d := d0) (k := k) (by omega) arg Entry.blank
    exact hfails _ hpick

end Sys2Proof.Machine

/-! PROOFS. What CONVERT answers, the map on an entry as a number and through a wider width and back, and the statements
on it (45_convert.md R270 to R274). -/

namespace Sys2Proof.Machine

/-! ## The outcome -/

/-- The code of a width names it (10_state.md R31). -/
theorem widthOfCode_widthCode (w : Width) : widthOfCode (widthCode w) = some w := by cases w <;> rfl

/-- CONVERT to a width completes with the width and every entry mapped; the stack has room where the old one did
(45_convert.md R270). -/
theorem completes_convert {s : State} {wc : BitVec 3} {w : Width} (sx : Bool) (hw : s.dq.wf)
    (hcode : widthOfCode wc = some w) :
    Completes (.convert wc sx) s w (s.dq.stack.map (convertEntry s.width sx w)) Response.blank := by
  have hroom : (s.dq.stack.map (convertEntry s.width sx w)).length < s.dq.cap := by
    rw [List.length_map, stack_length]
    exact count_lt hw
  obtain ⟨hwd, hcap, hstack⟩ := load_spec hw (t := 0) (by obtain ⟨hcap2, -⟩ := hw; omega) hroom
  have hrun : exec (.convert wc sx) s
      = .next (((s.withDeque (s.dq.load 0 (s.dq.stack.map (convertEntry s.width sx w)))).withWidth w).respond
          Response.blank) := by
    simp only [exec, execConvert, hcode]
  exact ⟨_, hrun, hwd, rfl, hstack, rfl, rfl, hcap, rfl, rfl⟩

/-- A converted entry holds `castValue` of its unsigned value and keeps both comments (45_convert.md R271). -/
theorem convertEntry_eq (s : State) (sx : Bool) (w : Width) (e : Entry) :
    convertEntry s.width sx w e
      = { e with val := BitVec.ofNat 128 (castValue (widthBits s.width) (widthBits w) sx (s.uval e)) } := by
  rw [convertEntry, slotValue_conv (widthBits_le w), wordOf_toNat]

/-- Settles O27: a code of 0 to 4 names a width, and each converted entry is read as a number. -/
theorem convertMapsEveryValue : Obligations.ConvertMapsEveryValue := by
  intro s wc sx hw hcode
  obtain ⟨-, hgt⟩ | ⟨w, hwc, -, hbits, hname⟩ := widthOfCode_spec wc
  · omega
  · have hdone := completes_convert sx hw hwc
    rw [List.map_congr_left fun e _ => convertEntry_eq s sx w e] at hdone
    exact ⟨w, hname, hbits, hdone⟩

/-! ## There and back -/

/-- A cast to at least as many bits, by either sign flag, keeps the word in its low bits (45_convert.md R271). -/
theorem conv_getLsbD_of_le {m n : Nat} (h : m ≤ n) (v : BitVec m) (sx : Bool) {i : Nat} (hi : i < m) :
    (conv v sx n).getLsbD i = v.getLsbD i := by
  have hin : decide (i < n) = true := decide_eq_true (by omega)
  have hzero : (v.setWidth n).getLsbD i = v.getLsbD i := by rw [BitVec.getLsbD_setWidth, hin, Bool.true_and]
  have hsign : (v.signExtend n).getLsbD i = v.getLsbD i := by
    rw [BitVec.getLsbD_signExtend, hin, Bool.true_and, if_pos hi]
  unfold conv
  split_ifs
  · exact hzero
  · exact hsign
  · exact hzero

/-- A cast to no more bits ignores the sign flag and keeps the low bits (00_scope.md R16). -/
theorem conv_of_ge {m n : Nat} (h : n ≤ m) (v : BitVec m) (sx : Bool) : conv v sx n = v.setWidth n := if_pos h

/-- Widening a word and narrowing it back gives the word (45_convert.md R274). -/
theorem conv_conv_of_le {m n : Nat} (h : m ≤ n) (v : BitVec m) (sx sx' : Bool) : conv (conv v sx n) sx' m = v := by
  rw [conv_of_ge h]
  apply BitVec.eq_of_getLsbD_eq
  intro i hi
  rw [BitVec.getLsbD_setWidth, conv_getLsbD_of_le h v sx hi, decide_eq_true hi, Bool.true_and]

/-- A value that fits the width is the slot's form of its own word (10_state.md R38). -/
theorem slotValue_wordOf_of_fits {n : Nat} (hn : n ≤ 128) {e : Entry} (hfit : e.val.toNat < 2 ^ n) :
    slotValue (wordOf n e) = e.val := by
  apply BitVec.eq_of_toNat_eq
  rw [slotValue_toNat hn, wordOf, BitVec.toNat_setWidth, Nat.mod_eq_of_lt hfit]

/-- Converting an entry in form to a width at least as large and back gives the entry (45_convert.md R274). -/
theorem convertEntry_convertEntry {old new : Width} (h : widthBits old ≤ widthBits new) (sx sx' : Bool) {e : Entry}
    (hfit : e.val.toNat < 2 ^ widthBits old) :
    convertEntry new sx' old (convertEntry old sx new e) = e := by
  rw [convertEntry, convertEntry, wordOf_slotValue (widthBits_le new), conv_conv_of_le h,
    slotValue_wordOf_of_fits (widthBits_le old) hfit]

/-- A block at 16 bits whose one entry needs its upper byte. -/
def upperByteBlock : State :=
  { State.resetWith 2 Config.defaultParams with
    width := .w16
    dq := (Deque.new 2).load 0 [{ Entry.blank with val := 0x100#128 }] }

/-- Settles O28: each entry comes back from the wider width, and the entry 0x100 of `upperByteBlock` comes back from 8
bits as 0. -/
theorem widenThenNarrowRestores : Obligations.WidenThenNarrowRestores := by
  constructor
  · intro s w sx sx' ⟨hw, hfit⟩ hle
    obtain ⟨t, hrun, hwt, hwidth, hstack, -⟩ := completes_convert sx hw (widthOfCode_widthCode w)
    obtain ⟨u, hback, -, hwidth', hstack', -⟩ := completes_convert sx' hwt (widthOfCode_widthCode s.width)
    refine ⟨t, u, hrun, hback, hwidth', ?_⟩
    rw [hstack', hstack, hwidth, List.map_map]
    exact (List.map_congr_left fun e he => convertEntry_convertEntry hle sx sx' (hfit e he)).trans (List.map_id _)
  · exact ⟨upperByteBlock, _, _, .w8, false, false, by decide, by decide, rfl, rfl, by decide⟩

end Sys2Proof.Machine

/-! PROOFS. PARSE where its TEXT holds no digits: blank, nothing before the separator, a lone `-`; and the commands that only
read the state, with the statements on both (46_parse.md R283, R286, R296; 20_memory.md R63). -/

namespace Sys2Proof.Machine

/-! ## TEXT without a number -/

/-- Trimming whitespace before a byte that is none leaves that byte first, whatever follows it (46_parse.md R281). -/
theorem exists_trim_eq_cons {ws : Bytes} {ch : Byte} (hws : Blank ws) (hch : ¬ Blank [ch]) (rest : Bytes) :
    ∃ tail, trim (ws ++ [ch] ++ rest) = ch :: tail := by
  have hleft : (ws ++ [ch] ++ rest).dropWhile isWhitespace = ch :: rest := by
    rw [List.append_assoc, dropWhile_blank_append hws]
    exact dropWhile_solid (by rintro _ ⟨⟩; exact hch)
  have hlast : [ch].dropWhile isWhitespace = [ch] := dropWhile_solid (by rintro _ ⟨⟩; exact hch)
  rw [trim, hleft, List.reverse_cons, List.dropWhile_append, hlast]
  split
  · exact ⟨[], rfl⟩
  · exact ⟨_, List.reverse_concat⟩

/-- Step 1: a blank TEXT holds no entry, and that is no error (46_parse.md R283). -/
theorem parseEntry_blank {text : Bytes} (h : Blank text) (n : Nat) (f : Radix) : parseEntry n f text = .ok none := by
  rw [parseEntry, trim_blank h]

/-- Step 4: a separator with only whitespace before it is an empty input, whatever the comment (46_parse.md R286). -/
theorem parseEntry_separator_first {ws : Bytes} {sep : Byte} (hws : Blank ws) (hsep : isSeparator sep = true)
    (hsolid : ¬ Blank [sep]) (rest : Bytes) (n : Nat) (f : Radix) :
    parseEntry n f (ws ++ [sep] ++ rest) = .error .emptyInput := by
  obtain ⟨tail, htrim⟩ := exists_trim_eq_cons hws hsolid rest
  have hsplit : splitEntry (sep :: tail) = ([], some (trim tail), sep) := splitEntry_some (tok := []) (by simp) hsep
  rw [parseEntry, htrim]
  exact if_pos (by simp [hsplit, dropSpaces])

/-- A lone `-` between whitespace is a token: a sign with no digits after it (46_parse.md R286). -/
theorem entryText_minus {before after : Bytes} (hb : Blank before) (ha : Blank after) :
    EntryText (before ++ [0x2D#8] ++ after) (signed true []) none :=
  ⟨by decide, by decide, by rintro _ ⟨⟩; decide, before, [0x2D#8], after, hb, ha, by decide, rfl,
    by rintro _ ⟨⟩; decide⟩

/-- PARSE takes an error of the parser as it is (46_parse.md R280). -/
theorem exec_parse_of_error {f : Radix} {s : State} {x : Err}
    (h : parseEntry (widthBits s.width) f s.port.text = .error x) : exec (.parse f) s = .next (s.raise x) := by
  change execParse f s = _
  rw [execParse, h]

/-- Settles O57: step 1 answers the blank TEXT, step 4 refuses the separator in front, and step 9 the sign with no digits. -/
theorem parseOfBlankAndEmptyInput : Obligations.ParseOfBlankAndEmptyInput := by
  intro f s ws hws
  refine ⟨fun htext => ?_, fun sep rest hsep htext => ?_, fun htext => ?_⟩
  · change execParse f s = _
    rw [execParse, htext, parseEntry_blank hws]
    rfl
  · obtain ⟨hmark, hsolid⟩ : isSeparator sep = true ∧ ¬ Blank [sep] := by rcases hsep with rfl | rfl <;> decide
    have hempty := parseEntry_separator_first hws hmark hsolid rest (widthBits s.width) f
    exact failsWith_of_raise (exec_parse_of_error (htext ▸ hempty))
  · have hentry : EntryText s.port.text (signed true []) none := htext ▸ entryText_minus hws hws
    have hradix : chooseRadix f [] = (radixValue f, []) := rfl
    have hrun := execParse_entryText (by simp) hentry hradix
    exact failsWith_of_raise hrun

/-! ## Queries -/

@[simp] theorem respond_respond (s : State) (latched r : Response) : (s.respond latched).respond r = s.respond r := rfl

@[simp] theorem respond_raise (s : State) (latched : Response) (x : Err) :
    (s.respond latched).raise x = s.respond (errorResponse x) := rfl

/-- The command answers the state it runs in but for a response that the state's other fields decide: the latched response
is not read (20_memory.md R63). -/
def OnlyAnswers (i : Instr) (s : State) : Prop := ∃ r, ∀ latched, exec i (s.respond latched) = .next (s.respond r)

theorem onlyAnswers_peek (s : State) : OnlyAnswers .peek s := by
  by_cases hshort : s.dq.count < 1
  · exact ⟨errorResponse .insufficientOperands, fun _ => if_pos hshort⟩
  · cases hdepth : s.dq.depth 1 with
    | error x => exact ⟨errorResponse x, fun _ => by simp [exec, execPeek, hshort, hdepth]⟩
    | ok t =>
      exact ⟨{ Response.blank with rval := slotValue (wordOf (widthBits s.width) t), rcmt0 := t.cmt, rcmt1 := t.alt },
        fun _ => by simp [exec, execPeek, hshort, hdepth]⟩

theorem onlyAnswers_count (s : State) : OnlyAnswers .count s :=
  ⟨{ Response.blank with rcount := countField s.dq.count }, fun _ => rfl⟩

theorem onlyAnswers_wbytes (s : State) : OnlyAnswers .wbytes s :=
  ⟨{ Response.blank with rcount := BitVec.ofNat 32 (widthBytes s.width) }, fun _ => rfl⟩

theorem onlyAnswers_getitems (s : State) : OnlyAnswers .getitems s :=
  ⟨{ Response.blank with items := (s.dq.enumerateLifo (dataIndex s.port.data)).map (itemOf s.width) }, fun _ => rfl⟩

/-- PARSE, whether it reads an entry or fails (46_parse.md R296). -/
theorem onlyAnswers_parse (f : Radix) (s : State) : OnlyAnswers (.parse f) s := by
  cases hentry : parseEntry (widthBits s.width) f s.port.text with
  | error x => exact ⟨errorResponse x, fun _ => exec_parse_of_error hentry⟩
  | ok entry =>
    cases entry with
    | none => exact ⟨Response.blank, fun _ => by simp [exec, execParse, hentry]⟩
    | some e =>
      exact ⟨{ Response.blank with rpresent := true, rval := slotValue e.1, rcmt0 := e.2.1, marker := e.2.2 },
        fun _ => by simp [exec, execParse, hentry]⟩

/-- Settles O18: a response that does not depend on the latched one is answered again. -/
theorem queriesChangeNothing : Obligations.QueriesChangeNothing := by
  intro i s hquery
  have hanswers : OnlyAnswers i s := by
    obtain rfl | rfl | rfl | rfl | ⟨f, rfl⟩ := hquery
    · exact onlyAnswers_peek s
    · exact onlyAnswers_count s
    · exact onlyAnswers_wbytes s
    · exact onlyAnswers_getitems s
    · exact onlyAnswers_parse f s
  obtain ⟨r, hrun⟩ := hanswers
  exact ⟨r, hrun s.resp, hrun r⟩

end Sys2Proof.Machine

/-! PROOFS. The fields of a command word, read from a word put together and put together from a word read; the opcode map by
its opcodes; and the statements on decoding (30_encoding.md R81 to R95). -/

namespace Sys2Proof

/-! ## Fields read from a word put together -/

/-- The bits of a field placed at `pos` (30_encoding.md R81). -/
theorem getLsbD_place {n : Nat} (v : BitVec n) (pos i : Nat) :
    (place v pos).getLsbD i = (decide (i < 32) && (decide (pos ≤ i) && v.getLsbD (i - pos))) := by
  rw [place, BitVec.getLsbD_shiftLeft, BitVec.getLsbD_setWidth]
  by_cases hi : i < 32
  · by_cases hpos : i < pos
    · simp [hi, hpos]
    · have hsub : i - pos < 32 := by omega
      simp [hi, hpos, hsub, not_lt.1 hpos]
  · simp [hi]

theorem getLsbD_placeBit (b : Bool) {pos : Nat} (hpos : pos < 32) (i : Nat) :
    (placeBit b pos).getLsbD i = (decide (i = pos) && b) := by
  rw [placeBit, getLsbD_place, BitVec.getLsbD_ofBool]
  by_cases hi : i = pos
  · simp [hi, hpos]
  · have hne : ¬ (pos ≤ i ∧ i - pos = 0) := by omega
    by_cases hle : pos ≤ i
    · have hsub : i - pos ≠ 0 := fun h0 => hne ⟨hle, h0⟩
      simp [hi, hsub]
    · simp [hi, hle]

/-- A bit above the opcode is the fields' (30_encoding.md R81). -/
theorem getLsbD_word_of_high (o : BitVec 8) (fields : BitVec 32) {i : Nat} (hi : 8 ≤ i) :
    (place o 0 ||| fields).getLsbD i = fields.getLsbD i := by
  have hhigh : o.getLsbD i = false := BitVec.getLsbD_of_ge _ _ hi
  simp [getLsbD_place, hhigh]

section
variable (o : BitVec 8)

theorem cinOf_word (c p v : Bool) : cinOf (place o 0 ||| (placeBit c 8 ||| placeBit p 9 ||| placeBit v 10)) = c := by
  rw [cinOf, getLsbD_word_of_high _ _ (by decide)]
  simp [BitVec.getLsbD_or, getLsbD_placeBit, -BitVec.getLsbD_eq_getElem]

theorem pfcOf_word (c p v : Bool) : pfcOf (place o 0 ||| (placeBit c 8 ||| placeBit p 9 ||| placeBit v 10)) = p := by
  rw [pfcOf, getLsbD_word_of_high _ _ (by decide)]
  simp [BitVec.getLsbD_or, getLsbD_placeBit, -BitVec.getLsbD_eq_getElem]

theorem pfvOf_word (c p v : Bool) : pfvOf (place o 0 ||| (placeBit c 8 ||| placeBit p 9 ||| placeBit v 10)) = v := by
  rw [pfvOf, getLsbD_word_of_high _ _ (by decide)]
  simp [BitVec.getLsbD_or, getLsbD_placeBit, -BitVec.getLsbD_eq_getElem]

theorem xiOf_word (xi : Bool) : xiOf (place o 0 ||| placeBit xi 11) = xi := by
  rw [xiOf, getLsbD_word_of_high _ _ (by decide)]
  simp [getLsbD_placeBit, -BitVec.getLsbD_eq_getElem]

theorem sxOf_word (wc : BitVec 3) (sx : Bool) : sxOf (place o 0 ||| (place wc 12 ||| placeBit sx 15)) = sx := by
  rw [sxOf, getLsbD_word_of_high _ _ (by decide)]
  simp [BitVec.getLsbD_or, getLsbD_placeBit, getLsbD_place, -BitVec.getLsbD_eq_getElem]

theorem wcOf_word (wc : BitVec 3) (sx : Bool) : wcOf (place o 0 ||| (place wc 12 ||| placeBit sx 15)) = wc := by
  refine BitVec.eq_of_getLsbD_eq fun i hi => ?_
  have hplace : 12 + i < 32 := by omega
  have hbit : 12 + i ≠ 15 := by omega
  rw [wcOf, BitVec.getLsbD_extractLsb', getLsbD_word_of_high _ _ (by omega), BitVec.getLsbD_or, getLsbD_place,
    getLsbD_placeBit _ (by decide)]
  simp [hi, hplace, hbit]

/-- FMT's code names it (30_encoding.md R86). -/
theorem ofCode_code (fmt : Radix) : Radix.ofCode fmt.code = fmt := by cases fmt <;> rfl

theorem code_ofCode (c : BitVec 2) : (Radix.ofCode c).code = c := by revert c; decide

theorem fmtOf_word (fmt : Radix) : fmtOf (place o 0 ||| place fmt.code 16) = fmt := by
  have hcode : (place o 0 ||| place fmt.code 16).extractLsb' 16 2 = fmt.code := by
    refine BitVec.eq_of_getLsbD_eq fun i hi => ?_
    have hplace : 16 + i < 32 := by omega
    rw [BitVec.getLsbD_extractLsb', getLsbD_word_of_high _ _ (by omega), getLsbD_place]
    simp [hi, hplace]
  rw [fmtOf, hcode, ofCode_code]

end

/-! ## Decoding what was encoded -/

/-- Every command's word has its opcode and no bit outside its format's fields (30_encoding.md R87, R89). -/
theorem formatBits (i : Instr) : Laws.FormatBits.Statement i := by
  cases i with
  | push wc sx => exact Laws.FormatBits.push wc sx
  | peek => exact Laws.FormatBits.peek
  | clear => exact Laws.FormatBits.clear
  | count => exact Laws.FormatBits.count
  | wbytes => exact Laws.FormatBits.wbytes
  | getitems => exact Laws.FormatBits.getitems
  | convert wc sx => exact Laws.FormatBits.convert wc sx
  | parse fmt => exact Laws.FormatBits.parse fmt
  | add c p v => exact Laws.FormatBits.add c p v
  | adc c p v => exact Laws.FormatBits.adc c p v
  | sub c p v => exact Laws.FormatBits.sub c p v
  | sbb c p v => exact Laws.FormatBits.sbb c p v
  | mul c p v => exact Laws.FormatBits.mul c p v
  | divu c p v => exact Laws.FormatBits.divu c p v
  | divs c p v => exact Laws.FormatBits.divs c p v
  | rem c p v => exact Laws.FormatBits.rem c p v
  | and c p v => exact Laws.FormatBits.and c p v
  | or c p v => exact Laws.FormatBits.or c p v
  | xor c p v => exact Laws.FormatBits.xor c p v
  | shl c p v => exact Laws.FormatBits.shl c p v
  | shr c p v => exact Laws.FormatBits.shr c p v
  | sar c p v => exact Laws.FormatBits.sar c p v
  | rol c p v => exact Laws.FormatBits.rol c p v
  | ror c p v => exact Laws.FormatBits.ror c p v
  | rcl c p v => exact Laws.FormatBits.rcl c p v
  | rcr c p v => exact Laws.FormatBits.rcr c p v
  | alignup c p v => exact Laws.FormatBits.alignup c p v
  | aligndn c p v => exact Laws.FormatBits.aligndn c p v
  | not => exact Laws.FormatBits.not
  | maskl => exact Laws.FormatBits.maskl
  | maskr => exact Laws.FormatBits.maskr
  | popcnt => exact Laws.FormatBits.popcnt
  | clz => exact Laws.FormatBits.clz
  | ctz => exact Laws.FormatBits.ctz
  | pow2 => exact Laws.FormatBits.pow2
  | drop xi => exact Laws.FormatBits.drop xi
  | roll xi => exact Laws.FormatBits.roll xi
  | extract xi => exact Laws.FormatBits.extract xi
  | swap xi => exact Laws.FormatBits.swap xi
  | pick xi => exact Laws.FormatBits.pick xi
  | setcmt xi => exact Laws.FormatBits.setcmt xi
  | swapcmt xi => exact Laws.FormatBits.swapcmt xi

/-- The opcode map finds the command in its word. -/
theorem instrOf_encode (i : Instr) : instrOf (encode i) = some i := by
  obtain ⟨hopcode, -⟩ := formatBits i
  rw [instrOf, hopcode]
  cases i
  case push wc sx | convert wc sx => simp [Instr.opcode, encode, Instr.fieldBits, wcOf_word, sxOf_word]
  case parse fmt => simp [Instr.opcode, encode, Instr.fieldBits, fmtOf_word]
  case drop xi | roll xi | extract xi | swap xi | pick xi | setcmt xi | swapcmt xi =>
    simp [Instr.opcode, encode, Instr.fieldBits, xiOf_word]
  case peek | clear | count | wbytes | getitems | not | maskl | maskr | popcnt | clz | ctz | pow2 => rfl
  all_goals simp [Instr.opcode, encode, Instr.fieldBits, cinOf_word, pfcOf_word, pfvOf_word]

/-- Settles O1: the opcode map finds the command, and `formatBits` leaves no bit to refuse. -/
theorem decodeOfEncode : Obligations.DecodeOfEncode := by
  intro i _
  obtain ⟨-, hmask⟩ := formatBits i
  have hlegal : encode i &&& 0xFFFFFF00#32 &&& ~~~i.format.allowed = 0#32 := by
    rw [BitVec.and_assoc]
    simpa [BitVec.not_or] using hmask
  rw [decode, instrOf_encode]
  exact if_pos hlegal

/-! ## Encoding what was decoded -/

/-- A word is its opcode and its other bits. -/
theorem getLsbD_opcOf (w : BitVec 32) (i : Nat) : (opcOf w).getLsbD i = (decide (i < 8) && w.getLsbD i) := by
  rw [opcOf, BitVec.getLsbD_extractLsb', Nat.zero_add]

theorem place_opcOf (w : BitVec 32) : place (opcOf w) 0 = w &&& 0x000000FF#32 := by
  refine BitVec.eq_of_getLsbD_eq fun i hi => ?_
  rw [getLsbD_place, BitVec.getLsbD_and, Nat.sub_zero, getLsbD_opcOf]
  interval_cases i <;> simp

theorem placeBit_getLsbD (w : BitVec 32) {pos : Nat} (hpos : pos < 32) :
    placeBit (w.getLsbD pos) pos = w &&& BitVec.twoPow 32 pos := by
  refine BitVec.eq_of_getLsbD_eq fun i hi => ?_
  rw [getLsbD_placeBit _ hpos, BitVec.getLsbD_and, BitVec.getLsbD_twoPow]
  by_cases h : i = pos
  · simp [h, hpos]
  · simp [h, Ne.symm h]

theorem place_extractLsb' (w : BitVec 32) {pos n : Nat} (hpos : pos + n ≤ 32) :
    place (w.extractLsb' pos n) pos = w &&& (BitVec.allOnes n).setWidth 32 <<< pos := by
  refine BitVec.eq_of_getLsbD_eq fun i hi => ?_
  rw [getLsbD_place, BitVec.getLsbD_and, BitVec.getLsbD_shiftLeft, BitVec.getLsbD_setWidth, BitVec.getLsbD_extractLsb',
    BitVec.getLsbD_allOnes]
  by_cases hle : pos ≤ i
  · have hsub : i - pos < 32 := by omega
    simp [hi, hle, hsub, not_lt.2 hle, Nat.add_sub_cancel' hle, Bool.and_comm]
  · simp [hi, hle, not_le.1 hle]

/-- The fields of a word that names a command are the word's bits under the command's mask (30_encoding.md R81, R89). -/
theorem instrOf_fields {w : BitVec 32} {i : Instr} (h : instrOf w = some i) :
    i.opcode = opcOf w ∧ i.fieldBits = w &&& i.format.allowed := by
  have hbyte : ∀ o : BitVec 8, (opcOf w).toNat = o.toNat → o = opcOf w := fun o ho => (BitVec.eq_of_toNat_eq ho).symm
  have hw : place (wcOf w) 12 ||| placeBit (sxOf w) 15 = w &&& Format.w.allowed := by
    rw [wcOf, sxOf, place_extractLsb' w (by decide), placeBit_getLsbD w (by decide), ← BitVec.and_or_distrib_left]
    rfl
  have hf : place (fmtOf w).code 16 = w &&& Format.f.allowed := by
    rw [fmtOf, code_ofCode, place_extractLsb' w (by decide)]
    rfl
  have hb : placeBit (cinOf w) 8 ||| placeBit (pfcOf w) 9 ||| placeBit (pfvOf w) 10 = w &&& Format.b.allowed := by
    rw [cinOf, pfcOf, pfvOf, placeBit_getLsbD w (by decide), placeBit_getLsbD w (by decide), placeBit_getLsbD w (by decide),
      ← BitVec.and_or_distrib_left, ← BitVec.and_or_distrib_left]
    rfl
  have hs : placeBit (xiOf w) 11 = w &&& Format.s.allowed := placeBit_getLsbD w (by decide)
  have hn : 0#32 = w &&& Format.n.allowed := BitVec.and_zero.symm
  unfold instrOf at h
  split at h
  -- the cases stand in the order of the opcode map, the reserved opcodes last
  case h_43 => cases h
  case h_1 hopcode | h_7 hopcode => cases h; exact ⟨hbyte _ hopcode, hw⟩
  case h_8 hopcode => cases h; exact ⟨hbyte _ hopcode, hf⟩
  case h_2 hopcode | h_3 hopcode | h_4 hopcode | h_5 hopcode | h_6 hopcode => cases h; exact ⟨hbyte _ hopcode, hn⟩
  case h_29 hopcode | h_30 hopcode | h_31 hopcode | h_32 hopcode | h_33 hopcode | h_34 hopcode | h_35 hopcode =>
    cases h; exact ⟨hbyte _ hopcode, hn⟩
  case h_36 hopcode | h_37 hopcode | h_38 hopcode | h_39 hopcode | h_40 hopcode | h_41 hopcode | h_42 hopcode =>
    cases h; exact ⟨hbyte _ hopcode, hs⟩
  all_goals
    next hopcode => cases h; exact ⟨hbyte _ hopcode, hb⟩

/-- A word whose bits outside the opcode and a mask are zero is its opcode and its bits under the mask (30_encoding.md
R87). -/
theorem opcode_or_fields {w mask : BitVec 32} (h : w &&& 0xFFFFFF00#32 &&& ~~~mask = 0#32) :
    w &&& 0x000000FF#32 ||| w &&& mask = w := by
  have hsplit : 0xFFFFFF00#32 = ~~~0x000000FF#32 := by decide
  rw [hsplit, BitVec.and_assoc, ← BitVec.not_or] at h
  rw [← BitVec.and_or_distrib_left]
  refine BitVec.eq_of_getLsbD_eq fun i hi => ?_
  have hbit := congrArg (BitVec.getLsbD · i) h
  simp only [BitVec.getLsbD_and, BitVec.getLsbD_not, BitVec.getLsbD_zero, decide_eq_true hi, Bool.true_and] at hbit
  rw [BitVec.getLsbD_and]
  cases hw : w.getLsbD i
  case false => rfl
  case true => simpa [hw, or_iff_not_imp_left] using hbit

/-- What `decode` answers, by the opcode map and the bits outside the format's mask (30_encoding.md R95). -/
theorem decode_eq_ok_iff {w : BitVec 32} {i : Instr} :
    decode w = .ok i ↔ instrOf w = some i ∧ w &&& 0xFFFFFF00#32 &&& ~~~i.format.allowed = 0#32 := by
  unfold decode
  cases instrOf w with
  | none => simp
  | some j =>
    by_cases hlegal : w &&& 0xFFFFFF00#32 &&& ~~~j.format.allowed = 0#32
    · simp only [if_pos hlegal, Except.ok.injEq, Option.some.injEq]
      exact ⟨fun h => ⟨h, h ▸ hlegal⟩, And.left⟩
    · simp only [if_neg hlegal, reduceCtorEq, Option.some.injEq, false_iff]
      rintro ⟨rfl, h⟩
      exact hlegal h

/-- Settles O2: the opcode's byte and the bits under the format's mask are the whole word. -/
theorem encodeOfDecode : Obligations.EncodeOfDecode := by
  intro w i hdecode
  obtain ⟨hinstr, hlegal⟩ := decode_eq_ok_iff.1 hdecode
  obtain ⟨hopcode, hfields⟩ := instrOf_fields hinstr
  rw [encode, hopcode, hfields, place_opcOf, opcode_or_fields hlegal]

/-! ## The legal words -/

theorem opcOf_toNat (w : BitVec 32) : (opcOf w).toNat = w.toNat % 256 := by
  simp [opcOf, BitVec.extractLsb'_toNat]

/-- The mask of a command's format is that of its opcode, which is assigned (30_encoding.md R89 to R93). -/
theorem opcodeMask_opcode (i : Instr) :
    Machine.opcodeMask i.opcode.toNat = i.format.allowed ∧ Machine.opcodeAssigned i.opcode.toNat = true := by
  cases i <;> exact ⟨rfl, rfl⟩

/-- An assigned opcode is in the opcode map (30_encoding.md R90 to R94). -/
theorem instrOf_isSome {w : BitVec 32} (h : Machine.opcodeAssigned (opcOf w).toNat = true) : ∃ i, instrOf w = some i := by
  rw [← Option.isSome_iff_exists, instrOf]
  generalize (opcOf w).toNat = opcode at h ⊢
  simp only [Machine.opcodeAssigned, Bool.or_eq_true, Bool.and_eq_true, decide_eq_true_eq] at h
  obtain ((⟨hlo, hhi⟩ | ⟨hlo, hhi⟩) | ⟨hlo, hhi⟩) | ⟨hlo, hhi⟩ := h <;> interval_cases opcode <;> rfl

section
variable {w : BitVec 32}

/-- A reserved opcode names no command (30_encoding.md R94). -/
theorem decode_of_reserved (h : Machine.opcodeAssigned (w.toNat % 256) = false) : decode w = .error .reservedOpcode := by
  have hnone : instrOf w = none := by
    cases hinstr : instrOf w with
    | none => rfl
    | some i =>
      obtain ⟨hopcode, -⟩ := instrOf_fields hinstr
      obtain ⟨-, hassigned⟩ := opcodeMask_opcode i
      rw [hopcode, opcOf_toNat, h] at hassigned
      cases hassigned
  rw [decode, hnone]

/-- A word with an assigned opcode is judged by the bits outside the opcode's mask (30_encoding.md R95). -/
theorem decode_of_assigned (h : Machine.opcodeAssigned (w.toNat % 256) = true) :
    ∃ i : Instr, i.opcode.toNat = w.toNat % 256
      ∧ decode w = if w &&& 0xFFFFFF00#32 &&& ~~~Machine.opcodeMask (w.toNat % 256) = 0#32 then .ok i
          else .error .reservedBits := by
  rw [← opcOf_toNat] at h ⊢
  obtain ⟨i, hinstr⟩ := instrOf_isSome h
  obtain ⟨hopcode, -⟩ := instrOf_fields hinstr
  obtain ⟨hmask, -⟩ := opcodeMask_opcode i
  rw [hopcode] at hmask
  exact ⟨i, by rw [hopcode], by rw [decode, hinstr, hmask]⟩

/-- An illegal word decodes to no command (30_encoding.md R87, R94). -/
theorem decode_of_illegal
    (h : Machine.opcodeAssigned (w.toNat % 256) = false
      ∨ w &&& 0xFFFFFF00#32 &&& ~~~Machine.opcodeMask (w.toNat % 256) ≠ 0#32) : ∃ x, decode w = .error x := by
  cases hassigned : Machine.opcodeAssigned (w.toNat % 256) with
  | false => exact ⟨_, decode_of_reserved hassigned⟩
  | true =>
    obtain ⟨i, -, hdecode⟩ := decode_of_assigned hassigned
    have hbits := h.resolve_left (by simp [hassigned])
    exact ⟨_, hdecode.trans (if_neg hbits)⟩

end

/-- Settles O3: the opcode map holds exactly the assigned opcodes, and a command's mask is its opcode's. -/
theorem decodeAcceptsExactlyTheLegalWords : Obligations.DecodeAcceptsExactlyTheLegalWords := by
  intro w
  refine ⟨fun ⟨hassigned, hbits⟩ => ?_, decode_of_reserved, fun ⟨hassigned, hbits⟩ => ?_⟩
  · obtain ⟨i, hopcode, hdecode⟩ := decode_of_assigned hassigned
    exact ⟨i, hdecode.trans (if_pos hbits), hopcode⟩
  · obtain ⟨i, -, hdecode⟩ := decode_of_assigned hassigned
    exact hdecode.trans (if_neg hbits)

/-- Settles O4: the decoder runs on each word. -/
theorem specWordsDecode : Obligations.SpecWordsDecode := by
  refine ⟨?_, ?_, ?_, ?_, ?_, ?_, ?_, ?_⟩ <;> rfl

end Sys2Proof

/-! PROOFS. The operations of the stack commands as operations on the logical stack alone, written out at the depth of the
index, and the statements on DROP, EXTRACT, SWAP, SETCMT and SWAPCMT (44_stack.md R240 to R252). -/

namespace Sys2Proof.Machine

/-! ## Operations on the logical stack -/

/-- On every deque in form of this capacity that holds the stack `S`, the operation leaves the stack `T` in form. -/
def LeavesStack (op : StackOp) (idx : Int) (arg : Option Entry) (cap : Nat) (S T : List Entry) : Prop :=
  ∀ d : Deque, d.wf → d.cap = cap → d.stack = S →
    ∃ d', op idx arg d = .ok d' ∧ d'.wf ∧ d'.cap = cap ∧ d'.stack = T

/-- On every deque in form of this capacity that holds the stack `S`, the operation raises `x`. -/
def RaisesOnStack (op : StackOp) (idx : Int) (arg : Option Entry) (cap : Nat) (S : List Entry) (x : Err) : Prop :=
  ∀ d : Deque, d.wf → d.cap = cap → d.stack = S → op idx arg d = .error x

section
variable {i : Instr} {op : StackOp} {xi : Bool} {s : State} {S T : List Entry} {idx : Int} {arg : Option Entry}

theorem completes_of_leavesStack (hrun : exec i s = execStack op xi s) (hw : s.dq.wf)
    (hindex : IndexedBy xi s S idx arg) (hop : LeavesStack op idx arg s.dq.cap S T) :
    Completes i s s.width T Response.blank := by
  obtain ⟨d0, hw0, hcap0, hstack0, hcompletes, -⟩ := outcomes_of_execStack hrun hw hindex
  obtain ⟨d, hd, hwd, hcap, hstack⟩ := hop d0 hw0 hcap0 hstack0
  exact hstack ▸ hcompletes d hd hwd (hcap.trans hcap0.symm)

theorem failsWith_of_raisesOnStack {x : Err} (hrun : exec i s = execStack op xi s) (hw : s.dq.wf)
    (hindex : IndexedBy xi s S idx arg) (hop : RaisesOnStack op idx arg s.dq.cap S x) : FailsWith i s (errCode x) := by
  obtain ⟨d0, hw0, hcap0, hstack0, -, hfails⟩ := outcomes_of_execStack hrun hw hindex
  exact hfails x (hop d0 hw0 hcap0 hstack0)

end

/-! ## The entry at a depth -/

/-- A depth in `[1, c]` splits the stack at its entry. -/
theorem exists_split_at_depth {S : List Entry} {k : Int} (h1 : 1 ≤ k) (hk : k ≤ S.length) :
    ∃ P e Q, S = P ++ [e] ++ Q ∧ k = Q.length + 1 := by
  have hlt : S.length - k.toNat < S.length := by omega
  refine ⟨S.take (S.length - k.toNat), S[S.length - k.toNat], S.drop (S.length - k.toNat + 1), ?_, ?_⟩
  · simp
  · rw [List.length_drop]; omega

section
variable {d : Deque} {P Q : List Entry} {e : Entry} {k : Int}

/-- The place of a split stack that a depth names. -/
theorem place_of_depth (hstack : d.stack = P ++ [e] ++ Q) (hk : k = Q.length + 1) :
    1 ≤ k ∧ k ≤ (d.count : Int) ∧ d.count - k.toNat = P.length := by
  have hcount := count_of_stack hstack
  simp only [List.length_append, List.length_singleton] at hcount
  omega

theorem entry_at_depth (hstack : d.stack = P ++ [e] ++ Q) {e' : Entry} (h : d.stack[P.length]? = some e') : e' = e := by
  simpa [hstack] using h.symm

theorem set_at_depth (P Q : List Entry) (e x : Entry) : (P ++ [e] ++ Q).set P.length x = P ++ [x] ++ Q := by simp

end

/-! ## Each operation -/

section
variable (arg : Option Entry) (cap : Nat)

theorem drop_leavesStack (S : List Entry) (n : Int) : LeavesStack stkDrop n arg cap S (S.take (S.length - n.toNat)) := by
  rintro d hw rfl rfl
  rw [stack_length]
  exact stkDrop_spec hw n arg

theorem roll_leavesStack (S : List Entry) (n : Int) :
    LeavesStack stkRoll n arg cap S (S.rotate ((-n) % (S.length : Int)).toNat) := by
  rintro d hw rfl rfl
  rw [stack_length]
  exact stkRoll_spec hw n arg

section
variable {k : Int} (S P Q : List Entry) (e t : Entry)

theorem extract_leavesStack_of_le_one (hk : k ≤ 1) : LeavesStack stkExtract k arg cap S S :=
  fun d hw hcap hstack => ⟨d, (stkExtract_other d k arg).1 hk, hw, hcap, hstack⟩

theorem swap_leavesStack_of_le_one (hk : k ≤ 1) : LeavesStack stkSwap k arg cap S S :=
  fun d hw hcap hstack => ⟨d, (stkSwap_other d k arg).1 hk, hw, hcap, hstack⟩

/-- EXTRACT moves the entry at depth `k` to the top (44_stack.md R247). -/
theorem extract_leavesStack (hk : k = Q.length + 1) :
    LeavesStack stkExtract k arg cap (P ++ [e] ++ Q) (P ++ Q ++ [e]) := by
  rcases Q with _ | ⟨q, Q⟩
  · simpa using extract_leavesStack_of_le_one arg cap (P ++ [e]) (k := k) (by simp [hk])
  · rintro d hw rfl hstack
    obtain ⟨-, hle, hplace⟩ := place_of_depth hstack hk
    obtain ⟨e', d', hop, hwd, hcap, hentry, hstack'⟩ :=
      stkExtract_spec hw (k := k) (by rw [hk, List.length_cons]; omega) hle arg
    rw [hplace] at hentry hstack'
    rw [entry_at_depth hstack hentry, hstack] at hstack'
    exact ⟨d', hop, hwd, hcap, by simpa [List.eraseIdx_append_of_length_le] using hstack'⟩

/-- SWAP exchanges the top entry and the one at depth `k` (44_stack.md R248). -/
theorem swap_leavesStack (hk : k = Q.length + 2) :
    LeavesStack stkSwap k arg cap (P ++ [e] ++ Q ++ [t]) (P ++ [t] ++ Q ++ [e]) := by
  rintro d hw rfl hstack
  have hcount := count_of_stack hstack
  simp only [List.length_append, List.length_singleton] at hcount
  obtain ⟨t', e', d', hop, hwd, hcap, htop, hentry, hstack'⟩ := stkSwap_spec hw (k := k) (by omega) (by omega) arg
  have hlast : d.count - 1 = (P ++ [e] ++ Q).length := by simp; omega
  have hplace : d.count - k.toNat = P.length := by omega
  rw [hlast] at htop hstack'
  rw [hplace] at hentry hstack'
  have ht : t' = t := by rw [hstack, List.getElem?_concat_length] at htop; exact (Option.some.inj htop).symm
  have he : e' = e := by simpa [hstack] using hentry.symm
  refine ⟨d', hop, hwd, hcap, ?_⟩
  rw [hstack', hstack, ht, he]
  simp

/-- SETCMT puts the popped comment on the entry at depth `k` (44_stack.md R251). -/
theorem setcmt_leavesStack (g : Entry) (hk : k = Q.length + 1) :
    LeavesStack stkSetcmt k (some g) cap (P ++ [t] ++ Q) (P ++ [{ val := t.val, cmt := g.cmt, alt := t.cmt }] ++ Q) := by
  rintro d hw rfl hstack
  obtain ⟨h1, hle, hplace⟩ := place_of_depth hstack hk
  obtain ⟨t', d', hop, hwd, hcap, hentry, hstack'⟩ := stkSetcmt_spec hw h1 hle g
  rw [hplace] at hentry hstack'
  rw [entry_at_depth hstack hentry, hstack, set_at_depth] at hstack'
  exact ⟨d', hop, hwd, hcap, hstack'⟩

/-- SWAPCMT exchanges the comments of the entry at depth `k` (44_stack.md R252). -/
theorem swapcmt_leavesStack (hk : k = Q.length + 1) :
    LeavesStack stkSwapcmt k arg cap (P ++ [t] ++ Q) (P ++ [{ val := t.val, cmt := t.alt, alt := t.cmt }] ++ Q) := by
  rintro d hw rfl hstack
  obtain ⟨h1, hle, hplace⟩ := place_of_depth hstack hk
  obtain ⟨t', d', hop, hwd, hcap, hentry, hstack'⟩ := stkSwapcmt_spec hw h1 hle arg
  rw [hplace] at hentry hstack'
  rw [entry_at_depth hstack hentry, hstack, set_at_depth] at hstack'
  exact ⟨d', hop, hwd, hcap, hstack'⟩

/-- PICK with room copies the value at depth `k` (44_stack.md R249). -/
theorem pick_leavesStack (hk : k = Q.length + 1) (hroom : (P ++ [e] ++ Q).length + 1 < cap) :
    LeavesStack stkPick k arg cap (P ++ [e] ++ Q) (P ++ [e] ++ Q ++ [{ val := e.val, cmt := none, alt := none }]) := by
  rintro d hw rfl hstack
  obtain ⟨h1, hle, hplace⟩ := place_of_depth hstack hk
  rw [← count_of_stack hstack] at hroom
  obtain ⟨e', d', hop, hwd, hcap, hentry, hstack'⟩ := (stkPick_spec hw h1 hle arg).1 hroom
  rw [hplace] at hentry
  rw [entry_at_depth hstack hentry, hstack] at hstack'
  exact ⟨d', hop, hwd, hcap, hstack'⟩

end

section
variable {k : Int} {S : List Entry}

/-- PICK without room raises StackFull for an index in range (44_stack.md R250). -/
theorem pick_raisesOnStack (h1 : 1 ≤ k) (hk : k ≤ S.length) (hfull : cap ≤ S.length + 1) :
    RaisesOnStack stkPick k arg cap S .stackFull := by
  rintro d hw rfl rfl
  have hlt := count_lt hw
  rw [stack_length] at hk hfull
  exact (stkPick_spec hw h1 hk arg).2 (by omega)

theorem extract_raisesOnStack (h1 : 1 < k) (hk : (S.length : Int) < k) :
    RaisesOnStack stkExtract k arg cap S .indexOutOfRange := by
  rintro d - - rfl
  rw [stack_length] at hk
  exact (stkExtract_other d k arg).2 h1 hk

theorem swap_raisesOnStack (h1 : 1 < k) (hk : (S.length : Int) < k) :
    RaisesOnStack stkSwap k arg cap S .indexOutOfRange := by
  rintro d - - rfl
  rw [stack_length] at hk
  exact (stkSwap_other d k arg).2 h1 hk

/-- PICK, SETCMT with a popped index and SWAPCMT raise IndexOutOfRange outside `[1, c]` (44_stack.md R249, R251, R252). -/
theorem outOfRange_raisesOnStack (hk : k < 1 ∨ (S.length : Int) < k) (g : Entry) :
    RaisesOnStack stkPick k arg cap S .indexOutOfRange ∧ RaisesOnStack stkSetcmt k (some g) cap S .indexOutOfRange
      ∧ RaisesOnStack stkSwapcmt k arg cap S .indexOutOfRange := by
  refine ⟨?_, ?_, ?_⟩
  all_goals
    rintro d - - rfl
    rw [stack_length] at hk
    obtain ⟨hpick, hsetcmt, hswapcmt⟩ := stk_outOfRange hk arg g
    assumption

/-- SETCMT with an explicit index raises InvalidOperation (44_stack.md R251). -/
theorem setcmt_raisesOnStack : RaisesOnStack stkSetcmt k none cap S .invalidOperation :=
  fun d _ _ _ => stkSetcmt_none k d

end
end

/-! ## The statements -/

/-- Without an explicit index an entry was popped (44_stack.md R240). -/
theorem exists_popped_entry {s : State} {S : List Entry} {k : Int} {arg : Option Entry}
    (hindex : IndexedBy false s S k arg) : ∃ g, arg = some g := by
  obtain ⟨g, -, -, harg⟩ := hindex
  exact ⟨g, harg⟩

/-- Settles O49: DROP's operation takes the top `n` entries off in either index form. -/
theorem dropRemovesTheTop : Obligations.DropRemovesTheTop := by
  intro xi s S n arg hw hindex
  exact completes_of_leavesStack (op := stkDrop) rfl hw hindex (drop_leavesStack arg _ S n)

/-- Settles O51: the stack split at the depth `k`. -/
theorem extractMovesToTheTop : Obligations.ExtractMovesToTheTop := by
  intro xi s S k arg hw hindex
  refine ⟨fun hk => ?_, fun P Q e hS hk => ?_⟩
  · exact completes_of_leavesStack (op := stkExtract) rfl hw hindex (extract_leavesStack_of_le_one arg _ S hk)
  · subst hS
    exact completes_of_leavesStack (op := stkExtract) rfl hw hindex (extract_leavesStack arg _ P Q e hk)

/-- Settles O52: the stack split at the depth `k` and below its top. -/
theorem swapExchangesEntries : Obligations.SwapExchangesEntries := by
  intro xi s S k arg hw hindex
  refine ⟨fun hk => ?_, fun P Q e t hS hk => ?_⟩
  · exact completes_of_leavesStack (op := stkSwap) rfl hw hindex (swap_leavesStack_of_le_one arg _ S hk)
  · subst hS
    exact completes_of_leavesStack (op := stkSwap) rfl hw hindex (swap_leavesStack arg _ P Q e t hk)

/-- Settles O54: an explicit index pops no entry, and the operation asks for one before it looks at the index. -/
theorem setcmtMovesTheComment : Obligations.SetcmtMovesTheComment := by
  intro s hw
  constructor
  · rintro _ P Q k g t hindex rfl hk
    exact completes_of_leavesStack (op := stkSetcmt) rfl hw hindex (setcmt_leavesStack _ P Q t g hk)
  · intro hne
    have hindex : IndexedBy true s s.dq.stack _ none := ⟨rfl, hne, rfl, rfl⟩
    exact failsWith_of_raisesOnStack (op := stkSetcmt) rfl hw hindex (setcmt_raisesOnStack _)

/-- Settles O55: the stack split at the depth `k`. -/
theorem swapcmtExchangesTheComments : Obligations.SwapcmtExchangesTheComments := by
  rintro xi s _ P Q k arg t hw hindex rfl hk
  exact completes_of_leavesStack (op := stkSwapcmt) rfl hw hindex (swapcmt_leavesStack arg _ P Q t hk)

/-- Settles O56: each operation raises before it changes the deque, and a popped index goes back. -/
theorem indexOutOfRangeFails : Obligations.IndexOutOfRangeFails := by
  intro xi s S k arg hw hindex
  refine ⟨fun ⟨h1, hk⟩ => ⟨?extract, ?swap⟩, fun hk => ⟨?swapcmt, ?setcmt⟩⟩
  case extract => exact failsWith_of_raisesOnStack rfl hw hindex (extract_raisesOnStack arg _ h1 hk)
  case swap => exact failsWith_of_raisesOnStack rfl hw hindex (swap_raisesOnStack arg _ h1 hk)
  case swapcmt =>
    obtain ⟨-, -, hraises⟩ := outOfRange_raisesOnStack arg s.dq.cap hk Entry.blank
    exact failsWith_of_raisesOnStack rfl hw hindex hraises
  case setcmt =>
    rintro rfl
    obtain ⟨g, rfl⟩ := exists_popped_entry hindex
    obtain ⟨-, hraises, -⟩ := outOfRange_raisesOnStack none s.dq.cap hk g
    exact failsWith_of_raisesOnStack rfl hw hindex hraises

end Sys2Proof.Machine

/-! PROOFS. How a unary command completes or fails by its operation, each operation on words as a number, and the statements
on the unary commands (43_unary.md R220 to R229). -/

namespace Sys2Proof.Machine

/-! ## Outcomes of a unary command -/

section
variable {i : Instr} {s : State} {S : List Entry} {e : Entry} {op : (n : Nat) → BitVec n → Except Err (BitVec n)}

/-- A unary command whose operation answers `r` leaves `r` in its operand's place, both comments kept (43_unary.md R220). -/
theorem completes_of_execUnary {r : BitVec (widthBits s.width)} (hrun : exec i s = execUnary op s) (hw : s.dq.wf)
    (hS : s.dq.stack = S ++ [e]) (hop : op (widthBits s.width) (wordOf _ e) = .ok r) :
    Completes i s s.width (S ++ [{ e with val := slotValue r }]) Response.blank := by
  obtain ⟨d, hun, hwd, hcap, hstack⟩ := execUnary_ok hw hS hop
  rw [← hstack]
  exact completes_of_withDeque (hrun.trans hun) hwd hcap

/-- The same, with the result's unsigned value named. -/
theorem completes_of_execUnary_toNat {r : BitVec (widthBits s.width)} {m : Nat} (hrun : exec i s = execUnary op s)
    (hw : s.dq.wf) (hS : s.dq.stack = S ++ [e]) (hop : op (widthBits s.width) (wordOf _ e) = .ok r) (hr : r.toNat = m) :
    Completes i s s.width (S ++ [{ e with val := BitVec.ofNat 128 m }]) Response.blank := by
  rw [← hr, ← slotValue_eq (widthBits_le _)]
  exact completes_of_execUnary hrun hw hS hop

/-- A unary command whose operation fails fails with the operation's error (43_unary.md R220, R229). -/
theorem failsWith_of_execUnary {x : Err} (hrun : exec i s = execUnary op s) (hw : s.dq.wf)
    (hS : s.dq.stack = S ++ [e]) (hop : op (widthBits s.width) (wordOf _ e) = .error x) : FailsWith i s (errCode x) :=
  failsWith_of_raise (hrun.trans (execUnary_error hw hS hop))

end

/-! ## NOT -/

/-- Settles O44: the complement of a word is MAXU minus the word. -/
theorem notInvertsTheWord : Obligations.NotInvertsTheWord := by
  intro s S e hw hS
  exact completes_of_execUnary_toNat (op := fun _ x => .ok (~~~x)) rfl hw hS rfl (by rw [BitVec.toNat_not, wordOf_toNat])

/-! ## MASKL, MASKR and POW2 -/

section
variable {n : Nat} {x : BitVec n}

theorem unaryMask_outside (hx : x.toInt < 0 ∨ (n : Int) < x.toInt) :
    unaryMaskl x = .error .invalidShiftAmount ∧ unaryMaskr x = .error .invalidShiftAmount :=
  ⟨if_pos hx, if_pos hx⟩

theorem unaryPow2_negative (hx : x.toInt < 0) : unaryPow2 x = .error .invalidShiftAmount := if_pos hx

section
variable {m : Nat} (hx : x.toInt = m)
include hx

/-- MASKL for an operand in `[0, n]`: the word `2^n - 2^(n-m)` (43_unary.md R223). -/
theorem unaryMaskl_within (hm : m ≤ n) : ∃ r : BitVec n, unaryMaskl x = .ok r ∧ r.toNat = 2 ^ n - 2 ^ (n - m) := by
  have hpos : 0 < 2 ^ (n - m) := by positivity
  have hle : 2 ^ (n - m) ≤ 2 ^ n := Nat.pow_le_pow_right (by decide) (by omega)
  have hones : (2 ^ m - 1) * 2 ^ (n - m) = 2 ^ n - 2 ^ (n - m) := by
    rw [Nat.sub_mul, ← Nat.pow_add, Nat.add_sub_cancel' hm, Nat.one_mul]
  refine ⟨_, if_neg (by omega), ?_⟩
  rw [hx, Int.toNat_natCast, hones, BitVec.toNat_ofNat, Nat.mod_eq_of_lt (by omega)]

/-- MASKR for an operand in `[0, n]`: the word `2^m - 1` (43_unary.md R224). -/
theorem unaryMaskr_within (hm : m ≤ n) : ∃ r : BitVec n, unaryMaskr x = .ok r ∧ r.toNat = 2 ^ m - 1 := by
  have hpos : 0 < 2 ^ m := by positivity
  have hle : 2 ^ m ≤ 2 ^ n := Nat.pow_le_pow_right (by decide) hm
  refine ⟨_, if_neg (by omega), ?_⟩
  rw [hx, Int.toNat_natCast, BitVec.toNat_ofNat, Nat.mod_eq_of_lt (by omega)]

/-- POW2 for an operand of 0 and above (43_unary.md R228). -/
theorem unaryPow2_nonneg : ∃ r : BitVec n, unaryPow2 x = .ok r ∧ r.toNat = if m < n then 2 ^ m else 0 := by
  refine ⟨_, if_neg (by omega), ?_⟩
  by_cases hm : m < n
  · have hlt : 2 ^ m < 2 ^ n := Nat.pow_lt_pow_right (by decide) hm
    rw [if_neg (by omega), if_pos hm, hx, Int.toNat_natCast, BitVec.toNat_ofNat, Nat.mod_eq_of_lt hlt]
  · rw [if_pos (by omega), if_neg hm, BitVec.toNat_zero]

end
end

/-- Settles O45: the two ranges of the operand. -/
theorem masksMakeOnes : Obligations.MasksMakeOnes := by
  intro s S e hw hS
  simp only [← wordOf_toInt]
  refine ⟨fun n hn hle => ?within, fun hout => ?outside⟩
  case within =>
    obtain ⟨l, hmaskl, hl⟩ := unaryMaskl_within hn hle
    obtain ⟨r, hmaskr, hr⟩ := unaryMaskr_within hn hle
    exact ⟨completes_of_execUnary_toNat rfl hw hS hmaskl hl, completes_of_execUnary_toNat rfl hw hS hmaskr hr⟩
  case outside =>
    obtain ⟨hmaskl, hmaskr⟩ := unaryMask_outside hout
    exact ⟨failsWith_of_execUnary rfl hw hS hmaskl, failsWith_of_execUnary rfl hw hS hmaskr⟩

/-- Settles O48: the sign of the operand decides. -/
theorem pow2RaisesTwo : Obligations.Pow2RaisesTwo := by
  intro s S e hw hS
  simp only [← wordOf_toInt]
  refine ⟨fun n hn => ?_, fun hneg => ?_⟩
  · obtain ⟨r, hpow, hr⟩ := unaryPow2_nonneg hn
    exact completes_of_execUnary_toNat rfl hw hS hpow hr
  · exact failsWith_of_execUnary rfl hw hS (unaryPow2_negative hneg)

/-! ## POPCNT, CLZ and CTZ -/

section
variable {n : Nat} (x : BitVec n)

theorem lt_two_pow_of_le {k : Nat} (h : k ≤ n) : k < 2 ^ n := h.trans_lt Nat.lt_two_pow_self

theorem mem_setBits (i : Nat) : i ∈ setBits x ↔ i < n ∧ x.getLsbD i = true := by simp [setBits]

/-- The model's list of the set bits has as many members as there are set bits (43_unary.md R225). -/
theorem setBits_length : (setBits x).length = ((Finset.range n).filter fun i => x.getLsbD i = true).card := by
  have hnodup : (setBits x).Nodup := List.nodup_range.filter _
  rw [← List.toFinset_card_of_nodup hnodup]
  congr 1
  ext i
  simp [mem_setBits]

theorem unaryPopcnt_toNat : (unaryPopcnt x).toNat = ((Finset.range n).filter fun i => x.getLsbD i = true).card := by
  have hle : (setBits x).length ≤ n := (List.length_filter_le _ _).trans_eq List.length_range
  rw [unaryPopcnt, BitVec.toNat_ofNat, Nat.mod_eq_of_lt (lt_two_pow_of_le hle), setBits_length]

/-- CTZ counts the zeros below the lowest one, or all bits of 0 (43_unary.md R227). -/
theorem unaryCtz_toNat : ∃ k, k ≤ n ∧ (∀ i, i < k → x.getLsbD i = false) ∧ (k < n → x.getLsbD k = true)
    ∧ (unaryCtz x).toNat = k := by
  unfold unaryCtz
  cases hlow : (setBits x).head? with
  | none =>
    refine ⟨n, le_rfl, fun i hi => ?_, fun h => absurd h (lt_irrefl n), ?_⟩
    · have hnone := List.head?_eq_none_iff.1 hlow ▸ mem_setBits x i
      simpa [hi] using hnone
    · rw [BitVec.toNat_ofNat, Nat.mod_eq_of_lt (lt_two_pow_of_le le_rfl)]
  | some k =>
    rw [setBits, List.head?_filter, List.find?_range_eq_some] at hlow
    obtain ⟨hone, hmem, hzeros⟩ := hlow
    have hk := List.mem_range.1 hmem
    refine ⟨k, hk.le, fun i hi => by simpa using hzeros i hi, fun _ => hone, ?_⟩
    rw [BitVec.toNat_ofNat, Nat.mod_eq_of_lt (lt_two_pow_of_le hk.le)]

/-- CLZ counts the zeros above the highest one, or all bits of 0 (43_unary.md R226). -/
theorem unaryClz_toNat : ∃ k, k ≤ n ∧ (∀ i, n - k ≤ i → i < n → x.getLsbD i = false)
    ∧ (k < n → x.getLsbD (n - 1 - k) = true) ∧ (unaryClz x).toNat = k := by
  unfold unaryClz
  cases hhigh : (setBits x).getLast? with
  | none =>
    refine ⟨n, le_rfl, fun i _ hi => ?_, fun h => absurd h (lt_irrefl n), ?_⟩
    · have hnone := List.getLast?_eq_none_iff.1 hhigh ▸ mem_setBits x i
      simpa [hi] using hnone
    · rw [BitVec.toNat_ofNat, Nat.mod_eq_of_lt (lt_two_pow_of_le le_rfl)]
  | some j =>
    obtain ⟨low, hsplit⟩ := List.getLast?_eq_some_iff.1 hhigh
    have hsorted : (low ++ [j]).Pairwise (· < ·) := hsplit ▸ List.pairwise_lt_range.filter _
    obtain ⟨-, -, hbetween⟩ := List.pairwise_append.1 hsorted
    have hbelow : ∀ i ∈ low, i < j := fun i hi => hbetween i hi j (List.mem_singleton_self j)
    obtain ⟨hj, hone⟩ := (mem_setBits x j).1 (by simp [hsplit])
    refine ⟨n - 1 - j, by omega, fun i hi hin => ?_, fun _ => ?_, ?_⟩
    · by_contra hbit
      have hmem : i ∈ low ++ [j] := hsplit ▸ (mem_setBits x i).2 ⟨hin, by simpa using hbit⟩
      rcases List.mem_append.1 hmem with h | h
      · have := hbelow i h
        omega
      · have := List.mem_singleton.1 h
        omega
    · rwa [show n - 1 - (n - 1 - j) = j by omega]
    · rw [BitVec.toNat_ofNat, Nat.mod_eq_of_lt (lt_two_pow_of_le (by omega))]

end

/-- Settles O46: the bits of the word are the slot's bits below the width. -/
theorem popcntCountsOnes : Obligations.PopcntCountsOnes := by
  intro s S e hw hS
  have hbits : ((Finset.range (widthBits s.width)).filter fun i => (wordOf (widthBits s.width) e).getLsbD i = true)
      = (Finset.range (widthBits s.width)).filter fun i => bitOf e i = true :=
    Finset.filter_congr fun i hi => by rw [wordOf_getLsbD e (Finset.mem_range.1 hi)]
  have hcount := unaryPopcnt_toNat (wordOf (widthBits s.width) e)
  rw [hbits] at hcount
  exact completes_of_execUnary_toNat (op := fun _ x => .ok (unaryPopcnt x)) rfl hw hS rfl hcount

/-- Settles O47: the lowest and the highest set bit of the word, or none. -/
theorem zeroCountsCountZeros : Obligations.ZeroCountsCountZeros := by
  intro s S e hw hS
  have hpos := widthBits_pos s.width
  constructor
  · obtain ⟨k, hk, hzeros, hone, hcount⟩ := unaryClz_toNat (wordOf (widthBits s.width) e)
    refine ⟨k, hk, fun i hlo hi => ?_, fun hlt => ?_,
      completes_of_execUnary_toNat (op := fun _ x => .ok (unaryClz x)) rfl hw hS rfl hcount⟩
    · rw [← wordOf_getLsbD e hi, hzeros i hlo hi]
    · have hplace : widthBits s.width - 1 - k < widthBits s.width := by omega
      rw [← wordOf_getLsbD e hplace, hone hlt]
  · obtain ⟨k, hk, hzeros, hone, hcount⟩ := unaryCtz_toNat (wordOf (widthBits s.width) e)
    refine ⟨k, hk, fun i hi => ?_, fun hlt => ?_,
      completes_of_execUnary_toNat (op := fun _ x => .ok (unaryCtz x)) rfl hw hS rfl hcount⟩
    · rw [← wordOf_getLsbD e (hi.trans_le hk), hzeros i hi]
    · rw [← wordOf_getLsbD e hlt, hone hlt]

end Sys2Proof.Machine

/-! PROOFS. Multiplication, the divisions outside their error cases, the rotates and the negative amounts, commands on too few
entries and commands without CIN, with the statements on them (42_binary.md R160 to R162, R172 to R181, R192 to R195). -/

namespace Sys2Proof.Machine

/-! ## Multiplication -/

section
variable {n : Nat} (a b : BitVec n)

/-- A word product is the same from the signed and from the unsigned values (42_binary.md R173). -/
theorem ofInt_mul_toNat : (BitVec.ofInt n (a.toInt * b.toInt)).toNat = a.toNat * b.toNat % 2 ^ n := by
  rw [BitVec.ofInt_mul, BitVec.ofInt_toInt, BitVec.ofInt_toInt, BitVec.toNat_mul]

/-- MUL's Overflow is the range test of the exact signed product (42_binary.md R172, R174). -/
theorem mulOverflowFlag_eq : mulOverflowFlag a b = outOfRange n (a.toInt * b.toInt) := by
  rw [mulOverflowFlag, outOfRange]
  congr 1
  rw [decide_eq_decide]
  omega

theorem aluMul_eq :
    aluMul a b = .ok (BitVec.ofInt n (a.toInt * b.toInt),
      { c := decide (2 ^ n - 1 < a.toNat * b.toNat), v := outOfRange n (a.toInt * b.toInt) }) := by
  rw [← mulOverflowFlag_eq]
  rfl

end

/-- Settles O30: the operation on words with both products read as numbers. -/
theorem multiplyIsExact : Obligations.MultiplyIsExact := by
  intro s S a b cin pfc pfv hw hS
  have hdone := completes_of_execBinary (i := .mul cin pfc pfv) rfl hw hS (aluMul_eq _ _)
  rw [slotValue_eq (widthBits_le _), ofInt_mul_toNat] at hdone
  simpa only [wordOf_toNat, wordOf_toInt] using hdone

/-! ## Divisions -/

/-- The quotient and remainder of truncated division are the one pair with a remainder below the divisor and of the
dividend's sign (42_binary.md R178). -/
theorem tdiv_tmod_eq {x y q m : Int} (hsum : x = q * y + m) (hlt : |m| < |y|) (hsign : m = 0 ∨ m.sign = x.sign) :
    x.tdiv y = q ∧ x.tmod y = m := by
  have hy : y ≠ 0 := abs_pos.1 ((abs_nonneg m).trans_lt hlt)
  have hcomm : m + y * q = x := by rw [hsum]; ring
  rw [Int.abs_eq_natAbs, Int.abs_eq_natAbs] at hlt
  rcases le_or_gt 0 x with hx | hx
  · have hm : 0 ≤ m := by
      rcases hsign with h | h
      · omega
      · exact Int.sign_nonneg_iff.1 (h ▸ Int.sign_nonneg_iff.2 hx)
    exact (Int.tdiv_tmod_unique hx hy).2 ⟨hcomm, hm, by omega⟩
  · have hm : m ≤ 0 := by
      rcases hsign with h | h
      · omega
      · have := Int.sign_eq_neg_one_of_neg hx
        exact (Int.sign_eq_neg_one_iff_neg.1 (h.trans this)).le
    exact (Int.tdiv_tmod_unique' hx.le hy).2 ⟨hcomm, by omega, hm⟩

section
variable {n : Nat} {a b : BitVec n} {p : SdivOverflow}

theorem aluDivu_of_ne_zero (hb : b.toNat ≠ 0) : aluDivu a b = .ok (BitVec.ofNat n (a.toNat / b.toNat), flagsClear) :=
  if_neg hb

section
variable (hb : b.toNat ≠ 0) (hover : ¬ (a.toInt = -2 ^ (n - 1) ∧ b.toInt = -1))
include hover

theorem sdivOverflows_eq_false : sdivOverflows a b = false := by
  simpa [sdivOverflows] using hover

include hb

theorem aluDivs_of_ne_zero : aluDivs p a b = .ok (BitVec.ofInt n (a.toInt.tdiv b.toInt), flagsClear) := by
  simp [aluDivs, hb, sdivOverflows_eq_false hover]

theorem aluRem_of_ne_zero : aluRem p a b = .ok (BitVec.ofInt n (a.toInt.tmod b.toInt), flagsClear) := by
  simp [aluRem, hb, sdivOverflows_eq_false hover]

end
end

/-- Settles O32: the pair named is the truncated quotient and remainder the operations compute. -/
theorem divisionsDivide : Obligations.DivisionsDivide := by
  intro s S a b cin pfc pfv hw hS hb
  have hle := widthBits_le s.width
  rw [← wordOf_toNat] at hb
  constructor
  · have hdone := completes_of_execBinary (i := .divu cin pfc pfv) rfl hw hS (aluDivu_of_ne_zero hb)
    have hfit : s.uval a / s.uval b < 2 ^ widthBits s.width := (Nat.div_le_self _ _).trans_lt (uval_lt s a)
    rw [slotValue_eq hle, BitVec.toNat_ofNat, wordOf_toNat, wordOf_toNat, Nat.mod_eq_of_lt hfit] at hdone
    exact hdone
  · intro hover q m hsum hlt hsign
    obtain ⟨rfl, rfl⟩ := tdiv_tmod_eq hsum hlt hsign
    simp only [← wordOf_toInt] at hover ⊢
    have hdivs := completes_of_execBinary (i := .divs cin pfc pfv) rfl hw hS (aluDivs_of_ne_zero hb hover)
    have hrem := completes_of_execBinary (i := .rem cin pfc pfv) rfl hw hS (aluRem_of_ne_zero hb hover)
    rw [slotValue_ofInt hle] at hdivs hrem
    exact ⟨hdivs, hrem⟩

/-! ## Rotates -/

/-- Settles O36: a rotate by `k mod bits` moves each bit by `k` places, and the flags are read from the result. -/
theorem rotatesRotate : Obligations.RotatesRotate := by
  intro s S a b cin pfc pfv hw hS
  simp only [← wordOf_toInt]
  have hle := widthBits_le s.width
  have hpos := widthBits_pos s.width
  refine ⟨fun hb i hi => ?zero, fun k hb h1 => ⟨?rol, ?ror⟩⟩
  case zero =>
    rw [← slotValue_wordOf]
    obtain rfl | rfl := hi <;> exact completes_of_execBinary rfl hw hS (aluRotate_zero hb)
  case rol =>
    have hdone := completes_of_execBinary (i := .rol cin pfc pfv) rfl hw hS (aluRotate_pos hb h1)
    refine ⟨_, slotValue_lt hle _, fun j hj => ?_, by rw [slotValue_getLsbD hle _ hpos]; exact hdone⟩
    rw [slotValue_getLsbD hle _ (Nat.mod_lt _ hpos), ← Nat.add_mod_mod, rotateUp_getLsbD _ (Nat.mod_lt _ hpos) hj,
      wordOf_getLsbD a hj]
  case ror =>
    have hdone := completes_of_execBinary (i := .ror cin pfc pfv) rfl hw hS (aluRotate_pos hb h1)
    refine ⟨_, slotValue_lt hle _, fun j hj => ?_, by rw [slotValue_getLsbD hle _ (by omega)]; exact hdone⟩
    rw [slotValue_getLsbD hle _ hj, rotateDown_getLsbD _ (Nat.mod_lt _ hpos) hj, Nat.add_mod_mod,
      wordOf_getLsbD a (Nat.mod_lt _ hpos)]

/-! ## Negative amounts -/

section
variable {n : Nat} {a b : BitVec n} {prev : Flags} (hb : b.toInt < 0)
include hb

theorem aluShift_negative {move : Nat → BitVec n} {out : Nat → Bool} :
    aluShift prev move out a b = .error .invalidShiftAmount :=
  if_pos hb

theorem aluRotate_negative {turn : Nat → BitVec n × Bool} : aluRotate prev turn a b = .error .invalidShiftAmount :=
  if_pos hb

theorem aluAlign_negative :
    aluAlignup prev a b = .error .invalidShiftAmount ∧ aluAligndn prev a b = .error .invalidShiftAmount :=
  ⟨if_pos hb, if_pos hb⟩

end

/-- Settles O39: the shifts, the rotates and the alignments each test the sign of the amount first. -/
theorem negativeAmountFails : Obligations.NegativeAmountFails := by
  intro s S a b c p v hw hS hb
  rw [← wordOf_toInt] at hb
  have fails : ∀ {i : Instr} {op : (n : Nat) → BitVec n → BitVec n → AluResult n}, exec i s = execBinary op s →
      op (widthBits s.width) (wordOf _ a) (wordOf _ b) = .error .invalidShiftAmount → FailsWith i s 6#4 :=
    fun hrun hop => failsWith_of_execBinary hrun hw hS hop
  simp only [List.forall_mem_cons, List.not_mem_nil, IsEmpty.forall_iff, implies_true, and_true]
  refine ⟨fails rfl ?shl, fails rfl ?shr, fails rfl ?sar, fails rfl ?rol, fails rfl ?ror, fails rfl ?rcl, fails rfl ?rcr,
    fails rfl ?alignup, fails rfl ?aligndn⟩
  case shl | shr | sar => exact aluShift_negative hb
  case rol | ror | rcl | rcr => exact aluRotate_negative hb
  case alignup | aligndn =>
    obtain ⟨hup, hdown⟩ := aluAlign_negative hb
    assumption

/-! ## Too few entries -/

/-- PEEK on an empty stack (41_data.md R141). -/
theorem exec_peek_short {s : State} (h : s.dq.count < 1) : exec .peek s = .next (s.raise .insufficientOperands) := if_pos h

/-- Settles O40: each shared sequence, and PEEK, tests the count before anything else. -/
theorem insufficientOperandsFail : Obligations.InsufficientOperandsFail := by
  intro i s
  refine ⟨fun hbinary hshort => ?_, fun hi hempty => ?_⟩
  · obtain ⟨op, hrun⟩ := exists_execBinary hbinary s
    rw [stack_length] at hshort
    exact failsWith_of_raise (hrun.trans (execBinary_short hshort op))
  · have hshort : s.dq.count < 1 := by rw [count_of_stack hempty]; decide
    obtain hunary | hstack | rfl := hi
    · obtain ⟨op, hrun⟩ := exists_execUnary hunary s
      exact failsWith_of_raise (hrun.trans (execUnary_short hshort op))
    · obtain ⟨op, xi, hrun⟩ := exists_execStack hstack s
      exact failsWith_of_raise (hrun.trans (execStack_short hshort op xi))
    · exact failsWith_of_raise (exec_peek_short hshort)

/-- Settles O42: no other binary command's meaning mentions CIN. -/
theorem onlyCarryCommandsReadCin : Obligations.OnlyCarryCommandsReadCin := by
  intro s c c' p v
  refine ⟨?_, ?_, ?_, ?_, ?_, ?_, ?_, ?_, ?_, ?_, ?_, ?_, ?_, ?_, ?_, ?_⟩ <;> rfl

end Sys2Proof.Machine

/-! PROOFS. What PEEK, CLEAR, COUNT and WBYTES answer, and the statements on them (41_data.md R141, R142, R146, R147). -/

namespace Sys2Proof.Machine

/-- PEEK on a stack with a top entry (41_data.md R141). -/
theorem answers_peek {s : State} {S : List Entry} {e : Entry} (hw : s.dq.wf) (hS : s.dq.stack = S ++ [e]) :
    Answers .peek s { Response.blank with rval := BitVec.ofNat 128 (s.uval e), rcmt0 := e.cmt, rcmt1 := e.alt } := by
  have hcount := count_of_stack hS
  simp only [List.length_append, List.length_singleton] at hcount
  obtain ⟨e', hdepth, hentry⟩ := depth_of_index hw (k := 1) le_rfl (by omega)
  have hplace : s.dq.count - (1 : Int).toNat = S.length := by omega
  rw [hplace, hS, List.getElem?_concat_length] at hentry
  cases hentry
  have hrun : execPeek s = .next (s.respond
      { Response.blank with rval := slotValue (wordOf (widthBits s.width) e), rcmt0 := e.cmt, rcmt1 := e.alt }) := by
    rw [execPeek, if_neg (by omega), hdepth]
  rw [slotValue_wordOf] at hrun
  exact hrun

/-- Settles O23: the top entry is the one at depth 1. -/
theorem peekReadsTheTop : Obligations.PeekReadsTheTop := by
  intro s S e hw
  refine ⟨answers_peek hw, fun hempty => failsWith_of_raise (exec_peek_short ?_)⟩
  rw [count_of_stack hempty]
  decide

/-- Settles O24: `clear` moves both cursors to one slot. -/
theorem clearEmptiesTheStack : Obligations.ClearEmptiesTheStack := by
  intro s hw
  obtain ⟨hwd, hcap, hstack⟩ := clear_spec hw
  rw [← hstack]
  exact completes_of_withDeque rfl hwd hcap

/-- RCOUNT of a count within its 32 bits is the count (10_state.md R44, 41_data.md R146). -/
theorem countField_toNat {n : Nat} (h : n < 2 ^ 32) : (countField n).toNat = n := by
  rw [countField, if_pos h, BitVec.toNat_ofNat, Nat.mod_eq_of_lt h]

/-- Every width is a number of whole bytes (10_state.md R31). -/
theorem widthBytes_mul_eight (w : Width) : (BitVec.ofNat 32 (widthBytes w)).toNat * 8 = widthBits w := by cases w <;> rfl

/-- Settles O25: both commands answer at once, and the two numbers fit RCOUNT. -/
theorem countAndWbytesAnswer : Obligations.CountAndWbytesAnswer := by
  intro s
  refine ⟨⟨_, rfl, fun hlt => ?_⟩, _, rfl, widthBytes_mul_eight s.width⟩
  rw [stack_length] at hlt ⊢
  exact countField_toNat hlt

end Sys2Proof.Machine

/-! PROOFS. What it means that an outcome is a function of WIDTH, the logical stack, CAP, the parameters and the command port,
with an admissible STATUS and values that fit the width; and that the binary and the unary commands have such outcomes
(10_state.md R37, R40; 60_exceptions.md R310, R311). -/

namespace Sys2Proof.Machine

/-! ## Outcomes that the logical state determines -/

/-- The run answers a next state in form with this WIDTH, this stack and this response, everything else as before:
`Completes` for any run. -/
def RunsTo (run : State → Host.Outcome State Fault Refusal) (s : State) (w : Width) (T : List Entry) (r : Response) : Prop :=
  ∃ t, run s = .next t ∧ t.dq.wf ∧ t.width = w ∧ t.dq.stack = T ∧ t.resp = r ∧ s.sameSetting t

theorem completes_iff_runsTo {i : Instr} {s : State} {w : Width} {T : List Entry} {r : Response} :
    Completes i s w T r ↔ RunsTo (exec i) s w T r := Iff.rfl

/-- A STATUS that may reach the port (60_exceptions.md R310, R311). -/
def Admissible (r : Response) : Prop := r.status ≠ 3#4 ∧ r.status.toNat ≤ 12

/-- From every state in form that agrees with `s` the run answers the same WIDTH, stack and response. The STATUS is
admissible, and the values fit the width where those of `s` do. -/
def HasOutcome (run : State → Host.Outcome State Fault Refusal) (s : State) : Prop :=
  ∃ w T r, (∀ t : State, t.dq.wf → s.agrees t → RunsTo run t w T r) ∧ Admissible r
    ∧ (s.valuesFit → ∀ e ∈ T, e.val.toNat < 2 ^ widthBits w)

theorem admissible_of_success {r : Response} (h : r.status = 0#4) : Admissible r := by
  rw [Admissible, h]
  decide

theorem admissible_error {x : Err} (hx : x ≠ .stackEmpty) : Admissible (errorResponse x) := by
  cases x
  case stackEmpty => exact absurd rfl hx
  all_goals exact ⟨by decide, by decide⟩

theorem agrees_refl (s : State) : s.agrees s := ⟨rfl, rfl, rfl, rfl, rfl, rfl⟩

theorem count_of_agrees {s t : State} (h : s.agrees t) : t.dq.count = s.dq.count := by
  obtain ⟨-, hstack, -⟩ := h
  rw [count_of_stack hstack.symm, stack_length]

section
variable {run : State → Host.Outcome State Fault Refusal} {s : State}

/-- A run that only answers. -/
theorem hasOutcome_of_respond {r : Response} (hr : Admissible r)
    (h : ∀ t : State, t.dq.wf → s.agrees t → run t = .next (t.respond r)) : HasOutcome run s := by
  refine ⟨s.width, s.dq.stack, r, fun t hwt hst => ?_, hr, id⟩
  obtain ⟨hwidth, hstack, -⟩ := id hst
  exact ⟨_, h t hwt hst, hwt, hwidth.symm, hstack.symm, rfl, rfl, rfl, rfl, rfl⟩

/-- A run that raises an error. -/
theorem hasOutcome_of_raise {x : Err} (hx : x ≠ .stackEmpty)
    (h : ∀ t : State, t.dq.wf → s.agrees t → run t = .next (t.raise x)) : HasOutcome run s :=
  hasOutcome_of_respond (admissible_error hx) h

end

/-! ## Binary and unary commands -/

section
variable {i : Instr} {s : State} {S : List Entry}

theorem fits_replaced {w : Width} {old : List Entry} {e : Entry} (hS : s.dq.stack = S ++ old) (hw : w = s.width)
    (he : e.val.toNat < 2 ^ widthBits w) (hfit : s.valuesFit) : ∀ x ∈ S ++ [e], x.val.toNat < 2 ^ widthBits w := by
  intro x hx
  rcases List.mem_append.1 hx with h | h
  · exact hw ▸ hfit x (by rw [hS]; exact List.mem_append_left _ h)
  · exact List.mem_singleton.1 h ▸ he

/-- A binary command whose operation never raises StackEmpty. -/
theorem hasOutcome_of_execBinary {op : (n : Nat) → BitVec n → BitVec n → AluResult n}
    (hop : ∀ n a b, op n a b ≠ .error .stackEmpty) (hrun : ∀ t, s.agrees t → exec i t = execBinary op t) :
    HasOutcome (exec i) s := by
  by_cases hshort : s.dq.count < 2
  · refine hasOutcome_of_raise (x := .insufficientOperands) (by decide) fun t _ hst => ?_
    exact (hrun t hst).trans (execBinary_short (by rwa [count_of_agrees hst]) op)
  · obtain ⟨S, a, b, hS⟩ := stack_top_two (d := s.dq) (by omega)
    generalize hwidth : s.width = w
    cases hword : op (widthBits w) (wordOf _ a) (wordOf _ b) with
    | error x =>
      refine hasOutcome_of_raise (x := x) (fun hx => hop _ _ _ (hx ▸ hword)) fun t hwt hst => ?_
      obtain ⟨hwidth', hstack, -⟩ := id hst
      obtain rfl := hwidth'.symm.trans hwidth
      exact (hrun t hst).trans (execBinary_error hwt (hstack ▸ hS) hword)
    | ok rf =>
      obtain ⟨r, f⟩ := rf
      refine ⟨w, S ++ [resultEntry (slotValue r) a b], flagsResponse f.c f.v, fun t hwt hst => ?_,
        admissible_of_success rfl, fits_replaced hS hwidth.symm (slotValue_lt (widthBits_le w) r)⟩
      obtain ⟨hwidth', hstack, -⟩ := id hst
      obtain rfl := hwidth'.symm.trans hwidth
      exact completes_iff_runsTo.1 (completes_of_execBinary (hrun t hst) hwt (hstack ▸ hS) hword)

/-- A unary command whose operation never raises StackEmpty. -/
theorem hasOutcome_of_execUnary {op : (n : Nat) → BitVec n → Except Err (BitVec n)}
    (hop : ∀ n x, op n x ≠ .error .stackEmpty) (hrun : ∀ t, exec i t = execUnary op t) : HasOutcome (exec i) s := by
  by_cases hshort : s.dq.count < 1
  · refine hasOutcome_of_raise (x := .insufficientOperands) (by decide) fun t _ hst => ?_
    exact (hrun t).trans (execUnary_short (by rwa [count_of_agrees hst]) op)
  · obtain ⟨S, e, hS⟩ := stack_top (d := s.dq) (by omega)
    generalize hwidth : s.width = w
    cases hword : op (widthBits w) (wordOf _ e) with
    | error x =>
      refine hasOutcome_of_raise (x := x) (fun hx => hop _ _ (hx ▸ hword)) fun t hwt hst => ?_
      obtain ⟨hwidth', hstack, -⟩ := id hst
      obtain rfl := hwidth'.symm.trans hwidth
      exact (hrun t).trans (execUnary_error hwt (hstack ▸ hS) hword)
    | ok r =>
      refine ⟨w, S ++ [{ e with val := slotValue r }], Response.blank, fun t hwt hst => ?_,
        admissible_of_success rfl, fits_replaced hS hwidth.symm (slotValue_lt (widthBits_le w) r)⟩
      obtain ⟨hwidth', hstack, -⟩ := id hst
      obtain rfl := hwidth'.symm.trans hwidth
      exact completes_iff_runsTo.1 (completes_of_execUnary (hrun t) hwt (hstack ▸ hS) hword)

end

section
variable {n : Nat} (a b : BitVec n) (p : SdivOverflow) (prev : Flags)

theorem ok_ne_stackEmpty {α : Type} (r : α) : (.ok r : Except Err α) ≠ .error .stackEmpty := nofun

theorem aluDivu_ne_stackEmpty : aluDivu a b ≠ .error .stackEmpty := by
  unfold aluDivu
  split <;> simp

theorem aluDivs_ne_stackEmpty : aluDivs p a b ≠ .error .stackEmpty := by
  unfold aluDivs
  split_ifs
  · simp
  · cases p <;> simp
  · simp

theorem aluRem_ne_stackEmpty : aluRem p a b ≠ .error .stackEmpty := by
  unfold aluRem
  split_ifs
  · simp
  · cases p <;> simp
  · simp

theorem aluShift_ne_stackEmpty (move : Nat → BitVec n) (out : Nat → Bool) :
    aluShift prev move out a b ≠ .error .stackEmpty := by
  unfold aluShift
  split_ifs <;> simp

theorem aluRotate_ne_stackEmpty (turn : Nat → BitVec n × Bool) : aluRotate prev turn a b ≠ .error .stackEmpty := by
  unfold aluRotate
  split_ifs <;> simp

theorem aluAlignup_ne_stackEmpty : aluAlignup prev a b ≠ .error .stackEmpty := by
  unfold aluAlignup
  split <;> simp

theorem aluAligndn_ne_stackEmpty : aluAligndn prev a b ≠ .error .stackEmpty := by
  unfold aluAligndn
  split <;> simp

theorem unaryMaskl_ne_stackEmpty : unaryMaskl a ≠ .error .stackEmpty := by
  unfold unaryMaskl
  split <;> simp

theorem unaryMaskr_ne_stackEmpty : unaryMaskr a ≠ .error .stackEmpty := by
  unfold unaryMaskr
  split <;> simp

theorem unaryPow2_ne_stackEmpty : unaryPow2 a ≠ .error .stackEmpty := by
  unfold unaryPow2
  split <;> simp

end

/-- A binary command is the common sequence of one operation, which the parameters decide and which never raises
StackEmpty (42_binary.md R160). -/
theorem exists_binaryOp {i : Instr} (hi : isBinaryCommand i = true) (p : Params) :
    ∃ op : (n : Nat) → BitVec n → BitVec n → AluResult n,
      (∀ s : State, s.cfg = p → exec i s = execBinary op s) ∧ ∀ n a b, op n a b ≠ .error .stackEmpty := by
  cases i
  case add => exact ⟨fun _ a b => aluAdd false a b, fun _ _ => rfl, fun _ _ _ => ok_ne_stackEmpty _⟩
  case adc cin _ _ => exact ⟨fun _ a b => aluAdd cin a b, fun _ _ => rfl, fun _ _ _ => ok_ne_stackEmpty _⟩
  case sub => exact ⟨fun _ a b => aluSub false a b, fun _ _ => rfl, fun _ _ _ => ok_ne_stackEmpty _⟩
  case sbb cin _ _ => exact ⟨fun _ a b => aluSub cin a b, fun _ _ => rfl, fun _ _ _ => ok_ne_stackEmpty _⟩
  case mul => exact ⟨fun _ a b => aluMul a b, fun _ _ => rfl, fun _ _ _ => ok_ne_stackEmpty _⟩
  case divu => exact ⟨_, fun _ _ => rfl, fun _ => aluDivu_ne_stackEmpty⟩
  case divs => exact ⟨_, fun s hs => by subst hs; rfl, fun _ a b => aluDivs_ne_stackEmpty a b p.sdivOverflow⟩
  case rem => exact ⟨_, fun s hs => by subst hs; rfl, fun _ a b => aluRem_ne_stackEmpty a b p.sdivOverflow⟩
  case and _ c v => exact ⟨fun _ a b => .ok (a &&& b, ⟨c, v⟩), fun _ _ => rfl, fun _ _ _ => ok_ne_stackEmpty _⟩
  case or _ c v => exact ⟨fun _ a b => .ok (a ||| b, ⟨c, v⟩), fun _ _ => rfl, fun _ _ _ => ok_ne_stackEmpty _⟩
  case xor _ c v => exact ⟨fun _ a b => .ok (a ^^^ b, ⟨c, v⟩), fun _ _ => rfl, fun _ _ _ => ok_ne_stackEmpty _⟩
  case shl | shr | sar => exact ⟨_, fun _ _ => rfl, fun _ a b => aluShift_ne_stackEmpty a b _ _ _⟩
  case rol | ror | rcl | rcr => exact ⟨_, fun _ _ => rfl, fun _ a b => aluRotate_ne_stackEmpty a b _ _⟩
  case alignup => exact ⟨_, fun _ _ => rfl, fun _ a b => aluAlignup_ne_stackEmpty a b _⟩
  case aligndn => exact ⟨_, fun _ _ => rfl, fun _ a b => aluAligndn_ne_stackEmpty a b _⟩
  all_goals exact absurd hi (by simp [isBinaryCommand, Instr.opcode])

/-- A unary command is the common sequence of one operation that never raises StackEmpty (43_unary.md R220). -/
theorem exists_unaryOp {i : Instr} (hi : isUnaryCommand i = true) :
    ∃ op : (n : Nat) → BitVec n → Except Err (BitVec n),
      (∀ s : State, exec i s = execUnary op s) ∧ ∀ n x, op n x ≠ .error .stackEmpty := by
  cases i
  case not => exact ⟨fun _ x => .ok (~~~x), fun _ => rfl, fun _ _ => ok_ne_stackEmpty _⟩
  case popcnt => exact ⟨fun _ x => .ok (unaryPopcnt x), fun _ => rfl, fun _ _ => ok_ne_stackEmpty _⟩
  case clz => exact ⟨fun _ x => .ok (unaryClz x), fun _ => rfl, fun _ _ => ok_ne_stackEmpty _⟩
  case ctz => exact ⟨fun _ x => .ok (unaryCtz x), fun _ => rfl, fun _ _ => ok_ne_stackEmpty _⟩
  case maskl => exact ⟨_, fun _ => rfl, fun _ => unaryMaskl_ne_stackEmpty⟩
  case maskr => exact ⟨_, fun _ => rfl, fun _ => unaryMaskr_ne_stackEmpty⟩
  case pow2 => exact ⟨_, fun _ => rfl, fun _ => unaryPow2_ne_stackEmpty⟩
  all_goals exact absurd hi (by simp [isUnaryCommand, Instr.opcode])

end Sys2Proof.Machine

/-! PROOFS. The stack, data and query commands as functions of the logical state, every command with them, and the statements
on STATUS and on states that agree (10_state.md R37, R40; 60_exceptions.md R310, R311). -/

namespace Sys2Proof.Machine

/-! ## Stack commands -/

/-- On every stack the operation either raises one error, never StackEmpty, or leaves one stack whose values all stood on the
stack before. -/
def StackLaw (op : StackOp) : Prop :=
  ∀ (k : Int) (arg : Option Entry) (cap : Nat) (S : List Entry),
    (∃ x, x ≠ .stackEmpty ∧ RaisesOnStack op k arg cap S x)
    ∨ ∃ T, LeavesStack op k arg cap S T ∧ ∀ e ∈ T, ∃ e' ∈ S, e.val = e'.val

theorem values_of_subset {S T : List Entry} (h : T ⊆ S) : ∀ e ∈ T, ∃ e' ∈ S, e.val = e'.val :=
  fun e he => ⟨e, h he, rfl⟩

/-- Replacing an entry by one of the same value brings in no value. -/
theorem values_of_replaced {P Q : List Entry} {e x : Entry} (hx : x.val = e.val) :
    ∀ y ∈ P ++ [x] ++ Q, ∃ e' ∈ P ++ [e] ++ Q, y.val = e'.val := by
  intro y hy
  simp only [List.mem_append, List.mem_singleton] at hy
  obtain (hP | rfl) | hQ := hy
  · exact ⟨y, by simp [hP], rfl⟩
  · exact ⟨e, by simp, hx⟩
  · exact ⟨y, by simp [hQ], rfl⟩

theorem stackLaw_drop : StackLaw stkDrop := fun n arg cap S =>
  .inr ⟨_, drop_leavesStack arg cap S n, values_of_subset (List.take_subset _ _)⟩

theorem stackLaw_roll : StackLaw stkRoll := fun n arg cap S =>
  .inr ⟨_, roll_leavesStack arg cap S n, values_of_subset fun _ he => List.mem_rotate.1 he⟩

theorem stackLaw_extract : StackLaw stkExtract := by
  intro k arg cap S
  rcases le_or_gt k 1 with h1 | h1
  · exact .inr ⟨S, extract_leavesStack_of_le_one arg cap S h1, values_of_subset (List.Subset.refl S)⟩
  · rcases le_or_gt k S.length with hk | hk
    · obtain ⟨P, e, Q, rfl, hdepth⟩ := exists_split_at_depth h1.le hk
      refine .inr ⟨_, extract_leavesStack arg cap P Q e hdepth, values_of_subset fun x hx => ?_⟩
      simp only [List.mem_append, List.mem_singleton] at hx ⊢
      tauto
    · exact .inl ⟨_, by decide, extract_raisesOnStack arg cap h1 hk⟩

theorem stackLaw_swap : StackLaw stkSwap := by
  intro k arg cap S
  rcases le_or_gt k 1 with h1 | h1
  · exact .inr ⟨S, swap_leavesStack_of_le_one arg cap S h1, values_of_subset (List.Subset.refl S)⟩
  · rcases le_or_gt k S.length with hk | hk
    · obtain ⟨P, e, R, rfl, hdepth⟩ := exists_split_at_depth h1.le hk
      obtain rfl | ⟨Q, t, rfl⟩ := R.eq_nil_or_concat
      · simp only [List.length_nil] at hdepth; omega
      · rw [List.concat_eq_append, ← List.append_assoc]
        rw [List.length_concat] at hdepth
        refine .inr ⟨_, swap_leavesStack arg cap P Q e t (by omega), values_of_subset fun x hx => ?_⟩
        simp only [List.mem_append, List.mem_singleton] at hx ⊢
        tauto
    · exact .inl ⟨_, by decide, swap_raisesOnStack arg cap h1 hk⟩

/-- An index is in `[1, c]`, and splits the stack there, or it is out of range. -/
theorem split_or_outOfRange (S : List Entry) (k : Int) :
    (∃ P e Q, S = P ++ [e] ++ Q ∧ k = Q.length + 1) ∨ k < 1 ∨ (S.length : Int) < k := by
  by_cases hk : 1 ≤ k ∧ k ≤ S.length
  · exact .inl (exists_split_at_depth hk.1 hk.2)
  · exact .inr (by omega)

theorem stackLaw_pick : StackLaw stkPick := by
  intro k arg cap S
  obtain ⟨P, e, Q, rfl, hdepth⟩ | hout := split_or_outOfRange S k
  · rcases lt_or_ge ((P ++ [e] ++ Q).length + 1) cap with hroom | hfull
    · refine .inr ⟨_, pick_leavesStack arg cap P Q e hdepth hroom, fun x hx => ?_⟩
      rcases List.mem_append.1 hx with h | h
      · exact ⟨x, h, rfl⟩
      · exact ⟨e, by simp, by rw [List.mem_singleton.1 h]⟩
    · exact .inl ⟨_, by decide, pick_raisesOnStack arg cap (by omega) (by simp [hdepth]) hfull⟩
  · obtain ⟨hpick, -, -⟩ := outOfRange_raisesOnStack arg cap hout Entry.blank
    exact .inl ⟨_, by decide, hpick⟩

theorem stackLaw_setcmt : StackLaw stkSetcmt := by
  intro k arg cap S
  cases arg with
  | none => exact .inl ⟨_, by decide, setcmt_raisesOnStack cap⟩
  | some g =>
    obtain ⟨P, e, Q, rfl, hdepth⟩ | hout := split_or_outOfRange S k
    · exact .inr ⟨_, setcmt_leavesStack cap P Q e g hdepth, values_of_replaced rfl⟩
    · obtain ⟨-, hsetcmt, -⟩ := outOfRange_raisesOnStack none cap hout g
      exact .inl ⟨_, by decide, hsetcmt⟩

theorem stackLaw_swapcmt : StackLaw stkSwapcmt := by
  intro k arg cap S
  obtain ⟨P, e, Q, rfl, hdepth⟩ | hout := split_or_outOfRange S k
  · exact .inr ⟨_, swapcmt_leavesStack arg cap P Q e hdepth, values_of_replaced rfl⟩
  · obtain ⟨-, -, hswapcmt⟩ := outOfRange_raisesOnStack arg cap hout Entry.blank
    exact .inl ⟨_, by decide, hswapcmt⟩

/-- A stack command is the common sequence of one operation under the law (44_stack.md R240). -/
theorem exists_stackOp {i : Instr} (hi : isStackCommand i = true) :
    ∃ op xi, (∀ s : State, exec i s = execStack op xi s) ∧ StackLaw op := by
  cases i
  case drop xi => exact ⟨stkDrop, xi, fun _ => rfl, stackLaw_drop⟩
  case roll xi => exact ⟨stkRoll, xi, fun _ => rfl, stackLaw_roll⟩
  case extract xi => exact ⟨stkExtract, xi, fun _ => rfl, stackLaw_extract⟩
  case swap xi => exact ⟨stkSwap, xi, fun _ => rfl, stackLaw_swap⟩
  case pick xi => exact ⟨stkPick, xi, fun _ => rfl, stackLaw_pick⟩
  case setcmt xi => exact ⟨stkSetcmt, xi, fun _ => rfl, stackLaw_setcmt⟩
  case swapcmt xi => exact ⟨stkSwapcmt, xi, fun _ => rfl, stackLaw_swapcmt⟩
  all_goals exact absurd hi (by simp [isStackCommand, Instr.opcode])

section
variable {s t : State} {xi : Bool} {S : List Entry} {idx : Int} {arg : Option Entry}

/-- States that agree have the same index. -/
theorem indexedBy_of_agrees (hst : s.agrees t) (h : IndexedBy xi s S idx arg) : IndexedBy xi t S idx arg := by
  obtain ⟨hwidth, hstack, -, -, hport, -⟩ := hst
  cases xi with
  | true => rwa [IndexedBy, ← hstack, ← hport]
  | false =>
    simp only [IndexedBy, State.sval, State.uval] at h ⊢
    rwa [← hstack, ← hwidth]

/-- The stack below any popped index is part of the stack. -/
theorem subset_of_indexedBy (h : IndexedBy xi s S idx arg) : S ⊆ s.dq.stack := by
  cases xi with
  | true =>
    obtain ⟨hS, -⟩ := h
    rw [hS]
    exact List.Subset.refl S
  | false =>
    obtain ⟨g, hS, -⟩ := h
    rw [hS]
    exact List.subset_append_left S [g]

end

theorem hasOutcome_of_execStack {i : Instr} {s : State} {op : StackOp} {xi : Bool} (hlaw : StackLaw op)
    (hrun : ∀ t : State, exec i t = execStack op xi t) : HasOutcome (exec i) s := by
  by_cases hshort : s.dq.count < 1
  · refine hasOutcome_of_raise (x := .insufficientOperands) (by decide) fun t _ hst => ?_
    exact (hrun t).trans (execStack_short (by rwa [count_of_agrees hst]) op xi)
  · obtain ⟨S, idx, arg, hindex⟩ := exists_indexedBy (s := s) (by omega) xi
    obtain ⟨x, hx, hraises⟩ | ⟨T, hleaves, hvalues⟩ := hlaw idx arg s.dq.cap S
    · refine hasOutcome_of_respond (admissible_error hx) fun t hwt hst => ?_
      have hindex' := indexedBy_of_agrees hst hindex
      obtain ⟨-, -, hcap, -⟩ := hst
      exact failsWith_of_raisesOnStack (hrun t) hwt hindex' (hcap ▸ hraises)
    · refine ⟨s.width, T, Response.blank, fun t hwt hst => ?_, admissible_of_success rfl, fun hfit e he => ?_⟩
      · have hindex' := indexedBy_of_agrees hst hindex
        obtain ⟨hwidth, -, hcap, -⟩ := hst
        exact hwidth ▸ completes_iff_runsTo.1 (completes_of_leavesStack (hrun t) hwt hindex' (hcap ▸ hleaves))
      · obtain ⟨e', he', hval⟩ := hvalues e he
        rw [hval]
        exact hfit e' (subset_of_indexedBy hindex he')

/-! ## Data and query commands -/

theorem pushedEntry_of_agrees {s t : State} (hst : s.agrees t) (srcbits : Nat) (sx : Bool) :
    pushedEntry t srcbits sx = pushedEntry s srcbits sx := by
  obtain ⟨hwidth, -, -, -, hport, -⟩ := hst
  rw [pushedEntry, pushedEntry, hwidth, hport]

theorem pushedEntry_fits (s : State) (src : Width) (sx : Bool) :
    (pushedEntry s (widthBits src) sx).val.toNat < 2 ^ widthBits s.width := by
  rw [← eq_pushedEntry]
  exact slotValue_lt (widthBits_le _) _

theorem hasOutcome_push (wc : BitVec 3) (sx : Bool) {s : State} (hw : s.dq.wf) : HasOutcome (exec (.push wc sx)) s := by
  cases hcode : widthOfCode wc with
  | none => exact hasOutcome_of_raise (by decide) fun t _ _ => exec_push_of_badCode hcode
  | some src =>
    have hlt := count_lt hw
    by_cases hroom : s.dq.count + 1 < s.dq.cap
    · refine ⟨s.width, s.dq.stack ++ [pushedEntry s (widthBits src) sx], Response.blank, fun t hwt hst => ?_,
        admissible_of_success rfl, fits_replaced (old := []) (by simp) rfl (pushedEntry_fits s src sx)⟩
      have hcount := count_of_agrees hst
      have hentry := pushedEntry_of_agrees hst (widthBits src) sx
      obtain ⟨hwidth, hstack, hcap, -⟩ := hst
      obtain ⟨d, hpush, hwd, hcapd, hstackd⟩ := pushFront_spec hwt (by omega) (pushedEntry t (widthBits src) sx)
      have hdone := completes_of_withDeque (exec_push_of_ok hcode hpush) hwd hcapd
      rwa [hstackd, ← hstack, hentry, ← hwidth] at hdone
    · refine hasOutcome_of_raise (x := .stackFull) (by decide) fun t _ hst => ?_
      have hcount := count_of_agrees hst
      obtain ⟨-, -, hcap, -⟩ := hst
      exact exec_push_of_error hcode (pushFront_full (by omega) _)

theorem hasOutcome_peek {s : State} : HasOutcome (exec .peek) s := by
  by_cases hshort : s.dq.count < 1
  · exact hasOutcome_of_raise (x := .insufficientOperands) (by decide) fun t _ hst =>
      exec_peek_short (by rwa [count_of_agrees hst])
  · obtain ⟨S, e, hS⟩ := stack_top (d := s.dq) (by omega)
    refine hasOutcome_of_respond
      (r := { Response.blank with rval := BitVec.ofNat 128 (s.uval e), rcmt0 := e.cmt, rcmt1 := e.alt })
      (admissible_of_success rfl) fun t hwt hst => ?_
    obtain ⟨hwidth, hstack, -⟩ := hst
    have hanswers := answers_peek hwt (hstack ▸ hS)
    rwa [State.uval, ← hwidth] at hanswers

theorem hasOutcome_clear {s : State} : HasOutcome (exec .clear) s := by
  refine ⟨s.width, [], Response.blank, fun t hwt hst => ?_, admissible_of_success rfl, fun _ e he => by simp at he⟩
  obtain ⟨hwidth, -⟩ := hst
  exact hwidth ▸ completes_iff_runsTo.1 (clearEmptiesTheStack t hwt)

theorem hasOutcome_count {s : State} : HasOutcome (exec .count) s :=
  hasOutcome_of_respond (r := { Response.blank with rcount := countField s.dq.count }) (admissible_of_success rfl)
    fun t _ hst => by rw [← count_of_agrees hst]; rfl

theorem hasOutcome_wbytes {s : State} : HasOutcome (exec .wbytes) s :=
  hasOutcome_of_respond (r := { Response.blank with rcount := BitVec.ofNat 32 (widthBytes s.width) })
    (admissible_of_success rfl) fun t _ hst => by
      obtain ⟨hwidth, -⟩ := hst
      rw [hwidth]
      rfl

theorem hasOutcome_getitems {s : State} : HasOutcome (exec .getitems) s := by
  refine hasOutcome_of_respond (r := { Response.blank with
    items := (s.dq.stack.reverse.take (dataIndex s.port.data).toNat).map (itemOf s.width) })
    (admissible_of_success rfl) fun t hwt hst => ?_
  obtain ⟨hwidth, hstack, -, -, hport, -⟩ := hst
  rw [hwidth, hstack, hport, ← enumerateLifo_spec hwt]
  rfl

theorem hasOutcome_convert (wc : BitVec 3) (sx : Bool) {s : State} : HasOutcome (exec (.convert wc sx)) s := by
  cases hcode : widthOfCode wc with
  | none => exact hasOutcome_of_raise (by decide) fun t _ _ => exec_convert_of_badCode hcode
  | some w =>
    refine ⟨w, s.dq.stack.map (convertEntry s.width sx w), Response.blank, fun t hwt hst => ?_,
      admissible_of_success rfl, fun _ e he => ?_⟩
    · obtain ⟨hwidth, hstack, -⟩ := hst
      rw [hwidth, hstack]
      exact completes_iff_runsTo.1 (completes_convert sx hwt hcode)
    · obtain ⟨e', -, rfl⟩ := List.mem_map.1 he
      exact slotValue_lt (widthBits_le w) _

/-! ## PARSE -/

theorem magnitude_error {radix : Nat} {tok : Bytes} {x : Err} (h : magnitude radix tok = .error x) :
    x = .invalidFormat := by
  unfold magnitude at h
  split at h
  · cases h; rfl
  · split at h
    · cases h; rfl
    · split_ifs at h
      cases h; rfl

theorem parseToken_error {n : Nat} {f : Radix} {tok : Bytes} {x : Err} (h : parseToken n f tok = .error x) :
    x = .invalidFormat := by
  unfold parseToken at h
  split at h
  · next y hmag => cases h; exact magnitude_error hmag
  · cases h

/-- The parser raises EmptyInput and InvalidFormat alone (46_parse.md R286, R290). -/
theorem parseEntry_ne_stackEmpty (n : Nat) (f : Radix) (text : Bytes) : parseEntry n f text ≠ .error .stackEmpty := by
  intro h
  unfold parseEntry at h
  split at h
  · cases h
  · split_ifs at h
    · cases h
    · split at h
      · next y htok =>
        cases h
        cases parseToken_error htok
      · cases h

/-- What PARSE answers of a text at a width (46_parse.md R280, R293). -/
def parseResponse (w : Width) (f : Radix) (text : Bytes) : Response :=
  match parseEntry (widthBits w) f text with
  | .error x => errorResponse x
  | .ok none => Response.blank
  | .ok (some (v, cm, mk)) => { Response.blank with rpresent := true, rval := slotValue v, rcmt0 := cm, marker := mk }

theorem exec_parse_eq (f : Radix) (s : State) :
    exec (.parse f) s = .next (s.respond (parseResponse s.width f s.port.text)) := by
  cases hentry : parseEntry (widthBits s.width) f s.port.text with
  | error x =>
    have hresponse : parseResponse s.width f s.port.text = errorResponse x := by simp only [parseResponse, hentry]
    rw [hresponse]
    exact exec_parse_of_error hentry
  | ok entry => cases entry <;> simp only [exec, execParse, parseResponse, hentry]

theorem admissible_parseResponse (w : Width) (f : Radix) (text : Bytes) : Admissible (parseResponse w f text) := by
  unfold parseResponse
  split
  · next x h => exact admissible_error fun hx => parseEntry_ne_stackEmpty _ f text (hx ▸ h)
  · exact admissible_of_success rfl
  · exact admissible_of_success rfl

theorem hasOutcome_parse (f : Radix) {s : State} : HasOutcome (exec (.parse f)) s :=
  hasOutcome_of_respond (admissible_parseResponse s.width f s.port.text) fun t _ hst => by
    obtain ⟨hwidth, -, -, -, hport, -⟩ := hst
    rw [hwidth, hport]
    exact exec_parse_eq f t

/-! ## Every command -/

/-- Every command's outcome is a function of the logical state. -/
theorem exec_hasOutcome (i : Instr) {s : State} (hw : s.dq.wf) : HasOutcome (exec i) s := by
  by_cases hbinary : isBinaryCommand i = true
  · obtain ⟨op, hrun, hop⟩ := exists_binaryOp hbinary s.cfg
    exact hasOutcome_of_execBinary hop fun t ⟨_, _, _, hcfg, _⟩ => hrun t hcfg.symm
  by_cases hunary : isUnaryCommand i = true
  · obtain ⟨op, hrun, hop⟩ := exists_unaryOp hunary
    exact hasOutcome_of_execUnary hop hrun
  by_cases hstack : isStackCommand i = true
  · obtain ⟨op, xi, hrun, hlaw⟩ := exists_stackOp hstack
    exact hasOutcome_of_execStack hlaw hrun
  cases i
  case push wc sx => exact hasOutcome_push wc sx hw
  case peek => exact hasOutcome_peek
  case clear => exact hasOutcome_clear
  case count => exact hasOutcome_count
  case wbytes => exact hasOutcome_wbytes
  case getitems => exact hasOutcome_getitems
  case convert wc sx => exact hasOutcome_convert wc sx
  case parse f => exact hasOutcome_parse f
  case not | maskl | maskr | popcnt | clz | ctz | pow2 => exact absurd rfl hunary
  case drop | roll | extract | swap | pick | setcmt | swapcmt => exact absurd rfl hstack
  all_goals exact absurd rfl hbinary

/-! ## The statements -/

/-- Settles O15: a command's STATUS is that of its one outcome. -/
theorem statusIsNeverStackEmpty : Obligations.StatusIsNeverStackEmpty := by
  intro i s t hw hrun
  obtain ⟨w, T, r, hruns, hadmissible, -⟩ := exec_hasOutcome i hw
  obtain ⟨t', hrun', -, -, -, rfl, -⟩ := hruns s hw (agrees_refl s)
  cases hrun.symm.trans hrun'
  exact hadmissible

/-- What two runs answer from two states: next states in form that agree, with the same response. -/
def AnswersAlike (o o' : Host.Outcome State Fault Refusal) : Prop :=
  ∃ s' t', o = .next s' ∧ o' = .next t' ∧ s'.resp = t'.resp ∧ s'.agrees t' ∧ s'.dq.wf ∧ t'.dq.wf

/-- A run that the logical state determines answers states that agree alike. -/
theorem answersAlike_of_hasOutcome {run : State → Host.Outcome State Fault Refusal} {s t : State}
    (h : HasOutcome run s) (hs : s.dq.wf) (ht : t.dq.wf) (hst : s.agrees t) : AnswersAlike (run s) (run t) := by
  obtain ⟨w, T, r, hruns, -, -⟩ := h
  obtain ⟨s', hrun, hws, hwidth, hstack, hresp, hcfg, hcap, hinputs, hport⟩ := hruns s hs (agrees_refl s)
  obtain ⟨t', hrun', hwt, hwidth', hstack', hresp', hcfg', hcap', hinputs', hport'⟩ := hruns t ht hst
  obtain ⟨-, -, ecap, ecfg, eport, einputs⟩ := hst
  exact ⟨s', t', hrun, hrun', hresp.trans hresp'.symm, ⟨hwidth.trans hwidth'.symm, hstack.trans hstack'.symm,
    (hcap.trans ecap).trans hcap'.symm, (hcfg.trans ecfg).trans hcfg'.symm, (hport.trans eport).trans hport'.symm,
    (hinputs.trans einputs).trans hinputs'.symm⟩, hws, hwt⟩

/-- Settles O16: each command has one outcome for all states that agree. -/
theorem equalStacksAreIndistinguishable : Obligations.EqualStacksAreIndistinguishable := by
  intro i s t hs ht hst
  exact answersAlike_of_hasOutcome (exec_hasOutcome i hs) hs ht hst

end Sys2Proof.Machine

/-! PROOFS. What a step does with each move of the host, what it keeps, and runs of steps; and the statements on them
(10_state.md R36 to R38, R45; 60_exceptions.md R314, R327; 70_reset_and_hazards.md R340, R353, R354). -/

namespace Sys2Proof.Machine

/-! ## One step, by the host's next move -/

section
variable {s : State} {c : Command} {rest : List HostMove}

theorem step_idle (h : s.inputs = []) : step s = .next s := by rw [step, h]

theorem step_reset (h : s.inputs = .reset :: rest) : step s = .next (s.afterReset rest) := by rw [step, h]

theorem step_breach {r : Refusal} (h : s.inputs = .command c :: rest) (hbreach : hostBreach s.cfg c = some r) :
    step s = .refused r := by
  rw [step, h]
  simp only [hbreach]

theorem step_command (h : s.inputs = .command c :: rest) (hfits : hostBreach s.cfg c = none) :
    step s = runPort (s.accept c rest) := by
  rw [step, h]
  simp only [hfits]

theorem hostBreach_of_wf {p : Params} (h : c.wf p = true) : hostBreach p c = none := by
  obtain ⟨htext, hcomments⟩ : c.textFits p = true ∧ c.commentsFit p = true := by simpa [Command.wf] using h
  rw [hostBreach, if_pos htext, if_pos hcomments]

end

theorem runPort_ok {s : State} {i : Instr} (h : decode s.port.cmd = .ok i) : runPort s = exec i s := by
  rw [runPort, h]

theorem runPort_error {s : State} {x : DecodeError} (h : decode s.port.cmd = .error x) :
    runPort s = .next (s.raise .illegalCommand) := by
  rw [runPort, h]

/-- Settles O5: the command breaks no bound, and `runPort` decodes the word on the port. -/
theorem stepRunsTheDecodedCommand : Obligations.StepRunsTheDecodedCommand := by
  intro s c rest i hinputs hwf hdecode _
  rw [step_command hinputs (hostBreach_of_wf hwf), runPort_ok hdecode]
  rfl

/-- Settles O6: an illegal word decodes to no command. -/
theorem stepRaisesIllegalCommand : Obligations.StepRaisesIllegalCommand := by
  intro s c rest hinputs hwf hillegal
  obtain ⟨x, hdecode⟩ := decode_of_illegal hillegal
  rw [step_command hinputs (hostBreach_of_wf hwf), runPort_error hdecode]
  rfl

/-- Settles O7: the step's first case. -/
theorem stepIdleHoldsState : Obligations.StepIdleHoldsState := fun _ h => step_idle h

/-- Settles O8: the state after reset holds a new deque, which is empty. -/
theorem stepTakesReset : Obligations.StepTakesReset := by
  intro s rest hinputs hcap
  obtain ⟨hwd, hcapd, hstackd⟩ := new_spec hcap
  have hcount : (Deque.new s.dq.cap).count = 0 := count_of_stack hstackd
  exact ⟨_, step_reset hinputs, rfl, rfl, rfl, hcount, hstackd, hwd, hcapd, rfl, rfl, rfl⟩

/-- Settles O9: the bounds are looked at before the word is decoded, the text first. -/
theorem stepRefusesHostBreach : Obligations.StepRefusesHostBreach := by
  intro s c rest hinputs
  refine ⟨fun htext => step_breach hinputs ?_, fun htext hcomments => step_breach hinputs ?_⟩
  · simp [hostBreach, htext]
  · simp [hostBreach, htext, hcomments]

/-! ## What a step keeps -/

theorem resetWith_inv {cap : Nat} (hcap : 2 ≤ cap) (p : Params) : (State.resetWith cap p).Inv := by
  obtain ⟨hwd, -, hstackd⟩ := new_spec hcap
  refine ⟨hwd, fun e he => ?_⟩
  have hempty : (State.resetWith cap p).dq.stack = [] := hstackd
  rw [hempty] at he
  cases he

/-- Settles O10: a new deque is in form and holds no value. -/
theorem resetMeetsTheInvariant : Obligations.ResetMeetsTheInvariant :=
  ⟨resetWith_inv (by decide) _, fun _ p hcap => resetWith_inv hcap p⟩

/-- The command on the port has an outcome that the logical state determines, legal or not (30_encoding.md R95). -/
theorem runPort_hasOutcome {s : State} (hw : s.dq.wf) : HasOutcome runPort s := by
  cases hdecode : decode s.port.cmd with
  | error x =>
    refine hasOutcome_of_raise (x := .illegalCommand) (by decide) fun t _ ⟨_, _, _, _, hport, _⟩ => ?_
    exact runPort_error (hport ▸ hdecode)
  | ok i =>
    obtain ⟨w, T, r, hruns, hrest⟩ := exec_hasOutcome i hw
    refine ⟨w, T, r, fun t hwt hst => ?_, hrest⟩
    obtain ⟨-, -, -, -, hport, -⟩ := id hst
    rw [RunsTo, runPort_ok (hport ▸ hdecode)]
    exact hruns t hwt hst

/-- What a step keeps: the form, CAP, the parameters, the invariant, and no move but those that were queued. -/
def Kept (s t : State) : Prop :=
  t.dq.wf ∧ t.dq.cap = s.dq.cap ∧ t.cfg = s.cfg ∧ (∀ m ∈ t.inputs, m ∈ s.inputs) ∧ (s.valuesFit → t.valuesFit)

/-- A step from a state in form answers a next state that keeps all of that, or is refused for a bound that the next command
breaks. -/
theorem step_kept_or_refused {s : State} (hw : s.dq.wf) :
    (∃ t, step s = .next t ∧ Kept s t)
    ∨ ∃ c rest r, s.inputs = .command c :: rest ∧ hostBreach s.cfg c = some r ∧ step s = .refused r := by
  match hinputs : s.inputs with
  | [] => exact .inl ⟨s, step_idle hinputs, hw, rfl, rfl, fun _ => id, id⟩
  | .reset :: rest =>
    obtain ⟨hcap2, -⟩ := id hw
    obtain ⟨hwd, hfit⟩ := resetWith_inv hcap2 s.cfg
    refine .inl ⟨_, step_reset hinputs, hwd, rfl, rfl, fun m hm => ?_, fun _ => hfit⟩
    rw [hinputs]
    exact List.mem_cons_of_mem _ hm
  | .command c :: rest =>
    cases hbreach : hostBreach s.cfg c with
    | some r => exact .inr ⟨c, rest, r, rfl, hbreach, step_breach hinputs hbreach⟩
    | none =>
      obtain ⟨w, T, r, hruns, -, hfits⟩ := runPort_hasOutcome (s := s.accept c rest) hw
      obtain ⟨t, hrun, hwt, rfl, rfl, -, hcfg, hcap, hmoves, -⟩ :=
        hruns (s.accept c rest) hw (agrees_refl _)
      refine .inl ⟨t, (step_command hinputs hbreach).trans hrun, hwt, hcap, hcfg, fun m hm => ?_, hfits⟩
      rw [hmoves] at hm
      rw [hinputs]
      exact List.mem_cons_of_mem _ hm

theorem step_kept {s t : State} (hw : s.dq.wf) (hstep : step s = .next t) : Kept s t := by
  obtain ⟨t', hnext, hkept⟩ | ⟨c, rest, r, -, -, hrefused⟩ := step_kept_or_refused hw
  · cases hstep.symm.trans hnext
    exact hkept
  · cases hstep.symm.trans hrefused

/-- Settles O11: the form is kept by every step, and the values where they fit before. -/
theorem stepKeepsTheInvariant : Obligations.StepKeepsTheInvariant := by
  intro s t ⟨hw, hfit⟩ hstep
  obtain ⟨hwt, -, -, -, hfits⟩ := step_kept hw hstep
  exact ⟨hwt, hfits hfit⟩

/-- Settles O12: a command within the host's bounds breaks none, and the moves left are among those queued before. -/
theorem stepNeverStops : Obligations.StepNeverStops := by
  intro s ⟨hw, hfit⟩ hbounds
  obtain ⟨t, hnext, hwt, -, hcfg, hmoves, hfits⟩ | ⟨c, rest, r, hinputs, hbreach, -⟩ := step_kept_or_refused hw
  · exact ⟨t, hnext, ⟨hwt, hfits hfit⟩, fun c hc => hcfg ▸ hbounds c (hmoves _ hc)⟩
  · have hwf := hbounds c (by rw [hinputs]; exact List.mem_cons_self)
    rw [hostBreach_of_wf hwf] at hbreach
    cases hbreach

/-! ## Runs -/

/-- A run of one more step is a step and a run from the state it answers. -/
theorem run_succ_of_next {k : Nat} {s t : State} (h : step s = .next t) : core.run (k + 1) s = core.run k t := by
  have h' : core.step s = .next t := h
  simp only [Host.Core.run, h']

theorem run_succ_of_refused {k : Nat} {s : State} {r : Refusal} (h : step s = .refused r) :
    core.run (k + 1) s = .refused r := by
  have h' : core.step s = .refused r := h
  simp only [Host.Core.run, h']

/-- A run keeps what every step keeps, from a state that stays in form. -/
theorem run_keeps {P : State → Prop} (hwf : ∀ s, P s → s.dq.wf) (hstep : ∀ s t, P s → Kept s t → P t) :
    ∀ (k : Nat) {s t : State}, P s → core.run k s = .next t → P t := by
  intro k
  induction k with
  | zero =>
    intro s t hs hrun
    cases hrun
    exact hs
  | succ k ih =>
    intro s t hs hrun
    obtain ⟨u, hnext, hkept⟩ | ⟨c, rest, r, -, -, hrefused⟩ := step_kept_or_refused (hwf s hs)
    · exact ih (hstep s u hs hkept) ((run_succ_of_next hnext).symm.trans hrun)
    · cases (run_succ_of_refused hrefused).symm.trans hrun

/-- Settles O13: a run keeps the form and CAP, and a deque in form obeys the law. -/
theorem runsKeepTheCapacityLaw : Obligations.RunsKeepTheCapacityLaw := by
  intro k cap p moves t hcap hrun
  obtain ⟨hw0, -⟩ := resetWith_inv hcap p
  obtain ⟨hwt, hcapt⟩ : t.dq.wf ∧ t.dq.cap = cap := by
    refine run_keeps (P := fun s => s.dq.wf ∧ s.dq.cap = cap) (fun _ => And.left) ?_ k
      (s := { State.resetWith cap p with inputs := moves }) ⟨hw0, rfl⟩ hrun
    intro s u ⟨_, hs⟩ ⟨hwu, hu, _⟩
    exact ⟨hwu, hu.trans hs⟩
  have hlaw := count_free hwt
  exact ⟨hlaw.trans hcapt, hcapt, by omega⟩

/-! ## Runs from states that agree -/

/-- One step from states that agree, with the same latched response: alike, or refused for the same reason. -/
theorem step_alike {s t : State} (hs : s.dq.wf) (ht : t.dq.wf) (hst : s.agrees t) (hresp : s.resp = t.resp) :
    AnswersAlike (step s) (step t) ∨ ∃ r, step s = .refused r ∧ step t = .refused r := by
  obtain ⟨hwidth, hstack, hcap, hcfg, hport, hmoves⟩ := id hst
  match hinputs : s.inputs with
  | [] =>
    have hinputs' := hmoves ▸ hinputs
    exact .inl ⟨s, t, step_idle hinputs, step_idle hinputs', hresp, hst, hs, ht⟩
  | .reset :: rest =>
    have hinputs' := hmoves ▸ hinputs
    obtain ⟨hcap2, -⟩ := id hs
    obtain ⟨hwd, -⟩ := new_spec hcap2
    have hsame : t.afterReset rest = s.afterReset rest := by rw [State.afterReset, State.afterReset, hcap, hcfg]
    refine .inl ⟨_, _, step_reset hinputs, step_reset hinputs', ?_⟩
    rw [hsame]
    exact ⟨rfl, agrees_refl _, hwd, hwd⟩
  | .command c :: rest =>
    have hinputs' := hmoves ▸ hinputs
    cases hbreach : hostBreach s.cfg c with
    | some r => exact .inr ⟨r, step_breach hinputs hbreach, step_breach hinputs' (hcfg ▸ hbreach)⟩
    | none =>
      rw [step_command hinputs hbreach, step_command hinputs' (hcfg ▸ hbreach)]
      exact .inl (answersAlike_of_hasOutcome (s := s.accept c rest) (t := t.accept c rest) (runPort_hasOutcome hs) hs ht
        ⟨hwidth, hstack, hcap, hcfg, rfl, rfl⟩)

/-- Settles O17: induction on the number of steps; after each the states agree again, or both runs have been refused. -/
theorem runsAreFunctionsOfTheMoves : Obligations.RunsAreFunctionsOfTheMoves := by
  intro k
  induction k with
  | zero =>
    intro s t _ _ hst hresp
    exact .inl ⟨s, t, rfl, rfl, hresp, hst⟩
  | succ k ih =>
    intro s t hs ht hst hresp
    obtain ⟨s', t', hstep, hstep', hresp', hst', hs', ht'⟩ | ⟨r, hrefused, hrefused'⟩ := step_alike hs ht hst hresp
    · rw [run_succ_of_next hstep, run_succ_of_next hstep']
      exact ih s' t' hs' ht' hst' hresp'
    · exact .inr ⟨r, run_succ_of_refused hrefused, run_succ_of_refused hrefused'⟩

end Sys2Proof.Machine

/-! PROOFS. PARSE of a token with digits: the digits of the default radix carry no mark, a marked token does not begin with a
sign, and the magnitude read; and the statements on literals (46_parse.md R282 to R292). -/

namespace Sys2Proof.Machine

/-! ## Letters and digits -/

/-- No digit of the default radix is a letter that names a radix (46_parse.md R288, R290). -/
theorem digitByte_ne_letter {f : Radix} {letter : Byte} {r : Nat} (hletter : (letter, r) ∈ prefixLetters f)
    (capital : Bool) {d : Nat} (hd : d < defaultRadix f) : letter ≠ digitByte capital d := by
  have key : ∀ p ∈ prefixLetters f, ∀ capital, ∀ d < defaultRadix f, p.1 ≠ digitByte capital d := by cases f <;> decide
  exact key _ hletter capital d hd

/-- Every radix a letter names is at most 16 (46_parse.md R282). -/
theorem radix_le_of_letter {f : Radix} {letter : Byte} {r : Nat} (hletter : (letter, r) ∈ prefixLetters f) : r ≤ 16 := by
  have key : ∀ p ∈ prefixLetters f, p.2 ≤ 16 := by cases f <;> decide
  exact key _ hletter

theorem mem_prefixLetters {f : Radix} {p : Byte × Nat} (h : p ∈ radixLetters) : p ∈ prefixLetters f :=
  List.mem_append_left _ h

theorem defaultRadix_le (f : Radix) : defaultRadix f ≤ 16 := by cases f <;> decide

/-- No digit is a `-` (46_parse.md R290). -/
theorem digitByte_ne_minus (capital : Bool) {d : Nat} (hd : d < 16) : digitByte capital d ≠ 0x2D#8 := by
  have key : ∀ d < 16, ∀ capital, digitByte capital d ≠ 0x2D#8 := by decide
  exact key d hd capital

theorem head_digitBytes_append {radix : Nat} {ds : List (Bool × Nat)} (hne : ds ≠ []) (hr : radix ≤ 16)
    (hds : ∀ d ∈ ds, d.2 < radix) (after : Bytes) : (digitBytes ds ++ after).head? ≠ some 0x2D#8 := by
  cases ds with
  | nil => exact absurd rfl hne
  | cons d ds =>
    have hd : d.2 < 16 := (hds d List.mem_cons_self).trans_le hr
    simpa [digitBytes] using digitByte_ne_minus d.1 hd

/-- Digits of the default radix bear no mark of another radix (46_parse.md R288, R289). -/
theorem unmarked_digitBytes {f : Radix} {ds : List (Bool × Nat)} (hds : ∀ d ∈ ds, d.2 < defaultRadix f) :
    Unmarked f (digitBytes ds) := by
  have hletter : ∀ letter r, (letter, r) ∈ prefixLetters f → letter ∉ digitBytes ds := by
    intro letter r hnames hmem
    obtain ⟨d, hd, rfl⟩ := List.mem_map.1 hmem
    exact digitByte_ne_letter hnames d.1 (hds d hd) rfl
  constructor
  · rintro r rest ⟨letter, hnames, hbody, -⟩
    exact hletter letter r hnames (by simp [hbody])
  · rintro r rest ⟨-, letter, hnames, hbody⟩
    exact hletter letter r (mem_prefixLetters hnames) (by simp [hbody])

/-- A token marked as digits of a radix up to 16 does not begin with `-` (46_parse.md R287 to R289). -/
theorem marked_digits {f : Radix} {body : Bytes} {radix : Nat} {ds : List (Bool × Nat)} (hne : ds ≠ [])
    (hds : ∀ d ∈ ds, d.2 < radix) (hmark : Prefixed f body radix (digitBytes ds) ∨ Suffixed f body radix (digitBytes ds)) :
    radix ≤ 16 ∧ body.head? ≠ some 0x2D#8 := by
  obtain ⟨letter, hnames, rfl, -⟩ | ⟨-, letter, hnames, rfl⟩ := hmark
  · exact ⟨radix_le_of_letter hnames, by simp⟩
  · have hr := radix_le_of_letter (mem_prefixLetters (f := f) hnames)
    exact ⟨hr, head_digitBytes_append hne hr hds [letter]⟩

/-! ## The magnitude -/

/-- Under either sign only the magnitude modulo `2^128` matters (46_parse.md R291, R292). -/
theorem signed_mod_emod (neg : Bool) (m : Nat) :
    (if neg then -((m % 2 ^ 128 : Nat) : Int) else ((m % 2 ^ 128 : Nat) : Int)) % 2 ^ 128
      = (if neg then -(m : Int) else (m : Int)) % 2 ^ 128 := by
  have hmod : ((m % 2 ^ 128 : Nat) : Int) ≡ m [ZMOD 2 ^ 128] := by
    rw [Int.natCast_mod]
    exact Int.mod_modEq _ _
  cases neg with
  | false => exact hmod
  | true => exact hmod.neg

/-- PARSE of a token whose marks leave digits of the radix (46_parse.md R290 to R292). -/
theorem readsMagnitude_digits {f : Radix} {s : State} {neg : Bool} {body : Bytes} {radix : Nat} {ds : List (Bool × Nat)}
    {comment : Option (Bool × Bytes)} (hneg : neg = false → body.head? ≠ some 0x2D#8)
    (htext : EntryText s.port.text (signed neg body) comment) (hradix : chooseRadix f body = (radix, digitBytes ds))
    (hr : radix ≤ 16) (hne : ds ≠ []) (hds : ∀ d ∈ ds, d.2 < radix) :
    ReadsMagnitude f s radix neg (digitsValue radix (ds.map Prod.snd)) comment := by
  have hrun := execParse_entryText hneg htext hradix
  rw [magnitude_digitBytes hr hne hds] at hrun
  generalize digitsValue radix (ds.map Prod.snd) = m at hrun
  constructor
  · intro hreads
    by_cases h8 : radix = 8
    · rw [if_pos h8] at hrun
      rw [← signed_mod_emod]
      exact hrun
    · have hlt := hreads.resolve_right h8
      rw [if_neg h8, if_neg (not_le.2 hlt)] at hrun
      exact hrun
  · intro hlarge h8
    rw [if_neg h8, if_pos hlarge] at hrun
    exact failsWith_of_raise (x := .invalidFormat) hrun

/-- Settles O58: the digits are unmarked, so the default radix reads them all. -/
theorem parseReadsDigits : Obligations.ParseReadsDigits := by
  intro f s neg ds comment hne hds htext
  have hhead := head_digitBytes_append hne (defaultRadix_le f) hds []
  rw [List.append_nil] at hhead
  exact readsMagnitude_digits (fun _ => hhead) htext (chooseRadix_unmarked (unmarked_digitBytes hds)) (defaultRadix_le f)
    hne hds

/-- Settles O59: the mark decides the radix and is taken off the digits. -/
theorem parseReadsPrefixesAndSuffixes : Obligations.ParseReadsPrefixesAndSuffixes := by
  intro f s neg body radix ds comment hne hds hmark htext
  obtain ⟨hr, hhead⟩ := marked_digits hne hds hmark
  exact readsMagnitude_digits (fun _ => hhead) htext (chooseRadix_marked hmark) hr hne hds

/-! ## Tokens that are no number -/

/-- PARSE of a token whose marks leave no digits of the radix (46_parse.md R290). -/
theorem failsWith_notDigits {f : Radix} {s : State} {neg : Bool} {body rest : Bytes} {radix : Nat}
    {comment : Option (Bool × Bytes)} (hneg : neg = false → body.head? ≠ some 0x2D#8)
    (htext : EntryText s.port.text (signed neg body) comment) (hradix : chooseRadix f body = (radix, rest))
    (hnot : NotDigits radix rest) : FailsWith (.parse f) s 7#4 := by
  have hrun := execParse_entryText hneg htext hradix
  rw [magnitude_notDigits hnot] at hrun
  exact failsWith_of_raise (x := .invalidFormat) hrun

/-- Settles O60: step 9 refuses what the marks leave, whichever radix they choose. -/
theorem parseRefusesOtherBytes : Obligations.ParseRefusesOtherBytes := by
  intro f s neg body comment hneg htext
  exact ⟨fun hunmarked => failsWith_notDigits hneg htext (chooseRadix_unmarked hunmarked),
    fun radix rest hmark => failsWith_notDigits hneg htext (chooseRadix_marked hmark)⟩

end Sys2Proof.Machine
